-- ==== Sys2Proof/Word.lean ====
section
/-! DEFINITION. The words of the block: 32-bit registers, 64-bit command words, bytes and levels. -/

namespace Sys2Proof

/-- A register of a bank: 32 bits (00 R8 `REG_WIDTH`). -/
abbrev Word := BitVec 32

/-- A command word (30 R90). -/
abbrev CmdWord := BitVec 64

/-- A byte of a command word, and a digit pattern (43 R160). -/
abbrev Byte := BitVec 8

/-- A level, logical or physical: `false` is Low (0), `true` is High (1) (00 R10). -/
abbrev Level := Bool

end Sys2Proof
end

