-- ==== Sys2Proof/Syntax.lean ====
section
/-! DEFINITION. The fourteen commands, one constructor for each row of spec/opcode_table.json. -/

namespace Sys2Proof

/-- A bank field as the word holds it: two bits, of which 3 names no bank (30 R93, R98). -/
abbrev BankField := BitVec 2

/-- A bit index 0..31; a larger one cannot be encoded (30 R98). -/
abbrev BitIx := BitVec 5

/-- The mode of a line (00 R10): Input is encoded 0, Output 1. -/
inductive Mode where
  | input | output
  deriving DecidableEq, Repr

/-- The bit order of the serializer (00 R10): LSB is encoded 0, MSB 1. -/
inductive BitOrder where
  | lsb | msb
  deriving DecidableEq, Repr

/-- A pin operand as PIN8 encodes it (30 R95). -/
structure PinOp where
  inv : Bool
  bit : BitIx
  bank : BankField
  deriving DecidableEq, Repr

/-- The commands (30 R99). `openBank` and `closeBank` are the table's `open` and `close`. -/
inductive Instr where
  | openBank (bank : BankField)
  | closeBank (bank : BankField)
  | setdir (bank : BankField) (bit : BitIx) (mode : Mode)
  | wrbit (bank : BankField) (bit : BitIx) (level : Level)
  | rdbit (bank : BankField) (bit : BitIx)
  | pmode (pin : PinOp) (mode : Mode)
  | pwrite (pin : PinOp) (level : Level)
  | pread (pin : PinOp)
  | shiftout (data clk : PinOp) (order : BitOrder) (byte : Byte)
  | lnew
  | lenable
  | ldisable
  | lset (a b c d e : Byte)
  | exit
  deriving DecidableEq, Repr

end Sys2Proof
end

