-- ==== Sys2Proof/WellFormed.lean ====
section
/-! DEFINITION. When a command is well formed: every bank field names a bank (10 R21, 30 R98). Every other
operand is legal by its width. -/

namespace Sys2Proof

/-- A bank field that names one of the three banks. -/
def BankField.wf (b : BankField) : Bool := b != 3#2

/-- A pin operand whose bank field names a bank. -/
def PinOp.wf (p : PinOp) : Bool := BankField.wf p.bank

/-- A command all of whose bank fields name banks. -/
def Instr.wf : Instr → Bool
  | .openBank b => BankField.wf b
  | .closeBank b => BankField.wf b
  | .setdir b _ _ => BankField.wf b
  | .wrbit b _ _ => BankField.wf b
  | .rdbit b _ => BankField.wf b
  | .pmode p _ => p.wf
  | .pwrite p _ => p.wf
  | .pread p => p.wf
  | .shiftout dp cp _ _ => dp.wf && cp.wf
  | .lnew => true
  | .lenable => true
  | .ldisable => true
  | .lset _ _ _ _ _ => true
  | .exit => true

end Sys2Proof
end

