-- ==== Sys2Proof/Decode.lean ====
section
/-! DEFINITION. Decoding of command words, total (30 R103), and the encoder written from the same format
tables (30 R92 to R97). -/

namespace Sys2Proof

/-- The listed opcodes (30 R99). -/
inductive Opcode where
  | openBank | closeBank | setdir | wrbit | rdbit | pmode | pwrite | pread | shiftout
  | lnew | lenable | ldisable | lset | exit
  deriving DecidableEq, Repr

namespace Opcode

/-- The opcode map (30 R99). -/
def code : Opcode → Byte
  | .openBank => 0x01
  | .closeBank => 0x02
  | .setdir => 0x03
  | .wrbit => 0x04
  | .rdbit => 0x05
  | .pmode => 0x06
  | .pwrite => 0x07
  | .pread => 0x08
  | .shiftout => 0x09
  | .lnew => 0x10
  | .lenable => 0x11
  | .ldisable => 0x12
  | .lset => 0x13
  | .exit => 0x1F

/-- Every listed opcode. -/
def all : List Opcode :=
  [.openBank, .closeBank, .setdir, .wrbit, .rdbit, .pmode, .pwrite, .pread, .shiftout,
   .lnew, .lenable, .ldisable, .lset, .exit]

/-- The command an opcode byte selects; none for a reserved one (30 R100). -/
def ofByte (b : Byte) : Option Opcode := all.find? (fun op => op.code == b)

/-- `RESERVED_MASK(op)`: the bits of the word that must be 0 (30 R92 to R97, R103). -/
def reservedMask : Opcode → CmdWord
  | .openBank => 0x00FFFFFFFFFFFFFC
  | .closeBank => 0x00FFFFFFFFFFFFFC
  | .setdir => 0x00FFFFFFFFFFFF00
  | .wrbit => 0x00FFFFFFFFFFFF00
  | .rdbit => 0x00FFFFFFFFFFFF80
  | .pmode => 0x00FFFFFFFFFFFE00
  | .pwrite => 0x00FFFFFFFFFFFE00
  | .pread => 0x00FFFFFFFFFFFF00
  | .shiftout => 0x00FFFFFF00FE0000
  | .lnew => 0x00FFFFFFFFFFFFFF
  | .lenable => 0x00FFFFFFFFFFFFFF
  | .ldisable => 0x00FFFFFFFFFFFFFF
  | .lset => 0x00FFFF0000000000
  | .exit => 0x00FFFFFFFFFFFFFF

end Opcode

/-- The mode a 1-bit field names (30 R98). -/
def Mode.ofBit (x : Bool) : Mode := if x then .output else .input

/-- The bit written for a mode: 0 for Input, 1 for Output (30 R98, 10 R23). -/
def Mode.toBit : Mode → Bool
  | .input => false
  | .output => true

/-- The bit order a 1-bit field names (30 R98). -/
def BitOrder.ofBit (x : Bool) : BitOrder := if x then .msb else .lsb

/-- The bit of an order (30 R98). -/
def BitOrder.toBit : BitOrder → Bool
  | .lsb => false
  | .msb => true

/-- PIN8 read from its byte (30 R95): inv [7], bit [6:2], bank [1:0]. -/
def PinOp.ofByte (b : Byte) : PinOp :=
  { inv := b.getLsbD 7, bit := b.extractLsb' 2 5, bank := b.extractLsb' 0 2 }

/-- PIN8 written to its byte (30 R95). -/
def PinOp.toByte (p : PinOp) : Byte := BitVec.ofBool p.inv ++ p.bit ++ p.bank

/-- The byte of a word that starts at bit `lo`. -/
def byteAt (w : CmdWord) (lo : Nat) : Byte := w.extractLsb' lo 8

namespace Opcode

/-- The bank fields of a word with this opcode, lowest bit position first (30 R103). -/
def bankFields (op : Opcode) (w : CmdWord) : List BankField :=
  match op with
  | .openBank | .closeBank | .setdir | .wrbit | .rdbit | .pmode | .pwrite | .pread =>
    [w.extractLsb' 0 2]
  | .shiftout => [w.extractLsb' 0 2, w.extractLsb' 8 2]
  | .lnew | .lenable | .ldisable | .lset | .exit => []

/-- The command with its operands read from the word (30 R92 to R98). -/
def operands (op : Opcode) (w : CmdWord) : Instr :=
  match op with
  | .openBank => .openBank (w.extractLsb' 0 2)
  | .closeBank => .closeBank (w.extractLsb' 0 2)
  | .setdir => .setdir (w.extractLsb' 0 2) (w.extractLsb' 2 5) (Mode.ofBit (w.getLsbD 7))
  | .wrbit => .wrbit (w.extractLsb' 0 2) (w.extractLsb' 2 5) (w.getLsbD 7)
  | .rdbit => .rdbit (w.extractLsb' 0 2) (w.extractLsb' 2 5)
  | .pmode => .pmode (PinOp.ofByte (byteAt w 0)) (Mode.ofBit (w.getLsbD 8))
  | .pwrite => .pwrite (PinOp.ofByte (byteAt w 0)) (w.getLsbD 8)
  | .pread => .pread (PinOp.ofByte (byteAt w 0))
  | .shiftout =>
    .shiftout (PinOp.ofByte (byteAt w 0)) (PinOp.ofByte (byteAt w 8))
      (BitOrder.ofBit (w.getLsbD 16)) (byteAt w 24)
  | .lnew => .lnew
  | .lenable => .lenable
  | .ldisable => .ldisable
  | .lset => .lset (byteAt w 0) (byteAt w 8) (byteAt w 16) (byteAt w 24) (byteAt w 32)
  | .exit => .exit

end Opcode

/-- What decoding a word gives (30 R102): nothing legal, a bank field of 3, or one command. -/
inductive Decoded where
  | illegal
  | badBank
  | cmd (i : Instr)
  deriving DecidableEq, Repr

/-- `Decode(w)` (30 R103), its checks in the order of 60 R203. -/
def decode (w : CmdWord) : Decoded :=
  match Opcode.ofByte (byteAt w 56) with
  | none => .illegal
  | some op =>
    if w &&& op.reservedMask ≠ 0 then .illegal
    else if (op.bankFields w).any (fun f => f == 3#2) then .badBank
    else .cmd (op.operands w)

/-- The word of a command, field by field from bit 63 down (30 R92 to R97). -/
def encode : Instr → CmdWord
  | .openBank b => 0x01#8 ++ 0#54 ++ b
  | .closeBank b => 0x02#8 ++ 0#54 ++ b
  | .setdir b i m => 0x03#8 ++ 0#48 ++ BitVec.ofBool m.toBit ++ i ++ b
  | .wrbit b i x => 0x04#8 ++ 0#48 ++ BitVec.ofBool x ++ i ++ b
  | .rdbit b i => 0x05#8 ++ 0#48 ++ 0#1 ++ i ++ b
  | .pmode p m => 0x06#8 ++ 0#47 ++ BitVec.ofBool m.toBit ++ p.toByte
  | .pwrite p y => 0x07#8 ++ 0#47 ++ BitVec.ofBool y ++ p.toByte
  | .pread p => 0x08#8 ++ 0#47 ++ 0#1 ++ p.toByte
  | .shiftout dp cp o x =>
    0x09#8 ++ 0#24 ++ x ++ 0#7 ++ BitVec.ofBool o.toBit ++ cp.toByte ++ dp.toByte
  | .lnew => 0x10#8 ++ 0#56
  | .lenable => 0x11#8 ++ 0#56
  | .ldisable => 0x12#8 ++ 0#56
  | .lset a b c d e => 0x13#8 ++ 0#16 ++ e ++ d ++ c ++ b ++ a
  | .exit => 0x1F#8 ++ 0#56

/-- The eight bytes of a word as they are stored, the lowest first (30 R104). -/
def toBytes (w : CmdWord) : List Byte :=
  [byteAt w 0, byteAt w 8, byteAt w 16, byteAt w 24, byteAt w 32, byteAt w 40, byteAt w 48, byteAt w 56]

/-- Why a stored command stream is rejected. -/
inductive Reject where
  /-- fewer than eight bytes are left: no whole command word (30 R104) -/
  | truncated
  /-- ILLEGAL_COMMAND (30 R100, R101) -/
  | illegalCommand
  /-- BAD_BANK (30 R98) -/
  | badBank
  deriving DecidableEq, Repr

/-- The first command word of a byte stream, little-endian, and the bytes after it (30 R104). -/
def wordOfBytes : List Byte → Option (CmdWord × List Byte)
  | b0 :: b1 :: b2 :: b3 :: b4 :: b5 :: b6 :: b7 :: rest =>
    some (b7 ++ b6 ++ b5 ++ b4 ++ b3 ++ b2 ++ b1 ++ b0, rest)
  | _ => none

/-- Decoding of a byte stream: the first command and the bytes after it, or a rejection by name. -/
def decodeBytes (bs : List Byte) : Except Reject (Instr × List Byte) :=
  match wordOfBytes bs with
  | none => .error .truncated
  | some (w, rest) =>
    match decode w with
    | .illegal => .error .illegalCommand
    | .badBank => .error .badBank
    | .cmd i => .ok (i, rest)

/-- The command word whose low `nbits` bits are those of `w` and whose bits above are 0. -/
def tableWord (nbits w : Nat) : CmdWord := BitVec.ofNat 64 (w % 2 ^ nbits)

/-- The command the decoder reads from the bytes of that word (the host's question). -/
def decodeTableWord (nbits w : Nat) : Option Instr :=
  match decodeBytes (toBytes (tableWord nbits w)) with
  | .ok (i, _) => some i
  | .error _ => none

end Sys2Proof
end

