-- ==== Sys2Proof/Config.lean ====
section
/-! DEFINITION. The parameters the spec leaves to the platform (00 R8, R9), and the free values. -/

namespace Sys2Proof

/-- A bank index, 0, 1 or 2 (10 R21). -/
inductive BankId where
  | b0 | b1 | b2
  deriving DecidableEq, Repr

/-- One value for each of the three banks. -/
structure PerBank (α : Type) where
  b0 : α
  b1 : α
  b2 : α
  deriving DecidableEq, Repr

namespace PerBank

/-- The same value in every bank. -/
def const {α : Type} (x : α) : PerBank α := ⟨x, x, x⟩

/-- The value of bank `b`. -/
def get {α : Type} (f : PerBank α) : BankId → α
  | .b0 => f.b0
  | .b1 => f.b1
  | .b2 => f.b2

/-- `f` with bank `b`'s value replaced. -/
def set {α : Type} (f : PerBank α) (b : BankId) (x : α) : PerBank α :=
  match b with
  | .b0 => { f with b0 := x }
  | .b1 => { f with b1 := x }
  | .b2 => { f with b2 := x }

end PerBank

/-- A pin: a bank, a bit index 0..31 and an inversion flag (00 R12). -/
structure Pin where
  bank : BankId
  bit : BitVec 5
  inv : Bool
  deriving DecidableEq, Repr

/-- The four wired pins of the driver (10 R35, 20 R69). -/
structure Wiring where
  data : Pin
  clk : Pin
  oe : Pin
  le : Pin
  deriving DecidableEq, Repr

/-- Which event of latch-enable commits the chain (20 R76). -/
inductive LatchMode where
  | risingEdge | fallingEdge | transparent
  deriving DecidableEq, Repr

/-- The eight segments of a digit position (43 R160). -/
inductive Segment where
  | top | bottom | topLeft | topRight | bottomLeft | bottomRight | middle | dot
  deriving DecidableEq, Repr

/-- `SEG_BIT`: the bit position of each segment in a pattern byte (43 R160). -/
structure SegBits where
  top : Fin 8
  bottom : Fin 8
  topLeft : Fin 8
  topRight : Fin 8
  bottomLeft : Fin 8
  bottomRight : Fin 8
  middle : Fin 8
  dot : Fin 8
  deriving DecidableEq, Repr

/-- The parameters of 00 R9. A model takes each as an argument: they stand in State, where no step
changes them, so that a statement about every state is a statement about every value of them (log 1). -/
structure Config where
  /-- `BANK_BASE[b]`, a physical address -/
  bankBase : PerBank Nat
  /-- `PAGE_SIZE`, bytes -/
  pageSize : Nat
  offDir : Nat
  offOut : Nat
  offIn : Nat
  /-- `DIR_DRIVE_VALUE`: the DIR bit that makes a line drive its OUT bit (20 R70) -/
  dirDriveValue : Bool
  /-- `DIR_TWO_PHASE`: setDirection does two read/modify/write cycles (40 R122) -/
  dirTwoPhase : Bool
  wiring : Wiring
  latchMode : LatchMode
  segBit : SegBits
  /-- `DIGITS[0..9]` (43 R162) -/
  digits : Vector Byte 10
  /-- `POS_MAP[k]`: the physical position of byte k of `set` (20 R78) -/
  posMap : Vector (Fin 5) 5
  /-- `COLON_POS` (43 R161) -/
  colonPos : Fin 5
  /-- `EXTERNAL_WRITERS` (20 R64) -/
  externalWriters : Bool
  /-- `SETUP_HOLD_MET` (20 R74) -/
  setupHoldMet : Bool
  deriving DecidableEq, Repr

/-- The outcome the environment draws for one bank setup (40 R120). -/
inductive SetupOutcome where
  | ok | deviceOpenFailed | mapFailed
  deriving DecidableEq, Repr, Inhabited

/-- One replacement of DIR and OUT by another writer (20 R64): for each bank either nothing, or the
values its DIR and OUT hold afterwards. All the banks of one replacement change at once. -/
abbrev EnvWrite := PerBank (Option (Word × Word))

namespace Config

/-- FREE VALUE: the `n`-th draw of a data-in register that no listed draw supplies (20 R54; log 4). -/
opaque freeIn : Nat → Word

/-- FREE VALUE: the `n`-th setup outcome that no listed draw supplies (40 R120; log 5). -/
opaque freeSetup : Nat → SetupOutcome

/-- FREE VALUE: the `n`-th gap's external writes that no listed draw supplies (20 R64; log 6). -/
opaque freeWrites : Nat → List EnvWrite

/-- The wiring of the spec's example configuration EX (95 section 0): DATA 0.2, CLK 0.3, OE 1.5, LE 2.7. -/
def exampleWiring : Wiring :=
  { data := ⟨.b0, 2, false⟩, clk := ⟨.b0, 3, false⟩, oe := ⟨.b1, 5, false⟩, le := ⟨.b2, 7, false⟩ }

/-- The segment map of EX (95 section 0; PRESUMED, 93 G2). -/
def exampleSegBits : SegBits :=
  { top := 0, topRight := 1, bottomRight := 2, bottom := 3, bottomLeft := 4, topLeft := 5,
    middle := 6, dot := 7 }

/-- The digit table of EX (95 section 0; PRESUMED for digits 1 to 9, 93 G1 and G2). -/
def exampleDigits : Vector Byte 10 :=
  #v[0x3F, 0x06, 0x5B, 0x4F, 0x66, 0x6D, 0x7D, 0x07, 0x7F, 0x6F]

/-- The parameters State.reset carries: the spec's defaults (00 R9) where it has one, else the example
configuration EX of 95 section 0, else (addresses, which the spec gives nowhere) a DESIGN CHOICE that
meets 20 R52. No statement rests on them (log 2). -/
def atReset : Config :=
  { bankBase := ⟨0x0000, 0x1000, 0x2000⟩
    pageSize := 0x1000
    offDir := 0
    offOut := 4
    offIn := 8
    dirDriveValue := true
    dirTwoPhase := false
    wiring := exampleWiring
    latchMode := .risingEdge
    segBit := exampleSegBits
    digits := exampleDigits
    posMap := #v[0, 1, 2, 3, 4]
    colonPos := 2
    externalWriters := false
    setupHoldMet := true }

end Config

end Sys2Proof
end

