-- ==== Sys2Proof/Machine/State.lean ====
section
/-! DEFINITION. The state of the block (10 R20), the reasons a step can stop, and the state after reset. -/

namespace Sys2Proof.Machine

/-- Why the machine stops. A fault CODE of the block (60 R201) is none of these: raising one is a next
state, whose phase is Faulted (60 R205). -/
inductive Fault where
  /-- Raised by every step of a block whose phase is Exited: "Only a Running block takes a command"
  (10 R33, 44 R190). Safe: the spec's block takes no step there either. -/
  | blockExited
  /-- Raised by every step of a block whose phase is Faulted: "A Faulted block takes no further step"
  (60 R206). Safe: the spec's block takes no step there either. -/
  | blockFaulted
  /-- Raised by observing `res` before any RDBIT or PREAD has completed (10 R28). Safe: no command
  observes it. -/
  | resultUnread
  deriving DecidableEq, Repr

/-- What the model refuses. -/
inductive Refusal where
  /-- Raised by Dispatch for a command without a meaning; no command is without one. Safe. -/
  | notModelled (mnemonic : String)
  /-- Raised by every command under parameters the spec refuses (10 R35, 20 R52, 43 R160, R162). Safe. -/
  | illegalConfiguration
  /-- Raised by a physical access that is not 32 bits wide, which no command makes (20 R53). Safe. -/
  | accessWidth
  /-- Raised by a physical access to an address that is no register, which no command makes (20 R58). Safe. -/
  | outsideRegisters
  /-- Raised by a physical access to a page that is not mapped, which no command makes (70 R242). Safe. -/
  | pageNotMapped
  /-- Raised by a physical write of a data-in register, which no command makes (20 R55). Safe. -/
  | dataInWrite
  deriving DecidableEq, Repr

/-- The registers of a bank: direction, data-out, data-in (10 R23 to R25). -/
inductive Reg where
  | dir | out | inp
  deriving DecidableEq, Repr

/-- The registers of a bank that are written (20 R55). -/
inductive OutReg where
  | dir | out
  deriving DecidableEq, Repr

/-- A written register among all three. -/
def OutReg.toReg : OutReg → Reg
  | .dir => .dir
  | .out => .out

/-- A cell of the chain or of its latches: 0, 1 or Unknown (10 R31, R32). -/
inductive Cell where
  | known (x : Bool)
  | unknown
  deriving DecidableEq, Repr

/-- 40 cells (00 R8 `CHAIN_LEN`). -/
abbrev Cells := Vector Cell 40

/-- Whether the display driver has been constructed (10 R29). -/
inductive Driver where
  | unconstructed | constructed
  deriving DecidableEq, Repr

/-- The fault codes (60 R201). -/
inductive FaultCode where
  | deviceOpenFailed | mapFailed | illegalCommand | badBank
  | bankNotOpen | bankAlreadyOpen | driverNotConstructed | driverAlreadyConstructed
  deriving DecidableEq, Repr

/-- The fault record (60 R202). -/
structure FaultRecord where
  code : FaultCode
  pc : Nat
  word : CmdWord
  bank : Option BankId
  deriving DecidableEq, Repr

/-- The run status (10 R33). -/
inductive Phase where
  | running
  | exited
  | faulted (r : FaultRecord)
  deriving DecidableEq, Repr

/-- The events of the trace (10 R34). -/
inductive Event where
  | rd (b : BankId) (r : Reg) (v : Word)
  | wr (b : BankId) (r : Reg) (v : Word)
  | acq (b : BankId)
  | rel (b : BankId)
  | ret (x : Level)
  | fault (c : FaultCode)
  | exit
  deriving DecidableEq, Repr

/-- The environment's coming draws (00 R11): a draw takes the head of its list, and where the list is
empty the free value of the counter. -/
structure Env where
  /-- values of reads of IN (20 R54) -/
  inDraws : List Word
  /-- outcomes of bank setups (40 R120) -/
  setupDraws : List SetupOutcome
  /-- for each gap between two events, what other writers do in it (20 R64) -/
  writerDraws : List (List EnvWrite)
  /-- how many draws have been free values -/
  drawCount : Nat
  deriving DecidableEq, Repr

/-- The state of the block: the spec's own (10 R20), and the model's `cfg`, `commands` and `env`. -/
structure State where
  /-- the parameters, changed by no step (00 R9; log 1) -/
  cfg : Config
  /-- the device handle of each bank is open (10 R22) -/
  fd : PerBank Bool
  /-- the register page of each bank is mapped (10 R22) -/
  map : PerBank Bool
  /-- the direction registers (10 R23) -/
  dir : PerBank Word
  /-- the data-out registers (10 R24) -/
  out : PerBank Word
  /-- commands completed since reset (10 R27) -/
  pc : Nat
  /-- the level the last RDBIT or PREAD returned, or the spec's "no value" (10 R28) -/
  res : Option Level
  /-- whether LNEW has constructed the driver (10 R29) -/
  drv : Driver
  /-- the shift-register chain; `SR[0]` is nearest the data line (10 R31) -/
  sr : Cells
  /-- the parallel output latches (10 R32) -/
  latch : Cells
  /-- the run status (10 R33) -/
  phase : Phase
  /-- the events so far, oldest first (10 R34) -/
  trace : List Event
  /-- the host's coming command words (60 R211; log 7) -/
  commands : List CmdWord
  /-- the environment's coming draws (00 R15; log 4, log 5, log 6) -/
  env : Env
  deriving DecidableEq, Repr

/-- 40 Unknown cells. -/
def Cells.unknown : Cells := Vector.replicate 40 .unknown

/-- The state at the start of the process (10 R37, 70 R230), for any parameters, any values an earlier
run or the platform left in DIR and OUT, any host and any environment: a model of the spec's reset
holds for all of them. -/
def State.boot (cfg : Config) (dir out : PerBank Word) (commands : List CmdWord) (env : Env) : State :=
  { cfg := cfg
    fd := .const false
    map := .const false
    dir := dir
    out := out
    pc := 0
    res := none
    drv := .unconstructed
    sr := .unknown
    latch := .unknown
    phase := .running
    trace := []
    commands := commands
    env := env }

/-- The one reset state of the host's interface: DIR and OUT zero (DESIGN CHOICE, log 3), the parameters
of `Config.atReset` (DESIGN CHOICE, log 2), no command waiting, every draw a free value (log 17). -/
def State.reset : State :=
  .boot .atReset (.const 0) (.const 0) [] ⟨[], [], [], 0⟩

end Sys2Proof.Machine
end

