-- ==== Sys2Proof/Machine/Params.lean ====
section
/-! DEFINITION. What the parameters mean: register addresses (20 R51, R52), the segment map and digit table
(43 R160 to R162), and which configurations a model refuses. -/

namespace Sys2Proof.Machine

/-- The offset of a register within its page (20 R52). -/
def offsetOf (c : Config) : Reg → Nat
  | .dir => c.offDir
  | .out => c.offOut
  | .inp => c.offIn

/-- Translation of bank b's window (20 R51): the physical address at offset `o`, none outside the page. -/
def windowAddr (c : Config) (b : BankId) (o : Nat) : Option Nat :=
  if o < c.pageSize then some (c.bankBase.get b + o) else none

/-- `ADDR(b, R)` (20 R52). -/
def addrOf (c : Config) (b : BankId) (r : Reg) : Nat := c.bankBase.get b + offsetOf c r

/-- The banks in ascending order. -/
def banks : List BankId := [.b0, .b1, .b2]

/-- The nine registers. -/
def registers : List (BankId × Reg) :=
  banks.flatMap fun b => [(b, .dir), (b, .out), (b, .inp)]

/-- The register at a physical address, none at every other address (20 R58). -/
def registerAt (c : Config) (a : Nat) : Option (BankId × Reg) :=
  registers.find? fun x => addrOf c x.1 x.2 == a

/-- The pages of two banks do not overlap (20 R52). -/
def pagesApart (c : Config) (b b' : BankId) : Bool :=
  c.bankBase.get b + c.pageSize ≤ c.bankBase.get b' || c.bankBase.get b' + c.pageSize ≤ c.bankBase.get b

/-- The constraints on the address parameters (20 R52). -/
def addressesLegal (c : Config) : Bool :=
  [c.offDir, c.offOut, c.offIn].all (fun o => o % 4 == 0 && o + 4 ≤ c.pageSize) &&
  (c.offDir != c.offOut && c.offDir != c.offIn && c.offOut != c.offIn) &&
  banks.all (fun b => c.bankBase.get b % 4 == 0) &&
  (pagesApart c .b0 .b1 && pagesApart c .b0 .b2 && pagesApart c .b1 .b2)

/-- Two pins that name different (bank, bit) pairs. -/
def pinsApart (p q : Pin) : Bool := p.bank != q.bank || p.bit != q.bit

/-- The four wired pins name four different lines (10 R35). -/
def wiringLegal (w : Wiring) : Bool :=
  pinsApart w.data w.clk && pinsApart w.data w.oe && pinsApart w.data w.le &&
  pinsApart w.clk w.oe && pinsApart w.clk w.le && pinsApart w.oe w.le

/-- `SEG_BIT[s]` (43 R160). -/
def segBitOf (m : SegBits) : Segment → Fin 8
  | .top => m.top
  | .bottom => m.bottom
  | .topLeft => m.topLeft
  | .topRight => m.topRight
  | .bottomLeft => m.bottomLeft
  | .bottomRight => m.bottomRight
  | .middle => m.middle
  | .dot => m.dot

/-- The eight segments. -/
def segments : List Segment :=
  [.top, .bottom, .topLeft, .topRight, .bottomLeft, .bottomRight, .middle, .dot]

/-- The eight segment positions are eight different bits (43 R160). -/
def segBitsLegal (m : SegBits) : Bool := decide (segments.map (segBitOf m)).Nodup

/-- The pattern byte with exactly the bits of the listed segments. -/
def patternOf (m : SegBits) (lit : List Segment) : Byte :=
  lit.foldl (fun acc s => acc ||| (1#8 <<< (segBitOf m s).val)) 0

/-- The segments digit 0 lights (43 R162 (c)). -/
def digitZeroSegments : List Segment := [.top, .topLeft, .topRight, .bottomLeft, .bottomRight, .bottom]

/-- The constraint on the digit table (43 R162): entry 0 has exactly its six segments. Ten entries of eight
bits are in its type. -/
def digitsLegal (c : Config) : Bool := c.digits[0] == patternOf c.segBit digitZeroSegments

/-- The segments of each digit in the default table (43 R162; PRESUMED by the spec for 1 to 9, 93 G1). -/
def defaultDigitSegments : List (List Segment) :=
  [ digitZeroSegments
  , [.topRight, .bottomRight]
  , [.top, .topRight, .middle, .bottomLeft, .bottom]
  , [.top, .topRight, .middle, .bottomRight, .bottom]
  , [.topLeft, .topRight, .middle, .bottomRight]
  , [.top, .topLeft, .middle, .bottomRight, .bottom]
  , [.top, .topLeft, .middle, .bottomLeft, .bottomRight, .bottom]
  , [.top, .topRight, .bottomRight]
  , [.top, .topRight, .bottomRight, .bottom, .bottomLeft, .topLeft, .middle]
  , [.top, .topLeft, .topRight, .middle, .bottomRight, .bottom] ]

/-- A configuration the spec admits; a model refuses every other one (10 R35, 20 R52, 43 R160, R162;
log 9). -/
def configLegal (c : Config) : Bool :=
  addressesLegal c && wiringLegal c.wiring && segBitsLegal c.segBit && digitsLegal c

end Sys2Proof.Machine
end

