-- ==== Sys2Proof/Machine/Lines.lean ====
section
/-! DEFINITION. Pin levels and the external chain (20 R67 to R77). -/

namespace Sys2Proof.Machine

/-- The level of a GPIO line (20 R67). -/
inductive LineLevel where
  | driven (x : Level)
  | undriven
  deriving DecidableEq, Repr

/-- `level(p)` of given register contents (20 R67): it depends on the registers only. -/
def lineLevel (c : Config) (dir out : PerBank Word) (p : Pin) : LineLevel :=
  if (dir.get p.bank).getLsbD p.bit.toNat == c.dirDriveValue then
    .driven ((out.get p.bank).getLsbD p.bit.toNat)
  else .undriven

/-- `level(p)` as the registers stand (20 R67). -/
def level (s : State) (p : Pin) : LineLevel := lineLevel s.cfg s.dir s.out p

/-- The logical level of a driven pin; none when it is undriven (20 R68). -/
def logicalLevel (s : State) (p : Pin) : Option Level :=
  match level s p with
  | .driven x => some (x ^^ p.inv)
  | .undriven => none

/-- The levels of the four driver lines. -/
structure Lines where
  data : LineLevel
  clk : LineLevel
  le : LineLevel
  oe : LineLevel
  deriving DecidableEq, Repr

/-- `lines()` of given register contents (20 R69). -/
def linesOf (c : Config) (dir out : PerBank Word) : Lines :=
  { data := lineLevel c dir out c.wiring.data
    clk := lineLevel c dir out c.wiring.clk
    le := lineLevel c dir out c.wiring.le
    oe := lineLevel c dir out c.wiring.oe }

/-- `lines()` as the registers stand (20 R69). -/
def State.lines (s : State) : Lines := linesOf s.cfg s.dir s.out

/-- `SR` after one shift: `d` enters `SR[0]`, the old `SR[39]` leaves (20 R74). -/
def shiftIn (d : Cell) (sr : Cells) : Cells :=
  ⟨((d :: sr.toList).take 40).toArray, by simp⟩

/-- The bit the chain samples from the data line (20 R74). -/
def sampled (c : Config) (data : LineLevel) : Cell :=
  match data with
  | .driven x => if c.setupHoldMet then .known x else .unknown
  | .undriven => .unknown

/-- `ClockRule` (20 R74, R75): the new `SR`. -/
def clockRule (c : Config) (before after data : LineLevel) (sr : Cells) : Cells :=
  match before, after with
  | .driven false, .driven true => shiftIn (sampled c data) sr
  | .driven _, .driven _ => sr
  | .undriven, _ => .unknown
  | _, .undriven => .unknown

/-- `LatchRule` (20 R76): the new `LATCH`, from the `SR` this write has already shifted. -/
def latchRule (m : LatchMode) (before after : LineLevel) (sr latch : Cells) : Cells :=
  match before, after with
  | .undriven, _ => .unknown
  | _, .undriven => .unknown
  | .driven x, .driven y =>
    match m with
    | .risingEdge => if !x && y then sr else latch
    | .fallingEdge => if x && !y then sr else latch
    | .transparent => if y then sr else latch

/-- How many of DATA, CLK and LE differ between two readings of the lines (20 R73). -/
def changedLines (a b : Lines) : Nat :=
  (if a.data = b.data then 0 else 1) + (if a.clk = b.clk then 0 else 1) + (if a.le = b.le then 0 else 1)

/-- `ChainUpdate(before, after)` (20 R73): the state with the new `SR` and `LATCH`. -/
def chainUpdate (before after : Lines) (s : State) : State :=
  if 2 ≤ changedLines before after then { s with sr := .unknown, latch := .unknown }
  else
    let sr := clockRule s.cfg before.clk after.clk before.data s.sr
    { s with sr := sr, latch := latchRule s.cfg.latchMode before.le after.le sr s.latch }

end Sys2Proof.Machine
end

