-- ==== Sys2Proof/Machine/Ops.lean ====
section
/-! DEFINITION. The named operations: draws, the trace, the volatile accesses (20 R54, R55), the bank
procedures (40 R120 to R124), the pin procedures (41 R140 to R142), and taking a fault (60 R205). -/

namespace Sys2Proof.Machine

/-! ### The environment -/

/-- A draw of IN (20 R54): the next listed value, or a free value. -/
def drawIn (s : State) : Word × State :=
  match s.env.inDraws with
  | v :: rest => (v, { s with env := { s.env with inDraws := rest } })
  | [] => (Config.freeIn s.env.drawCount, { s with env := { s.env with drawCount := s.env.drawCount + 1 } })

/-- A draw of a setup outcome (40 R120): the next listed one, or a free value. -/
def drawSetup (s : State) : SetupOutcome × State :=
  match s.env.setupDraws with
  | v :: rest => (v, { s with env := { s.env with setupDraws := rest } })
  | [] => (Config.freeSetup s.env.drawCount, { s with env := { s.env with drawCount := s.env.drawCount + 1 } })

/-- A draw of what other writers do in one gap (20 R64): the next listed one, or a free value. -/
def drawWrites (s : State) : List EnvWrite × State :=
  match s.env.writerDraws with
  | v :: rest => (v, { s with env := { s.env with writerDraws := rest } })
  | [] => (Config.freeWrites s.env.drawCount, { s with env := { s.env with drawCount := s.env.drawCount + 1 } })

/-- The registers after a replacement, of those an `EnvWrite` says it replaces. -/
def replaced (sel : Word × Word → Word) (old : Word) (w : Option (Word × Word)) : Word :=
  match w with
  | some x => sel x
  | none => old

/-- One replacement by another writer, which "passes through ChainUpdate (rule R73) like a write" (20 R64). -/
def envReplace (s : State) (w : EnvWrite) : State :=
  let s' : State :=
    { s with
      dir := ⟨replaced (·.1) s.dir.b0 w.b0, replaced (·.1) s.dir.b1 w.b1, replaced (·.1) s.dir.b2 w.b2⟩
      out := ⟨replaced (·.2) s.out.b0 w.b0, replaced (·.2) s.out.b1 w.b1, replaced (·.2) s.out.b2 w.b2⟩ }
  chainUpdate s.lines s'.lines s'

/-- The gap before an event. With `EXTERNAL_WRITERS`, "between any two consecutive events of `trace` the
environment may replace `DIR[b]` and `OUT[b]`" (20 R64): so not before the first event (log 6). -/
def gap (s : State) : State :=
  if s.cfg.externalWriters && !s.trace.isEmpty then
    let (ws, s') := drawWrites s
    ws.foldl envReplace s'
  else s

/-! ### The trace and the volatile accesses -/

/-- The trace with one more event. -/
def record (e : Event) (s : State) : State := { s with trace := s.trace ++ [e] }

/-- An event that is no register access, after its gap (10 R34). -/
def emit (e : Event) (s : State) : State := record e (gap s)

/-- `VRead(b, R)` (20 R54). -/
def vRead (b : BankId) (r : Reg) (s : State) : Word × State :=
  let s := gap s
  match r with
  | .dir => (s.dir.get b, record (.rd b .dir (s.dir.get b)) s)
  | .out => (s.out.get b, record (.rd b .out (s.out.get b)) s)
  | .inp =>
    let (v, s) := drawIn s
    (v, record (.rd b .inp v) s)

/-- The register file with one register replaced. -/
def setReg (b : BankId) (r : OutReg) (v : Word) (s : State) : State :=
  match r with
  | .dir => { s with dir := s.dir.set b v }
  | .out => { s with out := s.out.set b v }

/-- `VWrite(b, R, v)` (20 R55): done even when `v` is the value the register holds. -/
def vWrite (b : BankId) (r : OutReg) (v : Word) (s : State) : State :=
  let s := gap s
  let s' := record (.wr b r.toReg v) (setReg b r v s)
  chainUpdate s.lines s'.lines s'

/-! ### Bank procedures -/

/-- `mask(i)`: only bit `i` set (00 R12). -/
def mask (i : BitVec 5) : Word := 1#32 <<< i.toNat

/-- `v` with bit `i` made `x`, by OR with the mask or AND with its complement (40 R122, R123). -/
def withBit (v : Word) (i : BitVec 5) (x : Bool) : Word :=
  if x then v ||| mask i else v &&& ~~~(mask i)

/-- `bankOpen(b)` (10 R22). -/
def bankOpen (s : State) (b : BankId) : Bool := s.fd.get b && s.map.get b

/-- `BankSetDir(b, i, mode)` (40 R122), in one read/modify/write or, with `DIR_TWO_PHASE`, in two. -/
def bankSetDir (b : BankId) (i : BitVec 5) (mode : Mode) (s : State) : State :=
  if s.cfg.dirTwoPhase then
    let (v1, s) := vRead b .dir s
    let s := vWrite b .dir (withBit v1 i false) s
    let (v2, s) := vRead b .dir s
    vWrite b .dir (withBit v2 i mode.toBit) s
  else
    let (v, s) := vRead b .dir s
    let v := v &&& ~~~(mask i)
    vWrite b .dir (match mode with | .output => v ||| mask i | .input => v) s

/-- `BankWriteBit(b, i, x)` (40 R123): one read and one write, always. -/
def bankWriteBit (b : BankId) (i : BitVec 5) (x : Level) (s : State) : State :=
  let (v, s) := vRead b .out s
  vWrite b .out (withBit v i x) s

/-- `BankReadBit(b, i)` (40 R124). -/
def bankReadBit (b : BankId) (i : BitVec 5) (s : State) : Level × State :=
  let (v, s) := vRead b .inp s
  (v.getLsbD i.toNat, s)

/-- `BankRelease(b)` (40 R121). -/
def bankRelease (b : BankId) (s : State) : State :=
  let s : State := if s.map.get b then { s with map := s.map.set b false } else s
  emit (.rel b) { s with fd := s.fd.set b false }

/-- BankRelease of bank `b` if its handle is open. -/
def releaseIfOpen (s : State) (b : BankId) : State := if s.fd.get b then bankRelease b s else s

/-- The teardown of every bank whose handle is open, in ascending order (44 R190, 60 R205). -/
def releaseAll (s : State) : State := banks.foldl releaseIfOpen s

/-! ### Taking a fault, and completing a command -/

/-- `raise Fault(code, info)` by the command whose word is `w` (60 R205): the only trap entry. -/
def raise (w : CmdWord) (code : FaultCode) (info : Option BankId) (s : State) : State :=
  let r : FaultRecord := { code := code, pc := s.pc, word := w, bank := info }
  let s := releaseAll s
  let s := emit (.fault code) { s with drv := .unconstructed }
  { s with phase := .faulted r }

/-- The number of a fault code (60 R201). -/
def faultNumber : FaultCode → Nat
  | .deviceOpenFailed => 1
  | .mapFailed => 2
  | .illegalCommand => 3
  | .badBank => 4
  | .bankNotOpen => 5
  | .bankAlreadyOpen => 6
  | .driverNotConstructed => 7
  | .driverAlreadyConstructed => 8

/-- A new run (60 R206, 70 R230, R231): the process starts again. DIR and OUT keep what the earlier run left,
and the chain is taken as Unknown. No step does it: the host of the process does. -/
def newRun (commands : List CmdWord) (env : Env) (s : State) : State :=
  .boot s.cfg s.dir s.out commands env

/-- `pc <- pc + 1`: the end of a command that completes (10 R27). -/
def complete (s : State) : State := { s with pc := s.pc + 1 }

/-- `BankAcquire(b)` (40 R120), then `next` if the page is mapped; a failed setup raises its fault. -/
def bankAcquire (w : CmdWord) (b : BankId) (s : State) (next : State → State) : State :=
  let (outcome, s) := drawSetup s
  match outcome with
  | .deviceOpenFailed => raise w .deviceOpenFailed (some b) s
  | .mapFailed => raise w .mapFailed (some b) { s with fd := s.fd.set b true }
  | .ok => next (emit (.acq b) { s with fd := s.fd.set b true, map := s.map.set b true })

/-- `next` if bank `b` is open, else BANK_NOT_OPEN (60 R203 check 5). -/
def needOpen (w : CmdWord) (b : BankId) (s : State) (next : State) : State :=
  if bankOpen s b then next else raise w .bankNotOpen (some b) s

/-- `next` if the driver exists, else DRIVER_NOT_CONSTRUCTED (60 R203 check 4). -/
def needDriver (w : CmdWord) (s : State) (next : State) : State :=
  if s.drv = .constructed then next else raise w .driverNotConstructed none s

/-- A command of a block that takes one: the parameters are legal (log 9) and the phase is Running
(10 R33, 30 R108). The outcome is `next` whether the command completes or raises a fault (log 8). -/
def command (s : State) (after : State) : Host.Outcome State Fault Refusal :=
  if configLegal s.cfg then
    match s.phase with
    | .running => .next after
    | .exited => .fault .blockExited
    | .faulted _ => .fault .blockFaulted
  else .refused .illegalConfiguration

/-! ### Pin procedures -/

/-- `PinSetMode(p, mode)` (41 R140): the inversion flag does not apply. -/
def pinSetMode (s : State) (p : Pin) (mode : Mode) : State := bankSetDir p.bank p.bit mode s

/-- `PinWrite(p, y)` (41 R141). -/
def pinWrite (p : Pin) (y : Level) (s : State) : State := bankWriteBit p.bank p.bit (y ^^ p.inv) s

/-- `PinRead(p)` (41 R142). -/
def pinRead (p : Pin) (s : State) : Level × State :=
  let (x, s) := bankReadBit p.bank p.bit s
  (x ^^ p.inv, s)

/-- Pin writes one after another, each complete before the next (00 R11). -/
def pinWrites (ws : List (Pin × Level)) (s : State) : State :=
  ws.foldl (fun s w => pinWrite w.1 w.2 s) s

end Sys2Proof.Machine
end

