-- ==== Sys2Proof/Machine/Operands.lean ====
section
/-! DEFINITION. The operand forms: a bank field and a PIN8, each of which may name bank 3 (30 R98). -/

namespace Sys2Proof.Machine

/-- The bank a field names; none for 3 (10 R21, 30 R98). -/
def bankOfField (f : BankField) : Option BankId :=
  if f = 0#2 then some .b0 else if f = 1#2 then some .b1 else if f = 2#2 then some .b2 else none

/-- The field that names a bank. -/
def fieldOfBank : BankId → BankField
  | .b0 => 0
  | .b1 => 1
  | .b2 => 2

/-- The pin a PIN8 names; none when its bank field is 3 (30 R95). -/
def pinOfOp (p : PinOp) : Option Pin :=
  (bankOfField p.bank).map fun b => { bank := b, bit := p.bit, inv := p.inv }

/-- The PIN8 that names a pin. -/
def opOfPin (p : Pin) : PinOp := { inv := p.inv, bit := p.bit, bank := fieldOfBank p.bank }

/-- `next` of the bank a field names, else BAD_BANK (60 R203 check 3). -/
def withBank (w : CmdWord) (f : BankField) (s : State) (next : BankId → State) : State :=
  match bankOfField f with
  | some b => next b
  | none => raise w .badBank none s

/-- `next` of the pin an operand names, else BAD_BANK (60 R203 check 3). -/
def withPin (w : CmdWord) (p : PinOp) (s : State) (next : Pin → State) : State :=
  match pinOfOp p with
  | some q => next q
  | none => raise w .badBank none s

end Sys2Proof.Machine
end

