-- ==== Sys2Proof/Machine/Shift.lean ====
section
/-! DEFINITION. The shift serializer (42 R150, R151). -/

namespace Sys2Proof.Machine

/-- The bit of the byte that iteration `i` sends (42 R150, R152). -/
def sentBit (order : BitOrder) (x : Byte) (i : Nat) : Bool :=
  match order with
  | .lsb => x.getLsbD i
  | .msb => x.getLsbD (7 - i)

/-- The eight bits in sending order. -/
def sentBits (order : BitOrder) (x : Byte) : List Bool := (List.range 8).map (sentBit order x)

/-- One iteration of ShiftOut: data first, then the clock High, then the clock Low (42 R150). -/
def shiftBitWrites (dp cp : Pin) (bit : Bool) : List (Pin × Level) := [(dp, bit), (cp, true), (cp, false)]

/-- `ShiftOut(dp, cp, order, byte)` as its 24 pin writes (42 R150). -/
def shiftOutWrites (dp cp : Pin) (order : BitOrder) (x : Byte) : List (Pin × Level) :=
  (sentBits order x).flatMap (shiftBitWrites dp cp)

/-- `ShiftOut(dp, cp, order, byte)` (42 R150). -/
def shiftOut (dp cp : Pin) (order : BitOrder) (x : Byte) (s : State) : State :=
  pinWrites (shiftOutWrites dp cp order x) s

/-- SHIFTOUT (42 R151): the data pin's bank is checked before the clock pin's. -/
def execShiftout (dp cp : PinOp) (order : BitOrder) (x : Byte) (s : State) :
    Host.Outcome State Fault Refusal :=
  let w := encode (.shiftout dp cp order x)
  command s <| withPin w dp s fun d => withPin w cp s fun c =>
    needOpen w d.bank s <| needOpen w c.bank s <| complete (shiftOut d c order x s)

end Sys2Proof.Machine
end

