-- ==== Sys2Proof/Machine/Display.lean ====
section
/-! DEFINITION. The display driver's commands (43 R163 to R166). -/

namespace Sys2Proof.Machine

/-- `DriveOE(x)`: leaves OE at physical level `x`, whatever its inversion flag (43 R163; 90 C7). -/
def driveOE (x : Level) (s : State) : State :=
  let oe := s.cfg.wiring.oe
  pinWrite oe (x ^^ oe.inv) s

/-- The four pins in the order LNEW sets them to Output (43 R163). -/
def driverPins (w : Wiring) : List Pin := [w.data, w.clk, w.oe, w.le]

/-- PinSetMode of each listed pin to Output, in order. -/
def setOutputs (ps : List Pin) (s : State) : State := ps.foldl (fun s p => pinSetMode s p .output) s

/-- What LNEW does once its banks are acquired (43 R163). -/
def constructDriver (s : State) : State :=
  let s := setOutputs (driverPins s.cfg.wiring) { s with drv := .constructed }
  complete (driveOE true s)

/-- The lowest bank whose handle is open, which LNEW's check names (43 R163, 60 R203). -/
def firstOpenHandle (s : State) : Option BankId := banks.find? (fun b => s.fd.get b)

/-- LNEW (43 R163): every bank is checked before any is acquired. -/
def execLnew (s : State) : Host.Outcome State Fault Refusal :=
  let w := encode .lnew
  command s <|
    if s.drv = .constructed then raise w .driverAlreadyConstructed none s
    else
      match firstOpenHandle s with
      | some b => raise w .bankAlreadyOpen (some b) s
      | none =>
        bankAcquire w .b0 s fun s => bankAcquire w .b1 s fun s => bankAcquire w .b2 s constructDriver

/-- LENABLE (43 R164): OE physically Low. -/
def execLenable (s : State) : Host.Outcome State Fault Refusal :=
  let w := encode .lenable
  command s <| needDriver w s <| needOpen w s.cfg.wiring.oe.bank s <| complete (driveOE false s)

/-- LDISABLE (43 R165): OE physically High. -/
def execLdisable (s : State) : Host.Outcome State Fault Refusal :=
  let w := encode .ldisable
  command s <| needDriver w s <| needOpen w s.cfg.wiring.oe.bank s <| complete (driveOE true s)

/-- Step 1 and 2 of LSET: LE, DATA, CLK Low, then the wiring artifact DATA High (43 R166). -/
def lsetBaseline (w : Wiring) : List (Pin × Level) :=
  [(w.le, false), (w.data, false), (w.clk, false), (w.data, true)]

/-- Step 3 of LSET: the bytes in order, each LSB-first (43 R166). -/
def lsetShift (w : Wiring) (bytes : List Byte) : List (Pin × Level) :=
  bytes.flatMap (shiftOutWrites w.data w.clk .lsb)

/-- Step 4 and 5 of LSET: clock Low, then the latch pulse (43 R166). -/
def lsetCommit (w : Wiring) : List (Pin × Level) := [(w.clk, false), (w.le, true), (w.le, false)]

/-- The 127 pin writes of LSET, in order (43 R166). -/
def lsetWrites (w : Wiring) (bytes : List Byte) : List (Pin × Level) :=
  lsetBaseline w ++ lsetShift w bytes ++ lsetCommit w

/-- LSET (43 R166): the banks of DATA, CLK and LE are checked in that order. -/
def execLset (a b c d e : Byte) (s : State) : Host.Outcome State Fault Refusal :=
  let w := encode (.lset a b c d e)
  let pins := s.cfg.wiring
  command s <| needDriver w s <|
    needOpen w pins.data.bank s <| needOpen w pins.clk.bank s <| needOpen w pins.le.bank s <|
      complete (pinWrites (lsetWrites pins [a, b, c, d, e]) s)

end Sys2Proof.Machine
end

