-- ==== Sys2Proof/Machine/Flags.lean ====
section
/-! DEFINITION. "The block has no flags and no condition codes" (10 R28). What a read leaves behind is `res`. -/

namespace Sys2Proof.Machine

/-- `res <- level` and `emit Ret(level)` (40 R129, 41 R145). -/
def returnLevel (x : Level) (s : State) : State := emit (.ret x) { s with res := some x }

/-- Observing `res`: "A model that reads `res` before any RDBIT or PREAD has completed must fault, not
return 0" (10 R28; log 13). -/
def observeRes (s : State) : Host.Outcome Level Fault Refusal :=
  match s.res with
  | some x => .next x
  | none => .fault .resultUnread

end Sys2Proof.Machine
end

