-- ==== Sys2Proof/Machine/PinCommands.lean ====
section
/-! DEFINITION. The Pin commands (41 R143 to R145). -/

namespace Sys2Proof.Machine

/-- PMODE (41 R143). -/
def execPmode (p : PinOp) (mode : Mode) (s : State) : Host.Outcome State Fault Refusal :=
  let w := encode (.pmode p mode)
  command s <| withPin w p s fun q => needOpen w q.bank s <| complete (pinSetMode s q mode)

/-- PWRITE (41 R144): the level is logical. -/
def execPwrite (p : PinOp) (y : Level) (s : State) : Host.Outcome State Fault Refusal :=
  let w := encode (.pwrite p y)
  command s <| withPin w p s fun q => needOpen w q.bank s <| complete (pinWrite q y s)

/-- PREAD (41 R145). -/
def execPread (p : PinOp) (s : State) : Host.Outcome State Fault Refusal :=
  let w := encode (.pread p)
  command s <| withPin w p s fun q => needOpen w q.bank s <|
    let (x, s) := pinRead q s
    complete (returnLevel x s)

end Sys2Proof.Machine
end

