-- ==== Sys2Proof/Machine/RegisterBank.lean ====
section
/-! DEFINITION. The RegisterBank commands (40 R125 to R129). -/

namespace Sys2Proof.Machine

/-- OPEN (40 R125). -/
def execOpen (f : BankField) (s : State) : Host.Outcome State Fault Refusal :=
  let w := encode (.openBank f)
  command s <| withBank w f s fun b =>
    if s.fd.get b then raise w .bankAlreadyOpen (some b) s else bankAcquire w b s complete

/-- CLOSE (40 R126). -/
def execClose (f : BankField) (s : State) : Host.Outcome State Fault Refusal :=
  let w := encode (.closeBank f)
  command s <| withBank w f s fun b => needOpen w b s <| complete (bankRelease b s)

/-- SETDIR (40 R127). -/
def execSetdir (f : BankField) (i : BitIx) (mode : Mode) (s : State) : Host.Outcome State Fault Refusal :=
  let w := encode (.setdir f i mode)
  command s <| withBank w f s fun b => needOpen w b s <| complete (bankSetDir b i mode s)

/-- WRBIT (40 R128): the level is raw. -/
def execWrbit (f : BankField) (i : BitIx) (x : Level) (s : State) : Host.Outcome State Fault Refusal :=
  let w := encode (.wrbit f i x)
  command s <| withBank w f s fun b => needOpen w b s <| complete (bankWriteBit b i x s)

/-- RDBIT (40 R129). -/
def execRdbit (f : BankField) (i : BitIx) (s : State) : Host.Outcome State Fault Refusal :=
  let w := encode (.rdbit f i)
  command s <| withBank w f s fun b => needOpen w b s <|
    let (x, s) := bankReadBit b i s
    complete (returnLevel x s)

end Sys2Proof.Machine
end

