-- ==== Sys2Proof/Machine/System.lean ====
section
/-! DEFINITION. EXIT (44 R190). -/

namespace Sys2Proof.Machine

/-- EXIT (44 R190): no state check can fail. -/
def execExit (s : State) : Host.Outcome State Fault Refusal :=
  command s <|
    let s := releaseAll s
    let s := emit .exit { s with drv := .unconstructed }
    complete { s with phase := .exited }

end Sys2Proof.Machine
end

