-- ==== Sys2Proof/Machine/Dispatch.lean ====
section
/-! DEFINITION. One arm for each command. -/

namespace Sys2Proof.Machine

def exec (i : Instr) (s : State) : Host.Outcome State Fault Refusal :=
  match i with
  | .openBank b => Sys2Proof.Machine.execOpen b s
  | .closeBank b => Sys2Proof.Machine.execClose b s
  | .setdir b k m => Sys2Proof.Machine.execSetdir b k m s
  | .wrbit b k x => Sys2Proof.Machine.execWrbit b k x s
  | .rdbit b k => Sys2Proof.Machine.execRdbit b k s
  | .pmode p m => Sys2Proof.Machine.execPmode p m s
  | .pwrite p y => Sys2Proof.Machine.execPwrite p y s
  | .pread p => Sys2Proof.Machine.execPread p s
  | .shiftout dp cp o x => Sys2Proof.Machine.execShiftout dp cp o x s
  | .lnew => Sys2Proof.Machine.execLnew s
  | .lenable => Sys2Proof.Machine.execLenable s
  | .ldisable => Sys2Proof.Machine.execLdisable s
  | .lset a b c d e => Sys2Proof.Machine.execLset a b c d e s
  | .exit => Sys2Proof.Machine.execExit s

end Sys2Proof.Machine
end

