-- ==== Sys2Proof/Machine/Fetch.lean ====
section
/-! DEFINITION. Taking the next command word from the host (30 R108, 60 R211), and the two rejected decodings. -/

namespace Sys2Proof.Machine

/-- The next command word and the state without it; none when the host has sent none (70 R232). -/
def takeWord (s : State) : Option (CmdWord × State) :=
  match s.commands with
  | [] => none
  | w :: rest => some (w, { s with commands := rest })

/-- The state with a word placed where `takeWord` reads it next. -/
def placeWord (w : CmdWord) (s : State) : State := { s with commands := w :: s.commands }

/-- A word that is no legal command raises ILLEGAL_COMMAND (30 R108). -/
def rejectIllegal (w : CmdWord) (s : State) : Host.Outcome State Fault Refusal :=
  command s <| raise w .illegalCommand none s

/-- A word with a bank field of 3 raises BAD_BANK (30 R108). -/
def rejectBadBank (w : CmdWord) (s : State) : Host.Outcome State Fault Refusal :=
  command s <| raise w .badBank none s

/-- A block the host sends nothing waits: the same state (70 R232; log 7). -/
def waitForHost (s : State) : Host.Outcome State Fault Refusal := command s s

end Sys2Proof.Machine
end

