-- ==== Sys2Proof/Machine/Step.lean ====
section
/-! DEFINITION. One step of the block (30 R108). -/

namespace Sys2Proof.Machine

/-- `Step(w)` on the word the host sends next (30 R108); a block that takes no step keeps the word. -/
def step (s : State) : Host.Outcome State Fault Refusal :=
  match takeWord s with
  | none => waitForHost s
  | some (w, s') =>
    match decode w with
    | .illegal => rejectIllegal w s'
    | .badBank => rejectBadBank w s'
    | .cmd i => exec i s'

/-- The state whose next step fetches and runs the command word whose low `nbits` bits are `w`'s. -/
def State.withFetchWord (s : State) (nbits w : Nat) : State := placeWord (tableWord nbits w) s

end Sys2Proof.Machine
end

