-- ==== Sys2Proof/Machine/Assembler.lean ====
section
/-! DEFINITION. The assembler syntax (30 R105) and the pseudo-instruction `pulse` (30 R106). No step uses it:
it says which command words a line of a test program stands for (log 21). -/

namespace Sys2Proof.Machine

/-- `pulse pin` expands to `pwrite pin, high` then `pwrite pin, low` (30 R106). -/
def pulse (p : PinOp) : List Instr := [.pwrite p true, .pwrite p false]

/-- A blank: a space or a tab. -/
def isBlank (ch : Char) : Bool := ch == ' ' || ch == '\t'

/-- The text without the blanks at its two ends. -/
def trim (cs : List Char) : List Char :=
  ((cs.dropWhile isBlank).reverse.dropWhile isBlank).reverse

/-- The parts of a text between the characters `sep`. -/
def splitAtChar (sep : Char) : List Char → List (List Char)
  | [] => [[]]
  | ch :: cs =>
    match splitAtChar sep cs with
    | [] => [[ch]]
    | part :: parts => if ch = sep then [] :: part :: parts else (ch :: part) :: parts

/-- The value of a digit, decimal or hexadecimal. -/
def digitValue (ch : Char) : Option Nat :=
  if '0' ≤ ch ∧ ch ≤ '9' then some (ch.toNat - '0'.toNat)
  else if 'A' ≤ ch ∧ ch ≤ 'F' then some (ch.toNat - 'A'.toNat + 10)
  else if 'a' ≤ ch ∧ ch ≤ 'f' then some (ch.toNat - 'a'.toNat + 10)
  else none

/-- A number in a base; none without digits or with a digit outside the base. -/
def numberIn (base : Nat) (cs : List Char) : Option Nat :=
  if cs.isEmpty then none
  else cs.foldl (fun acc ch => acc.bind fun n => (digitValue ch).bind fun d =>
    if d < base then some (n * base + d) else none) (some 0)

/-- A decimal number below `bound`. -/
def decimalBelow (bound : Nat) (cs : List Char) : Option Nat :=
  (numberIn 10 cs).bind fun n => if n < bound then some n else none

/-- The operand `bank`: 0, 1 or 2. -/
def parseBank (cs : List Char) : Option BankField := (decimalBelow 3 cs).map (BitVec.ofNat 2)

/-- The operand `bit`: decimal 0 to 31. -/
def parseBit (cs : List Char) : Option BitIx := (decimalBelow 32 cs).map (BitVec.ofNat 5)

/-- The operand `mode`: `in` or `out`. -/
def parseMode (cs : List Char) : Option Mode :=
  if cs = "in".toList then some .input else if cs = "out".toList then some .output else none

/-- The operand `level`: `low` or `high`. -/
def parseLevel (cs : List Char) : Option Level :=
  if cs = "low".toList then some false else if cs = "high".toList then some true else none

/-- The operand `order`: `lsb` or `msb`. -/
def parseOrder (cs : List Char) : Option BitOrder :=
  if cs = "lsb".toList then some .lsb else if cs = "msb".toList then some .msb else none

/-- `digit(n)` for n in 0..9, resolved from the parameter `DIGITS`. -/
def parseDigit (c : Config) (cs : List Char) : Option Byte :=
  if cs.take 6 = "digit(".toList ∧ cs.getLast? = some ')' then
    (decimalBelow 10 (trim ((cs.drop 6).dropLast))).map fun n => c.digits.toList.getD n 0
  else none

/-- The operand `byte`: decimal 0 to 255, hexadecimal `0x00` to `0xFF`, binary `0b...`, or `digit(n)`. -/
def parseByte (c : Config) (cs : List Char) : Option Byte :=
  match parseDigit c cs with
  | some x => some x
  | none =>
    let value :=
      match cs with
      | '0' :: 'x' :: rest => numberIn 16 rest
      | '0' :: 'b' :: rest => numberIn 2 rest
      | _ => numberIn 10 cs
    value.bind fun n => if n < 256 then some (BitVec.ofNat 8 n) else none

/-- The operand `pin`: `b.i`, or `~b.i` when inverted. -/
def parsePin (cs : List Char) : Option PinOp :=
  let (inv, body) :=
    match cs with
    | '~' :: rest => (true, rest)
    | _ => (false, cs)
  match splitAtChar '.' body with
  | [b, i] => (parseBank b).bind fun bank => (parseBit i).map fun bit => { inv := inv, bit := bit, bank := bank }
  | _ => none

/-- The command or commands of a mnemonic with its operands, none where no form of 30 R105 fits. -/
def parseForm (c : Config) (mnemonic : List Char) (ops : List (List Char)) : Option (List Instr) :=
  if mnemonic = "open".toList then
    match ops with
    | [b] => (parseBank b).map fun b => [.openBank b]
    | _ => none
  else if mnemonic = "close".toList then
    match ops with
    | [b] => (parseBank b).map fun b => [.closeBank b]
    | _ => none
  else if mnemonic = "setdir".toList then
    match ops with
    | [b, i, m] => (parseBank b).bind fun b => (parseBit i).bind fun i =>
        (parseMode m).map fun m => [.setdir b i m]
    | _ => none
  else if mnemonic = "wrbit".toList then
    match ops with
    | [b, i, x] => (parseBank b).bind fun b => (parseBit i).bind fun i =>
        (parseLevel x).map fun x => [.wrbit b i x]
    | _ => none
  else if mnemonic = "rdbit".toList then
    match ops with
    | [b, i] => (parseBank b).bind fun b => (parseBit i).map fun i => [.rdbit b i]
    | _ => none
  else if mnemonic = "pmode".toList then
    match ops with
    | [p, m] => (parsePin p).bind fun p => (parseMode m).map fun m => [.pmode p m]
    | _ => none
  else if mnemonic = "pwrite".toList then
    match ops with
    | [p, x] => (parsePin p).bind fun p => (parseLevel x).map fun x => [.pwrite p x]
    | _ => none
  else if mnemonic = "pread".toList then
    match ops with
    | [p] => (parsePin p).map fun p => [.pread p]
    | _ => none
  else if mnemonic = "shiftout".toList then
    match ops with
    | [dp, cp, o, x] => (parsePin dp).bind fun dp => (parsePin cp).bind fun cp =>
        (parseOrder o).bind fun o => (parseByte c x).map fun x => [.shiftout dp cp o x]
    | _ => none
  else if mnemonic = "lset".toList then
    match ops with
    | [a, b, d, e, f] => (parseByte c a).bind fun a => (parseByte c b).bind fun b =>
        (parseByte c d).bind fun d => (parseByte c e).bind fun e => (parseByte c f).map fun f =>
          [.lset a b d e f]
    | _ => none
  else if mnemonic = "pulse".toList then
    match ops with
    | [p] => (parsePin p).map pulse
    | _ => none
  else if ops ≠ [] then none
  else if mnemonic = "lnew".toList then some [.lnew]
  else if mnemonic = "lenable".toList then some [.lenable]
  else if mnemonic = "ldisable".toList then some [.ldisable]
  else if mnemonic = "exit".toList then some [.exit]
  else none

/-- The commands of one line; a line that is empty but for its comment has none (30 R105). -/
def assembleLine (c : Config) (line : String) : Option (List Instr) :=
  let text := trim (line.toList.takeWhile (· ≠ ';'))
  if text.isEmpty then some []
  else
    let mnemonic := text.takeWhile fun ch => !isBlank ch
    let rest := trim (text.dropWhile fun ch => !isBlank ch)
    let ops := if rest.isEmpty then [] else (splitAtChar ',' rest).map trim
    parseForm c mnemonic ops

/-- The command words of a program's lines; none when some line fits no form (30 R104, R105). -/
def assemble (c : Config) : List String → Option (List CmdWord)
  | [] => some []
  | line :: lines =>
    (assembleLine c line).bind fun is => (assemble c lines).map fun ws => is.map encode ++ ws

end Sys2Proof.Machine
end

