-- ==== Sys2Proof/Machine/Bus.lean ====
section
/-! DEFINITION. The registers as physical addresses reach them (20 R50 to R60): `MemRead` and `MemWrite`. The
commands name registers by (bank, register), and reach no other address (20 R58; log 12). -/

namespace Sys2Proof.Machine

/-- The register a physical access of `width` bytes at `a` reaches, or the refusal of the access. -/
def resolve (s : State) (a width : Nat) : Except Refusal (BankId × Reg) :=
  if width ≠ 4 then .error .accessWidth
  else
    match registerAt s.cfg a with
    | none => .error .outsideRegisters
    | some (b, r) => if bankOpen s b then .ok (b, r) else .error .pageNotMapped

/-- `MemRead(a, width)` (20 R53, R54). -/
def memRead (a width : Nat) (s : State) : Host.Outcome (Word × State) Fault Refusal :=
  match resolve s a width with
  | .error e => .refused e
  | .ok (b, r) => .next (vRead b r s)

/-- `MemWrite(a, width, v)` (20 R53, R55): "No rule writes IN". -/
def memWrite (a width : Nat) (v : Word) (s : State) : Host.Outcome State Fault Refusal :=
  match resolve s a width with
  | .error e => .refused e
  | .ok (b, .dir) => .next (vWrite b .dir v s)
  | .ok (b, .out) => .next (vWrite b .out v s)
  | .ok (_, .inp) => .refused .dataInWrite

end Sys2Proof.Machine
end

