-- ==== Sys2Proof/Machine/View.lean ====
section
/-! DEFINITION. What is observed of the block: the driver's state (43 R167), the displayed bytes and segments
(20 R78, R79, 43 R161), and readings of the trace. Nothing here is state. -/

namespace Sys2Proof.Machine

/-- The driver's observable state; `undetermined` is neither (43 R167). -/
inductive DisplayState where
  | enabled | disabled | undetermined
  deriving DecidableEq, Repr

/-- The driver's observable state, a function of the OE line (10 R30, 43 R167). -/
def displayState (s : State) : DisplayState :=
  match level s s.cfg.wiring.oe with
  | .driven false => .enabled
  | .driven true => .disabled
  | .undriven => .undetermined

/-- A cell with its bit inverted when `x`; Unknown stays Unknown (20 R78). -/
def Cell.flip (c : Cell) (x : Bool) : Cell :=
  match c with
  | .known y => .known (y ^^ x)
  | .unknown => .unknown

/-- The cell at an index of the chain; Unknown outside it, which no rule reads. -/
def cellAt (cs : Cells) (j : Nat) : Cell := cs.toList.getD j .unknown

/-- `DispByte[k][j]` (20 R78). -/
def dispBit (s : State) (k : Fin 5) (j : Fin 8) : Cell :=
  (cellAt s.latch (39 - 8 * k.val - j.val)).flip s.cfg.wiring.data.inv

/-- `DispByte[k]`, bit 0 first (20 R78). -/
def dispByte (s : State) (k : Fin 5) : List Cell := List.ofFn (dispBit s k)

/-- The cells of a byte all of whose bits are known, bit 0 first. -/
def cellsOfByte (x : Byte) : List Cell := List.ofFn fun j : Fin 8 => .known (x.getLsbD j.val)

/-- What a lamp of the display does; `any` where the rules leave it open (20 R79). -/
inductive Glow where
  | lit | dark | any
  deriving DecidableEq, Repr

/-- A lamp driven by a cell while the display is Enabled (20 R79). -/
def glowOf : Cell → Glow
  | .known true => .lit
  | .known false => .dark
  | .unknown => .any

/-- Byte k of `set` is shown at the colon position (43 R161). -/
def atColon (c : Config) (k : Fin 5) : Bool := c.posMap[k] == c.colonPos

/-- Whether a segment's bit is one of the colon's two: COLON_TOP at `SEG_BIT[TOP]`, COLON_BOTTOM at
`SEG_BIT[TOP_RIGHT]` (43 R161). -/
def colonBit : Segment → Bool
  | .top => true
  | .topRight => true
  | _ => false

/-- What segment `x` at position `POS_MAP[k]` does (20 R79). At the colon position TOP stands for the upper
dot and TOP_RIGHT for the lower, and the effect of the other six bits is any (43 R161; log 14). -/
def glow (s : State) (k : Fin 5) (x : Segment) : Glow :=
  match displayState s with
  | .disabled => .dark
  | .undetermined => .any
  | .enabled =>
    if atColon s.cfg k && !colonBit x then .any
    else glowOf (dispBit s k (segBitOf s.cfg.segBit x))

/-- The bytes of `set` shown at a physical position (20 R78). -/
def bytesAt (c : Config) (pos : Fin 5) : List (Fin 5) :=
  (List.finRange 5).filter fun k => c.posMap[k] == pos

/-! ### Readings of the trace -/

/-- The registers after a write event. -/
def applyEvent (regs : PerBank Word × PerBank Word) : Event → PerBank Word × PerBank Word
  | .wr b .dir v => (regs.1.set b v, regs.2)
  | .wr b .out v => (regs.1, regs.2.set b v)
  | _ => regs

/-- A read event that does not return what its register holds (20 R61). A read of IN is a draw. -/
def staleRead (regs : PerBank Word × PerBank Word) : Event → Bool
  | .rd b .dir v => regs.1.get b != v
  | .rd b .out v => regs.2.get b != v
  | _ => false

/-- The registers DIR and OUT after a list of events, when every read of them returns the value of the
latest write before it (20 R61); none when some read does not. -/
def replay (regs : PerBank Word × PerBank Word) : List Event → Option (PerBank Word × PerBank Word)
  | [] => some regs
  | e :: es => if staleRead regs e then none else replay (applyEvent regs e) es

/-- The levels of the data line immediately before each rising edge of the clock line, in order: what an
analyzer on the two lines sees while the events happen (43 R170). -/
def clockedLevels (c : Config) (regs : PerBank Word × PerBank Word) : List Event → List LineLevel
  | [] => []
  | e :: es =>
    let regs' := applyEvent regs e
    let rest := clockedLevels c regs' es
    if lineLevel c regs.1 regs.2 c.wiring.clk = .driven false ∧
        lineLevel c regs'.1 regs'.2 c.wiring.clk = .driven true then
      lineLevel c regs.1 regs.2 c.wiring.data :: rest
    else rest

/-- Whether the page of bank `b` is held after a list of events: the latest Acq or Rel of it was an Acq. -/
def pageHeld (b : BankId) (tr : List Event) : Bool :=
  tr.foldl (fun h e => if e = .acq b then true else if e = .rel b then false else h) false

/-- The level of the latest Ret event. -/
def lastRet (tr : List Event) : Option Level :=
  tr.foldl (fun r e => match e with | .ret x => some x | _ => r) none

/-- An event that ends a run. -/
def endsRun : Event → Bool
  | .fault _ => true
  | .exit => true
  | _ => false

/-- An event that is a register access. -/
def isAccess : Event → Bool
  | .rd _ _ _ => true
  | .wr _ _ _ => true
  | _ => false

end Sys2Proof.Machine
end

