-- ==== Sys2Proof/Safety.lean ====
section
/-! DEFINITION. What counts as a safe run, and the invariant of the block. -/

namespace Sys2Proof.Machine

/-- A block that takes commands: its parameters are legal and it is Running (30 R108, 10 R33). -/
structure State.Ready (s : State) : Prop where
  legal : configLegal s.cfg = true
  running : s.phase = .running

/-- A run that has ended: "A run ends when `phase` becomes Exited (rule R190) or Faulted" (44 R191). -/
def State.Ended (s : State) : Prop := s.phase ≠ .running

/-- "Exited is the only successful end" (44 R191). -/
def State.Successful (s : State) : Prop := s.phase = .exited

/-- No other agent writes DIR or OUT (20 R64, the default). -/
def State.SoleWriter (s : State) : Prop := s.cfg.externalWriters = false

/-- Pin `p`'s DIR bit drives its line (20 R70). -/
def State.Drives (s : State) (p : Pin) : Prop :=
  (s.dir.get p.bank).getLsbD p.bit.toNat = s.cfg.dirDriveValue

/-- DATA, CLK and LE are driven (43 R168's premise). -/
structure State.ChainDriven (s : State) : Prop where
  data : s.Drives s.cfg.wiring.data
  clk : s.Drives s.cfg.wiring.clk
  le : s.Drives s.cfg.wiring.le

/-- The chain is at rest: a write that changes no line changes no cell. -/
def State.ChainAtRest (s : State) : Prop := chainUpdate s.lines s.lines s = s

/-- What no register access touches: parameters, handles, driver, phase and the host's words. -/
structure State.KeepsControl (s t : State) : Prop where
  cfg : t.cfg = s.cfg
  fd : t.fd = s.fd
  map : t.map = s.map
  drv : t.drv = s.drv
  phase : t.phase = s.phase
  commands : t.commands = s.commands

/-- The register file and the chain. -/
structure State.KeepsRegisters (s t : State) : Prop where
  dir : t.dir = s.dir
  out : t.out = s.out
  sr : t.sr = s.sr
  latch : t.latch = s.latch

/-- DIR bit `j` of bank `b`. -/
def State.dirBit (s : State) (b : BankId) (j : Nat) : Bool := (s.dir.get b).getLsbD j

/-- OUT bit `j` of bank `b`. -/
def State.outBit (s : State) (b : BankId) (j : Nat) : Bool := (s.out.get b).getLsbD j

/-- Line `j` of bank `b` is the one pin `p` names. -/
def IsLine (p : Pin) (b : BankId) (j : Nat) : Prop := p.bank = b ∧ p.bit.toNat = j

/-- The invariant of the block between two steps. -/
structure State.Inv (s : State) : Prop where
  /-- "Invariant: `map[b]` implies `fd[b]`" (10 R22) -/
  mapped_open : ∀ b, s.map.get b = true → s.fd.get b = true
  /-- between two commands no handle is open without its page (40 R120, 60 R205) -/
  open_mapped : ∀ b, s.fd.get b = true → s.map.get b = true
  /-- an ended run holds no bank (70 R244) and no driver (10 R29) -/
  ended_released : s.Ended → (∀ b, s.fd.get b = false) ∧ s.drv = .unconstructed
  /-- the record of a fault names the command that faulted, where `pc` stays (10 R27, 60 R202) -/
  record_pc : ∀ r, s.phase = .faulted r → r.pc = s.pc
  /-- a page is held when the trace last acquired it (10 R34) -/
  held : ∀ b, s.map.get b = pageHeld b s.trace
  /-- `res` is the level last returned to the host (10 R28) -/
  result : s.res = lastRet s.trace
  /-- a Running block's trace holds no event that ends a run (44 R191) -/
  running_open : s.phase = .running → ∀ e ∈ s.trace, endsRun e = false
  /-- an Exited block's trace ends with Exit (44 R190) -/
  exited_last : s.phase = .exited → s.trace.getLast? = some .exit
  /-- a Faulted block's trace ends with its Fault (60 R205) -/
  faulted_last : ∀ r, s.phase = .faulted r → s.trace.getLast? = some (.fault r.code)
  /-- while the clock line floats, every cell of `SR` is Unknown (20 R75) -/
  floating_clock : level s s.cfg.wiring.clk = .undriven → s.sr = .unknown
  /-- while the latch-enable line floats, every cell of `LATCH` is Unknown (20 R76) -/
  floating_latch : level s s.cfg.wiring.le = .undriven → s.latch = .unknown

end Sys2Proof.Machine
end

