-- ==== Sys2Proof/Certificates/Slice0/Obligations.lean ====
section
/-! DEFINITION. The statements for the provers. -/

open Sys2Proof Sys2Proof.Machine

namespace Sys2Proof.Spec

/-- The (match, mask) pairs of spec/opcode_table.json, in its order. -/
def opcodeTable : List (CmdWord × CmdWord) :=
  [ (0x0100000000000000, 0xFFFFFFFFFFFFFFFC), (0x0200000000000000, 0xFFFFFFFFFFFFFFFC)
  , (0x0300000000000000, 0xFFFFFFFFFFFFFF00), (0x0400000000000000, 0xFFFFFFFFFFFFFF00)
  , (0x0500000000000000, 0xFFFFFFFFFFFFFF80), (0x0600000000000000, 0xFFFFFFFFFFFFFE00)
  , (0x0700000000000000, 0xFFFFFFFFFFFFFE00), (0x0800000000000000, 0xFFFFFFFFFFFFFF00)
  , (0x0900000000000000, 0xFFFFFFFF00FE0000), (0x1000000000000000, 0xFFFFFFFFFFFFFFFF)
  , (0x1100000000000000, 0xFFFFFFFFFFFFFFFF), (0x1200000000000000, 0xFFFFFFFFFFFFFFFF)
  , (0x1300000000000000, 0xFFFFFF0000000000), (0x1F00000000000000, 0xFFFFFFFFFFFFFFFF) ]

/-- The reserved opcode values as 30 R100 lists them. -/
def reservedOpcode (op : Nat) : Prop :=
  op = 0x00 ∨ (0x0A ≤ op ∧ op ≤ 0x0F) ∨ (0x14 ≤ op ∧ op ≤ 0x1E) ∨ (0x20 ≤ op ∧ op ≤ 0xFF)

/-- The "must be 0" bits of each opcode's format, as ranges of bit numbers [hi:lo] (30 R92 to R97, R101). -/
def reservedBits : List (Nat × List (Nat × Nat)) :=
  [ (0x01, [(55, 2)]), (0x02, [(55, 2)])
  , (0x03, [(55, 8)]), (0x04, [(55, 8)]), (0x05, [(55, 8), (7, 7)])
  , (0x06, [(55, 9)]), (0x07, [(55, 9)]), (0x08, [(55, 9), (8, 8)])
  , (0x09, [(55, 32), (23, 17)])
  , (0x10, [(55, 0)]), (0x11, [(55, 0)]), (0x12, [(55, 0)]), (0x13, [(55, 40)]), (0x1F, [(55, 0)]) ]

/-- A word with a 1 in a bit that must be 0. -/
def reservedBitSet (w : CmdWord) : Prop :=
  ∃ row ∈ reservedBits, (byteAt w 56).toNat = row.1 ∧
    ∃ r ∈ row.2, ∃ n, r.2 ≤ n ∧ n ≤ r.1 ∧ w.getLsbD n = true

/-- A word whose opcode is `op` and whose reserved bits are 0. -/
def legalShape (w : CmdWord) (op : Nat) : Prop := (byteAt w 56).toNat = op ∧ ¬ reservedBitSet w

/-- The banks a command's operands, or the driver's wiring, name. -/
def namedBanks (c : Config) : Instr → List BankId
  | .openBank f | .closeBank f | .setdir f _ _ | .wrbit f _ _ | .rdbit f _ => (bankOfField f).toList
  | .pmode p _ | .pwrite p _ | .pread p => (bankOfField p.bank).toList
  | .shiftout dp cp _ _ => (bankOfField dp.bank).toList ++ (bankOfField cp.bank).toList
  | .lnew => [c.wiring.data.bank, c.wiring.clk.bank, c.wiring.oe.bank, c.wiring.le.bank]
  | .lenable | .ldisable => [c.wiring.oe.bank]
  | .lset _ _ _ _ _ => [c.wiring.data.bank, c.wiring.clk.bank, c.wiring.le.bank]
  | .exit => []

/-- The commands that write DIR (10 R23). -/
def writesDir : Instr → Bool
  | .setdir _ _ _ | .pmode _ _ | .lnew => true
  | .openBank _ | .closeBank _ | .wrbit _ _ _ | .rdbit _ _ | .pwrite _ _ | .pread _
  | .shiftout _ _ _ _ | .lenable | .ldisable | .lset _ _ _ _ _ | .exit => false

/-- The commands that write OUT (10 R24). -/
def writesOut : Instr → Bool
  | .wrbit _ _ _ | .pwrite _ _ | .shiftout _ _ _ _ | .lnew | .lenable | .ldisable | .lset _ _ _ _ _ => true
  | .openBank _ | .closeBank _ | .setdir _ _ _ | .rdbit _ _ | .pmode _ _ | .pread _ | .exit => false

/-- The commands that return a level (10 R28). -/
def returnsLevel : Instr → Bool
  | .rdbit _ _ | .pread _ => true
  | .openBank _ | .closeBank _ | .setdir _ _ _ | .wrbit _ _ _ | .pmode _ _ | .pwrite _ _
  | .shiftout _ _ _ _ | .lnew | .lenable | .ldisable | .lset _ _ _ _ _ | .exit => false

/-- Setdir of a bank field, or pmode of a pin whatever its inversion flag: the commands that set line `k` of
bank `b` to `mode`. -/
inductive SetsMode (b : BankId) (k : BitIx) (mode : Mode) : Instr → Prop where
  | setdir (f : BankField) (h : bankOfField f = some b) : SetsMode b k mode (.setdir f k mode)
  | pmode (p : PinOp) (hb : bankOfField p.bank = some b) (hk : p.bit = k) :
      SetsMode b k mode (.pmode p mode)

/-- Wrbit of raw level `x`, or pwrite of a logical level that is `x` after inversion: the commands that write
raw level `x` to line `k` of bank `b`. -/
inductive WritesLevel (b : BankId) (k : BitIx) (x : Level) : Instr → Prop where
  | wrbit (f : BankField) (h : bankOfField f = some b) : WritesLevel b k x (.wrbit f k x)
  | straight (p : PinOp) (hb : bankOfField p.bank = some b) (hk : p.bit = k) (hi : p.inv = false) :
      WritesLevel b k x (.pwrite p x)
  | inverted (p : PinOp) (hb : bankOfField p.bank = some b) (hk : p.bit = k) (hi : p.inv = true) :
      WritesLevel b k x (.pwrite p (!x))

/-- Rdbit, or pread of a pin with inversion flag `inv`: the commands that read line `k` of bank `b`. -/
inductive ReadsLevel (b : BankId) (k : BitIx) : Bool → Instr → Prop where
  | rdbit (f : BankField) (h : bankOfField f = some b) : ReadsLevel b k false (.rdbit f k)
  | pread (p : PinOp) (hb : bankOfField p.bank = some b) (hk : p.bit = k) : ReadsLevel b k p.inv (.pread p)

/-- A line that is an input of the chain: DATA, CLK or LE (20 R73). -/
def chainLine (c : Config) (b : BankId) (j : Nat) : Prop :=
  IsLine c.wiring.data b j ∨ IsLine c.wiring.clk b j ∨ IsLine c.wiring.le b j

/-- One of the four wired lines. -/
def wiredLine (c : Config) (b : BankId) (j : Nat) : Prop := chainLine c b j ∨ IsLine c.wiring.oe b j

/-- The exceptions of 43 R169, of the state an LSET starts in. -/
def mayCommitEarly (s : State) : Prop :=
  let le := s.cfg.wiring.le
  let high := s.outBit le.bank le.bit.toNat
  (le.inv = false ∧ s.cfg.latchMode = .fallingEdge ∧ high = true) ∨
  (le.inv = true ∧ s.cfg.latchMode = .risingEdge ∧ high = false) ∨
  (le.inv = true ∧ s.cfg.latchMode = .transparent)

/-- A block that LNEW constructs: no driver, no bank open, and three setups that succeed. -/
structure ReadyForLnew (s : State) (rest : List SetupOutcome) : Prop where
  ready : s.Ready
  driver : s.drv = .unconstructed
  closed : ∀ b, s.fd.get b = false
  setups : s.env.setupDraws = .ok :: .ok :: .ok :: rest

/-- Pin `p`'s line is driven before LNEW, during it and after it: it was driven, DIR bit 1 drives it, and LNEW
never clears the bit on the way (40 R122). -/
def drivenThroughLnew (s : State) (p : Pin) : Prop :=
  s.Drives p ∧ s.cfg.dirDriveValue = true ∧ s.cfg.dirTwoPhase = false

/-- LNEW ends with a transparent latch open: LE driven, and physically High as its OUT bit was (20 R76). -/
def latchOpenAfterLnew (s : State) : Prop :=
  s.cfg.dirDriveValue = true ∧ s.cfg.latchMode = .transparent ∧
    s.outBit s.cfg.wiring.le.bank s.cfg.wiring.le.bit.toNat = true

/-- A block on which LSET runs: the driver exists and the banks of DATA, CLK and LE are open. -/
structure ReadyForLset (s : State) : Prop where
  ready : s.Ready
  driver : s.drv = .constructed
  data : bankOpen s s.cfg.wiring.data.bank = true
  clk : bankOpen s s.cfg.wiring.clk.bank = true
  le : bankOpen s s.cfg.wiring.le.bank = true

/-- What a command needs to complete: its operands name banks, the checks of 60 R203 pass, and the setups it draws
succeed. -/
def admitted (s : State) : Instr → Prop
  | .openBank f => ∃ b rest, bankOfField f = some b ∧ s.fd.get b = false ∧ s.env.setupDraws = .ok :: rest
  | .closeBank f | .setdir f _ _ | .wrbit f _ _ | .rdbit f _ => ∃ b, bankOfField f = some b ∧ bankOpen s b = true
  | .pmode p _ | .pwrite p _ | .pread p => ∃ b, bankOfField p.bank = some b ∧ bankOpen s b = true
  | .shiftout dp cp _ _ =>
    ∃ d c, bankOfField dp.bank = some d ∧ bankOfField cp.bank = some c ∧ bankOpen s d = true ∧ bankOpen s c = true
  | .lnew => s.drv = .unconstructed ∧ (∀ b, s.fd.get b = false) ∧
    ∃ rest, s.env.setupDraws = .ok :: .ok :: .ok :: rest
  | .lenable | .ldisable => s.drv = .constructed ∧ bankOpen s s.cfg.wiring.oe.bank = true
  | .lset _ _ _ _ _ => s.drv = .constructed ∧ bankOpen s s.cfg.wiring.data.bank = true ∧
    bankOpen s s.cfg.wiring.clk.bank = true ∧ bankOpen s s.cfg.wiring.le.bank = true
  | .exit => True

/-- The 40 bits of five bytes, each LSB-first. -/
def bitsOf (bytes : List Byte) : List Bool := bytes.flatMap fun x => (List.range 8).map x.getLsbD

end Sys2Proof.Spec

open Sys2Proof.Spec

/-! ### Encoding -/

/-- 30 R92 to R98, R103: every well-formed command, with every operand value, is read back from its word. -/
def Obligations.EncodedCommandDecodesToItself : Prop :=
  ∀ i : Instr, i.wf = true → decode (encode i) = .cmd i

/-- 30 R98, R101, R103: a word that decodes is the word of the command it decodes to, whose bank fields name
banks, so no two words decode to one command; and the word's eight stored bytes, lowest first, are read back as
the word, whatever follows them (30 R104). -/
def Obligations.DecodedCommandEncodesToItsWord : Prop :=
  (∀ (w : CmdWord) (i : Instr), decode w = .cmd i → encode i = w ∧ i.wf = true) ∧
  (∀ (w : CmdWord) (rest : List Byte), wordOfBytes (toBytes w ++ rest) = some (w, rest))

/-- 30 R99, R103 and spec/opcode_table.json: a word is illegal exactly when it matches no row of the table,
and no word matches two rows. -/
def Obligations.IllegalWordsAreThoseOutsideTheTable : Prop :=
  (∀ w : CmdWord, decode w = .illegal ↔ ∀ r ∈ opcodeTable, w &&& r.2 ≠ r.1) ∧
  (∀ (w : CmdWord) (r r' : CmdWord × CmdWord), r ∈ opcodeTable → r' ∈ opcodeTable →
    w &&& r.2 = r.1 → w &&& r'.2 = r'.1 → r = r')

/-- 95 section 1 and sections 2.1 to 2.6 (words the spec writes out): one word of every command decodes to it. -/
def Obligations.SpecWordsDecode : Prop :=
  decode 0x0100000000000001 = .cmd (.openBank 1) ∧
  decode 0x0200000000000001 = .cmd (.closeBank 1) ∧
  decode 0x03000000000000FE = .cmd (.setdir 2 31 .output) ∧
  decode 0x040000000000007E = .cmd (.wrbit 2 31 false) ∧
  decode 0x0500000000000024 = .cmd (.rdbit 0 9) ∧
  decode 0x060000000000011E = .cmd (.pmode ⟨false, 7, 2⟩ .output) ∧
  decode 0x0700000000000094 = .cmd (.pwrite ⟨true, 5, 0⟩ false) ∧
  decode 0x080000000000008D = .cmd (.pread ⟨true, 3, 1⟩) ∧
  decode 0x0900000080010501 = .cmd (.shiftout ⟨false, 0, 1⟩ ⟨false, 1, 1⟩ .msb 0x80) ∧
  decode 0x1000000000000000 = .cmd .lnew ∧
  decode 0x1100000000000000 = .cmd .lenable ∧
  decode 0x1200000000000000 = .cmd .ldisable ∧
  decode 0x13000001FF80063F = .cmd (.lset 0x3F 0x06 0x80 0xFF 0x01) ∧
  decode 0x1F00000000000000 = .cmd .exit ∧
  decode 0x0100000000000007 = .illegal ∧
  decode 0x090000000000030A = .badBank

/-- 30 R100, R101: a word with a reserved opcode, or with a 1 in a reserved bit, raises ILLEGAL_COMMAND, and
does nothing before raising it. -/
def Obligations.ReservedEncodingsRaiseIllegalCommand : Prop :=
  ∀ (s : State) (w : CmdWord) (rest : List CmdWord), s.Ready → s.commands = w :: rest →
    (reservedOpcode (byteAt w 56).toNat ∨ reservedBitSet w) →
    step s = .next (raise w .illegalCommand none { s with commands := rest })

/-- 30 R98, R103, 60 R201: a legal word whose bank field, or whose PIN8's bank field, holds 3 raises BAD_BANK. -/
def Obligations.BankFieldThreeRaisesBadBank : Prop :=
  ∀ (s : State) (w : CmdWord) (rest : List CmdWord) (op : Nat), s.Ready → s.commands = w :: rest →
    legalShape w op →
    ((1 ≤ op ∧ op ≤ 9 ∧ w.getLsbD 0 = true ∧ w.getLsbD 1 = true) ∨
      (op = 9 ∧ w.getLsbD 8 = true ∧ w.getLsbD 9 = true)) →
    step s = .next (raise w .badBank none { s with commands := rest })

/-! ### Steps -/

/-- 30 R108: when the host's next word decodes to a command, the step is that command's meaning in the state
without the word; and `withFetchWord` places a word so. A block the host sends nothing waits (70 R232). -/
def Obligations.StepRunsTheDecodedCommand : Prop :=
  (∀ (s : State) (w : CmdWord) (rest : List CmdWord) (i : Instr),
    s.commands = w :: rest → decode w = .cmd i → step s = exec i { s with commands := rest }) ∧
  (∀ (s : State) (w : CmdWord) (i : Instr),
    decode w = .cmd i → step (s.withFetchWord 64 w.toNat) = exec i s) ∧
  (∀ s : State, s.Ready → s.commands = [] → step s = .next s)

/-- 10 R33, 60 R206: a block that is Exited or Faulted takes no step, whatever command the host sends. -/
def Obligations.EndedBlockTakesNoStep : Prop :=
  ∀ (s : State) (i : Instr), configLegal s.cfg = true →
    (s.phase = .exited → exec i s = .fault .blockExited ∧ step s = .fault .blockExited) ∧
    (∀ r, s.phase = .faulted r → exec i s = .fault .blockFaulted ∧ step s = .fault .blockFaulted)

/-- 10 R35: the wiring, like every parameter, is fixed for the whole run, and a configuration in which two of
the four pins name one line is refused. -/
def Obligations.WiringIsFixedAndSharedLinesAreRefused : Prop :=
  (∀ s t : State, step s = .next t → t.cfg = s.cfg) ∧
  (∀ (s : State) (i : Instr),
    ¬ ((driverPins s.cfg.wiring).map fun p => (p.bank, p.bit)).Nodup →
      exec i s = .refused .illegalConfiguration ∧ step s = .refused .illegalConfiguration)

/-- 10 R27: a command that completes advances `pc` by one; a command that faults leaves it, and the record
holds it; the two are the only outcomes of a Running block's next word. -/
def Obligations.PcCountsCompletedCommands : Prop :=
  ∀ (s : State) (w : CmdWord) (rest : List CmdWord), s.Ready → s.commands = w :: rest →
    ∃ t, step s = .next t ∧
      ((∀ r, t.phase ≠ .faulted r) → t.pc = s.pc + 1) ∧
      (∀ r, t.phase = .faulted r → t.pc = s.pc ∧ r.pc = s.pc ∧ r.word = w)

/-! ### Reset and invariants -/

/-- 10 R37, 70 R230: the state at reset, for every parameters, every DIR and OUT left behind, every host and
every environment; the interface's `State.reset` is one of them; a new run keeps DIR and OUT (60 R206). -/
def Obligations.ResetStateIsAsTheSpecSays : Prop :=
  (∀ (c : Config) (dir out : PerBank Word) (cmds : List CmdWord) (env : Env),
    let s := State.boot c dir out cmds env
    (∀ b, s.fd.get b = false ∧ s.map.get b = false) ∧ s.dir = dir ∧ s.out = out ∧ s.pc = 0 ∧
    s.res = none ∧ s.drv = .unconstructed ∧ (∀ j, j < 40 → cellAt s.sr j = .unknown ∧ cellAt s.latch j = .unknown) ∧
    s.phase = .running ∧ s.trace = []) ∧
  (∃ (c : Config) (dir out : PerBank Word) (env : Env), configLegal c = true ∧
    State.reset = State.boot c dir out [] env) ∧
  (∀ (s : State) (cmds : List CmdWord) (env : Env), let t := newRun cmds env s
    t.dir = s.dir ∧ t.out = s.out ∧ t.cfg = s.cfg ∧ t.phase = .running ∧ t.trace = [] ∧ t.Inv)

/-- 10 R22, 20 R75, R76, 70 R230: the invariant holds at every reset. -/
def Obligations.ResetMeetsTheInvariant : Prop :=
  (∀ (c : Config) (dir out : PerBank Word) (cmds : List CmdWord) (env : Env),
    (State.boot c dir out cmds env).Inv) ∧ State.reset.Inv

/-- 10 R22, R27, R28, R34, 20 R75, R76, 44 R191, 60 R205, 70 R244: every step keeps the invariant, whatever
the draws and whether or not others write the registers. -/
def Obligations.StepKeepsTheInvariant : Prop :=
  ∀ s t : State, s.Inv → step s = .next t → t.Inv

/-! ### Faults -/

/-- 60 R202, R205: raising a fault records it, releases every bank whose handle is open in ascending order,
unmaps and closes each, drops the driver, and changes no register and no cell. -/
def Obligations.RaisingAFaultTearsDownAndRecords : Prop :=
  ∀ (w : CmdWord) (code : FaultCode) (info : Option BankId) (s : State),
    (∀ b, s.map.get b = true → s.fd.get b = true) →
    let t := raise w code info s
    t.phase = .faulted { code := code, pc := s.pc, word := w, bank := info } ∧
    (∀ b, t.fd.get b = false ∧ t.map.get b = false) ∧ t.drv = .unconstructed ∧
    t.trace = s.trace ++ (banks.filter fun b => s.fd.get b).map .rel ++ [.fault code] ∧
    t.pc = s.pc ∧ t.res = s.res ∧ t.cfg = s.cfg ∧ t.commands = s.commands ∧
    (s.SoleWriter → s.KeepsRegisters t)

/-- 60 R203 check 5, 70 R233: a bank or pin command whose operand's bank is closed raises BANK_NOT_OPEN with
that bank, before anything else; SHIFTOUT checks the data pin's bank, then the clock pin's (42 R151). -/
def Obligations.BankCommandsNeedTheirBankOpen : Prop :=
  (∀ (s : State) (b : BankId) (f : BankField) (p : PinOp) (k : BitIx) (m : Mode) (x : Level), s.Ready →
    bankOfField f = some b → bankOfField p.bank = some b → bankOpen s b = false →
    ∀ i ∈ [Instr.closeBank f, .setdir f k m, .wrbit f k x, .rdbit f k, .pmode p m, .pwrite p x, .pread p],
      exec i s = .next (raise (encode i) .bankNotOpen (some b) s)) ∧
  (∀ (s : State) (dp cp : PinOp) (bd bc : BankId) (o : BitOrder) (x : Byte), s.Ready →
    bankOfField dp.bank = some bd → bankOfField cp.bank = some bc →
    let i := Instr.shiftout dp cp o x
    (bankOpen s bd = false → exec i s = .next (raise (encode i) .bankNotOpen (some bd) s)) ∧
    (bankOpen s bd = true → bankOpen s bc = false →
      exec i s = .next (raise (encode i) .bankNotOpen (some bc) s)))

/-- 43 R164 to R166, 60 R203: a driver command needs the driver, then the banks of its pins, in the order
DATA, CLK, LE, or OE. -/
def Obligations.DriverCommandsNeedDriverThenBanks : Prop :=
  ∀ (s : State) (a b c d e : Byte), s.Ready →
    (s.drv = .unconstructed → ∀ i ∈ [Instr.lenable, .ldisable, .lset a b c d e],
      exec i s = .next (raise (encode i) .driverNotConstructed none s)) ∧
    (s.drv = .constructed → bankOpen s s.cfg.wiring.oe.bank = false → ∀ i ∈ [Instr.lenable, .ldisable],
      exec i s = .next (raise (encode i) .bankNotOpen (some s.cfg.wiring.oe.bank) s)) ∧
    (s.drv = .constructed →
      ∀ p, [s.cfg.wiring.data, s.cfg.wiring.clk, s.cfg.wiring.le].find? (fun p => !bankOpen s p.bank) = some p →
        exec (.lset a b c d e) s =
          .next (raise (encode (.lset a b c d e)) .bankNotOpen (some p.bank) s))

/-- 40 R125, 43 R163, 60 R203: OPEN of a bank whose handle is open raises BANK_ALREADY_OPEN; LNEW raises
DRIVER_ALREADY_CONSTRUCTED if the driver exists, else BANK_ALREADY_OPEN for the lowest such bank. -/
def Obligations.OpeningCommandsNeedClosedBanks : Prop :=
  ∀ (s : State) (b : BankId) (f : BankField), s.Ready → bankOfField f = some b →
    (s.fd.get b = true →
      exec (.openBank f) s = .next (raise (encode (.openBank f)) .bankAlreadyOpen (some b) s)) ∧
    (s.drv = .constructed →
      exec .lnew s = .next (raise (encode .lnew) .driverAlreadyConstructed none s)) ∧
    (s.drv = .unconstructed → s.fd.get b = true → (∀ b', fieldOfBank b' < fieldOfBank b → s.fd.get b' = false) →
      exec .lnew s = .next (raise (encode .lnew) .bankAlreadyOpen (some b) s))

/-- 60 R204: a fault is precise. A faulting command makes no register access and changes no DIR, OUT, SR,
LATCH or `res`; for codes 3 to 8 it changes nothing before the fault; for codes 1 and 2 the banks it had acquired
are released. -/
def Obligations.FaultsArePrecise : Prop :=
  ∀ (s t : State) (w : CmdWord) (rest : List CmdWord) (r : FaultRecord), s.Ready → s.commands = w :: rest →
    step s = .next t → t.phase = .faulted r →
    (s.SoleWriter → s.KeepsRegisters t) ∧ t.res = s.res ∧
    (∃ evs, t.trace = s.trace ++ evs ∧ ∀ e ∈ evs, isAccess e = false) ∧
    (r.code ≠ .deviceOpenFailed → r.code ≠ .mapFailed → t = raise w r.code r.bank { s with commands := rest }) ∧
    (∀ b, t.fd.get b = false) ∧ ((∀ b, s.map.get b = true → s.fd.get b = true) → ∀ b, t.map.get b = false)

/-- 70 R244, 44 R191: a step that ends the run ends it by EXIT or by a fault, and releases every open bank, in
ascending order, just before the event that ends it. -/
def Obligations.EveryEndReleasesTheBanksInOrder : Prop :=
  ∀ s t : State, s.Inv → s.Ready → step s = .next t → t.Ended →
    (∀ b, t.fd.get b = false ∧ t.map.get b = false) ∧
    ∃ acquired rels last, t.trace = s.trace ++ List.map .acq acquired ++ List.map .rel rels ++ [last] ∧
      rels.Sublist banks ∧ (∀ b, s.fd.get b = true ∨ b ∈ acquired → b ∈ rels) ∧
      ((last = .exit ∧ t.phase = .exited ∧ s.commands.head?.map decode = some (.cmd .exit)) ∨
        ∃ r, last = .fault r.code ∧ t.phase = .faulted r)

/-! ### Register accesses -/

/-- 20 R61, R56: with no other writer, the register file sees a step's accesses in trace order: every read of
DIR or OUT returns the value of the latest write before it, and what stands at the end is what was last
written. -/
def Obligations.ReadsReturnTheLatestWrite : Prop :=
  ∀ s t : State, s.SoleWriter → step s = .next t →
    ∃ evs, t.trace = s.trace ++ evs ∧ replay (s.dir, s.out) evs = some (t.dir, t.out)

/-- 70 R242, 20 R55: a step only appends to the trace; each of its accesses is to a page the block holds at that
event, none writes IN. -/
def Obligations.EveryAccessIsToAHeldPage : Prop :=
  ∀ s t : State, s.Inv → step s = .next t →
    ∃ evs, t.trace = s.trace ++ evs ∧
      (∀ b v, Event.wr b .inp v ∉ evs) ∧
      ∀ pre post b r v, (evs = pre ++ .rd b r v :: post ∨ evs = pre ++ .wr b r v :: post) →
        pageHeld b (s.trace ++ pre) = true

/-- 40 R123, 20 R56: BankWriteBit makes one read and one write of OUT, always, whoever else writes: it stores
the value read with bit `k` made `x`. -/
def Obligations.WriteBitReadsThenWritesWholeRegister : Prop :=
  ∀ (s : State) (b : BankId) (k : BitIx) (x : Level),
    ∃ v v', (bankWriteBit b k x s).trace = s.trace ++ [.rd b .out v, .wr b .out v'] ∧
      (bankWriteBit b k x s).out.get b = v' ∧
      (∀ j, v'.getLsbD j = if j = k.toNat then x else v.getLsbD j) ∧
      (s.SoleWriter → v = s.out.get b)

/-- 40 R122, 90 C2: with no other writer, the accesses of BankSetDir in its one-cycle and two-cycle forms; both
end with the value read with bit `k` the mode's bit. -/
def Obligations.SetDirectionAccesses : Prop :=
  ∀ (s : State) (b : BankId) (k : BitIx) (m : Mode), s.SoleWriter →
    ∃ v', (∀ j, v'.getLsbD j = if j = k.toNat then decide (m = .output) else s.dirBit b j) ∧
      (bankSetDir b k m s).dir = s.dir.set b v' ∧
      (s.cfg.dirTwoPhase = false →
        (bankSetDir b k m s).trace = s.trace ++ [.rd b .dir (s.dir.get b), .wr b .dir v']) ∧
      (s.cfg.dirTwoPhase = true → ∃ v1, (∀ j, v1.getLsbD j = if j = k.toNat then false else s.dirBit b j) ∧
        (bankSetDir b k m s).trace =
          s.trace ++ [.rd b .dir (s.dir.get b), .wr b .dir v1, .rd b .dir v1, .wr b .dir v'])

/-- 40 R130, R131: BankSetDir is idempotent, its final value does not depend on the bit's previous value, and
Input then Output leaves the old value with the bit set and nothing else changed. -/
def Obligations.SetDirectionIsIdempotentAndRoundTrips : Prop :=
  ∀ (s s' : State) (b : BankId) (k : BitIx) (m : Mode), s.SoleWriter → s'.SoleWriter →
    (bankSetDir b k m (bankSetDir b k m s)).dir = (bankSetDir b k m s).dir ∧
    ((∀ j, j ≠ k.toNat → s.dirBit b j = s'.dirBit b j) →
      (bankSetDir b k m s).dir.get b = (bankSetDir b k m s').dir.get b) ∧
    (bankSetDir b k .output (bankSetDir b k .input s)).dir = s.dir.set b (s.dir.get b ||| mask k)

/-- 40 R132: BankWriteBit leaves `(v & ~mask(i)) | (zext_32(x) << i)`, BankSetDir changes one bit, and no
command changes a register of a bank it does not name. -/
def Obligations.BitWritesAreIsolated : Prop :=
  (∀ (s : State) (b : BankId) (k : BitIx) (x : Level) (m : Mode), s.SoleWriter →
    (bankWriteBit b k x s).out.get b =
      (s.out.get b &&& ~~~(mask k)) ||| ((BitVec.ofBool x).setWidth 32 <<< k.toNat) ∧
    (∀ j, j ≠ k.toNat → (bankSetDir b k m s).dirBit b j = s.dirBit b j)) ∧
  (∀ (s t : State) (i : Instr), s.SoleWriter → exec i s = .next t →
    ∀ b, b ∉ namedBanks s.cfg i → t.dir.get b = s.dir.get b ∧ t.out.get b = s.out.get b)

/-- 10 R23, R24, R28, R29: with no other writer, only SETDIR, PMODE and LNEW change DIR, and only WRBIT, PWRITE,
SHIFTOUT, LNEW, LENABLE, LDISABLE and LSET change OUT; only RDBIT and PREAD change `res`; the driver appears
only by LNEW and goes only when the run ends; reading `res` before it has a value faults. -/
def Obligations.StateChangesOnlyByTheListedCommands : Prop :=
  (∀ (s t : State) (i : Instr), exec i s = .next t →
    (s.SoleWriter → (writesDir i = false → t.dir = s.dir) ∧ (writesOut i = false → t.out = s.out)) ∧
    (returnsLevel i = false → t.res = s.res) ∧
    (t.drv ≠ s.drv → (i = .lnew ∧ t.drv = .constructed) ∨ (t.Ended ∧ t.drv = .unconstructed))) ∧
  (∀ s : State, s.res = none → observeRes s = .fault .resultUnread)

/-- 41 R146: a write through an inverted pin leaves the complement of the level in OUT, a read returns the
complement of the IN bit; through a straight pin both pass unchanged. -/
def Obligations.InversionIsSymmetric : Prop :=
  ∀ (s : State) (p : Pin) (y : Level),
    (pinWrite p y s).outBit p.bank p.bit.toNat = (if p.inv then !y else y) ∧
    ∃ v, (pinRead p s).2.trace = s.trace ++ [.rd p.bank .inp v] ∧
      (pinRead p s).1 = (if p.inv then !(v.getLsbD p.bit.toNat) else v.getLsbD p.bit.toNat)

/-- 20 R64, 70 R241: with another writer, a change it makes to OUT between the read and the write of one bit
update is lost in every other bit of that register. -/
def Obligations.OtherWritersUpdateIsLost : Prop :=
  ∀ (s : State) (b : BankId) (k : BitIx) (x : Level) (w : EnvWrite) (rest : List (List EnvWrite)),
    s.cfg.externalWriters = true → s.trace ≠ [] → s.env.writerDraws = [] :: [w] :: rest →
    (bankWriteBit b k x s).out.get b = withBit (s.out.get b) k x ∧
    (∀ b', b' ≠ b → (bankWriteBit b k x s).out.get b' =
      match w.get b' with
      | some v => v.2
      | none => s.out.get b')

/-! ### Commands -/

/-- 60 R203, 30 R108: a command that a Running block admits completes, whoever else writes the registers; and when
the setups it may draw are listed, it completes only then. -/
def Obligations.AdmittedCommandsComplete : Prop :=
  ∀ (s : State) (i : Instr), s.Ready →
    (admitted s i → ∃ t, exec i s = .next t ∧ t.pc = s.pc + 1 ∧ t.cfg = s.cfg ∧ t.commands = s.commands ∧
      t.phase = (if i = .exit then .exited else .running)) ∧
    (3 ≤ s.env.setupDraws.length → ¬ admitted s i → ∃ t r, exec i s = .next t ∧ t.phase = .faulted r)

/-- 40 R125: OPEN of a closed bank whose setup succeeds completes: the bank is open, the event is Acq, and
nothing else changes. -/
def Obligations.OpenMapsTheBank : Prop :=
  ∀ (s : State) (f : BankField) (b : BankId) (rest : List SetupOutcome), s.Ready →
    bankOfField f = some b → s.fd.get b = false → s.env.setupDraws = .ok :: rest →
    ∃ t, exec (.openBank f) s = .next t ∧ t.fd = s.fd.set b true ∧ t.map = s.map.set b true ∧
      t.trace = s.trace ++ [.acq b] ∧ t.pc = s.pc + 1 ∧ t.res = s.res ∧ t.drv = s.drv ∧
      t.phase = s.phase ∧ t.cfg = s.cfg ∧ t.commands = s.commands ∧ (s.SoleWriter → s.KeepsRegisters t)

/-- 40 R120, 60 R205, R207: OPEN of a closed bank whose setup fails ends the run with code 1 or 2 and that
bank; after a failed mapping the bank's handle, then open, is released with the others, in ascending order. -/
def Obligations.OpenFailureReleasesEveryBank : Prop :=
  ∀ (s : State) (f : BankField) (b : BankId) (o : SetupOutcome) (rest : List SetupOutcome), s.Ready →
    bankOfField f = some b → s.fd.get b = false → (∀ b, s.map.get b = true → s.fd.get b = true) →
    s.env.setupDraws = o :: rest → o ≠ .ok →
    ∃ t, exec (.openBank f) s = .next t ∧
      (∀ b, t.fd.get b = false ∧ t.map.get b = false) ∧ t.pc = s.pc ∧
      t.phase = .faulted
        { code := if o = .mapFailed then .mapFailed else .deviceOpenFailed
          pc := s.pc, word := encode (.openBank f), bank := some b } ∧
      t.trace = s.trace ++ (banks.filter fun x => s.fd.get x || (x == b && o == .mapFailed)).map .rel ++
        [.fault (if o = .mapFailed then .mapFailed else .deviceOpenFailed)]

/-- 40 R121, R126: CLOSE of an open bank completes: it is unmapped and closed, the event is Rel, and DIR, OUT and
the driver stay. -/
def Obligations.CloseReleasesTheBank : Prop :=
  ∀ (s : State) (f : BankField) (b : BankId), s.Ready → bankOfField f = some b → bankOpen s b = true →
    ∃ t, exec (.closeBank f) s = .next t ∧ t.fd = s.fd.set b false ∧ t.map = s.map.set b false ∧
      t.trace = s.trace ++ [.rel b] ∧ t.pc = s.pc + 1 ∧ t.res = s.res ∧ t.drv = s.drv ∧
      t.phase = s.phase ∧ t.cfg = s.cfg ∧ t.commands = s.commands ∧ (s.SoleWriter → s.KeepsRegisters t)

/-- 40 R127, 41 R143: SETDIR and PMODE of an open bank complete: one bit of DIR becomes the mode's, and the chain
changes as 20 R73 says of the lines before and after each write, so only where the line is an input of it. With
`DIR_TWO_PHASE` there are two writes, and the bit is 0 between them (40 R122). -/
def Obligations.SetdirAndPmodeSetOneDirectionBit : Prop :=
  ∀ (s : State) (b : BankId) (k : BitIx) (m : Mode) (i : Instr), s.Ready → s.SoleWriter →
    bankOpen s b = true → SetsMode b k m i →
    ∃ t, exec i s = .next t ∧ s.KeepsControl t ∧ t.res = s.res ∧ t.pc = s.pc + 1 ∧ t.out = s.out ∧
      (∀ b' j, t.dirBit b' j =
        if b' = b ∧ j = k.toNat then decide (m = .output) else s.dirBit b' j) ∧
      t.trace.length = s.trace.length + (if s.cfg.dirTwoPhase then 4 else 2) ∧
      (s.cfg.dirTwoPhase = false → t.sr = (chainUpdate s.lines t.lines s).sr ∧
        t.latch = (chainUpdate s.lines t.lines s).latch) ∧
      (s.cfg.dirTwoPhase = true →
        let between := linesOf s.cfg (s.dir.set b (s.dir.get b &&& ~~~(mask k))) s.out
        let mid := chainUpdate s.lines between s
        t.sr = (chainUpdate between t.lines mid).sr ∧ t.latch = (chainUpdate between t.lines mid).latch) ∧
      (¬ chainLine s.cfg b k.toNat → s.ChainAtRest → t.sr = s.sr ∧ t.latch = s.latch)

/-- 40 R128, 41 R144: WRBIT and PWRITE of an open bank complete: one bit of OUT becomes the raw level, with one
read and one write, and the chain changes as 20 R73 says of the lines before and after, so only where the line is an
input of it. -/
def Obligations.WrbitAndPwriteWriteOneDataBit : Prop :=
  ∀ (s : State) (b : BankId) (k : BitIx) (x : Level) (i : Instr), s.Ready → s.SoleWriter →
    bankOpen s b = true → WritesLevel b k x i →
    ∃ t, exec i s = .next t ∧ s.KeepsControl t ∧ t.res = s.res ∧ t.pc = s.pc + 1 ∧ t.dir = s.dir ∧
      (∀ b' j, t.outBit b' j = if b' = b ∧ j = k.toNat then x else s.outBit b' j) ∧
      t.trace = s.trace ++ [.rd b .out (s.out.get b), .wr b .out (t.out.get b)] ∧
      t.sr = (chainUpdate s.lines t.lines s).sr ∧ t.latch = (chainUpdate s.lines t.lines s).latch ∧
      (¬ chainLine s.cfg b k.toNat → s.ChainAtRest → t.sr = s.sr ∧ t.latch = s.latch)

/-- 40 R129, 41 R145, 20 R54: RDBIT and PREAD of an open bank complete: the result is the bit of the value drawn,
inverted for an inverted pin; a listed draw is the value read; nothing else changes. -/
def Obligations.RdbitAndPreadReturnTheDrawnBit : Prop :=
  ∀ (s : State) (b : BankId) (k : BitIx) (inv : Bool) (i : Instr), s.Ready →
    bankOpen s b = true → ReadsLevel b k inv i →
    ∃ t v, exec i s = .next t ∧ s.KeepsControl t ∧ t.pc = s.pc + 1 ∧
      t.res = some (v.getLsbD k.toNat ^^ inv) ∧
      t.trace = s.trace ++ [.rd b .inp v, .ret (v.getLsbD k.toNat ^^ inv)] ∧
      (∀ u rest, s.env.inDraws = u :: rest → v = u) ∧ (s.SoleWriter → s.KeepsRegisters t)

/-- 40 R129, 20 R54: what a read returns depends on the draw alone, not on DIR, OUT, the chain or who writes
them. -/
def Obligations.ReadResultIgnoresTheRegisters : Prop :=
  ∀ (s s' t t' : State) (i : Instr) (u : Word) (rest rest' : List Word), s.Ready → s'.Ready →
    returnsLevel i = true → s.env.inDraws = u :: rest → s'.env.inDraws = u :: rest' →
    exec i s = .next t → exec i s' = .next t' → ¬ t.Ended → ¬ t'.Ended → t.res = t'.res

/-- 42 R151: SHIFTOUT with its banks open completes, with pins shared or not: 48 events, only the two lines'
OUT bits change, the clock pin ends logical Low and the data pin, when it is another line, holds the last bit. -/
def Obligations.ShiftoutDrivesItsTwoPins : Prop :=
  ∀ (s : State) (dp cp : PinOp) (d c : Pin) (o : BitOrder) (x : Byte), s.Ready → s.SoleWriter →
    pinOfOp dp = some d → pinOfOp cp = some c → bankOpen s d.bank = true → bankOpen s c.bank = true →
    ∃ t, exec (.shiftout dp cp o x) s = .next t ∧ t = complete (shiftOut d c o x s) ∧ s.KeepsControl t ∧ t.res = s.res ∧ t.pc = s.pc + 1 ∧
      t.dir = s.dir ∧ t.trace.length = s.trace.length + 48 ∧
      (∀ b j, ¬ IsLine d b j → ¬ IsLine c b j → t.outBit b j = s.outBit b j) ∧
      t.outBit c.bank c.bit.toNat = c.inv ∧
      (¬ IsLine d c.bank c.bit.toNat →
        t.outBit d.bank d.bit.toNat = ((match o with | .lsb => x.getLsbD 7 | .msb => x.getLsbD 0) ^^ d.inv)) ∧
      (¬ chainLine s.cfg d.bank d.bit.toNat → ¬ chainLine s.cfg c.bank c.bit.toNat → s.ChainAtRest →
        t.sr = s.sr ∧ t.latch = s.latch)

/-- 42 R153: ShiftOut makes exactly 48 events, six an iteration, in the order data, clock High, clock Low, each a
read then a write of OUT. -/
def Obligations.ShiftOutEventShape : Prop :=
  ∀ (s : State) (d c : Pin) (o : BitOrder) (x : Byte),
    ∃ evs, (shiftOut d c o x s).trace = s.trace ++ evs ∧ evs.length = 48 ∧
      ∀ i, i < 8 → ∃ v0 v1 v2 v3 v4 v5,
        (evs.drop (6 * i)).take 6 =
          [ .rd d.bank .out v0, .wr d.bank .out v1, .rd c.bank .out v2, .wr c.bank .out v3
          , .rd c.bank .out v4, .wr c.bank .out v5 ]

/-- 42 R152: in iteration `i` the data pin receives `byte[i]` LSB-first and `byte[7-i]` MSB-first, the clock pin
High then Low; with the source's three examples. -/
def Obligations.ShiftOutBitSelection : Prop :=
  (∀ (s : State) (d c : Pin) (o : BitOrder) (x : Byte) (i : Nat), i < 8 →
    ∃ v1 v3 v5,
      ((shiftOut d c o x s).trace.drop (s.trace.length + 6 * i))[1]? = some (.wr d.bank .out v1) ∧
      ((shiftOut d c o x s).trace.drop (s.trace.length + 6 * i))[3]? = some (.wr c.bank .out v3) ∧
      ((shiftOut d c o x s).trace.drop (s.trace.length + 6 * i))[5]? = some (.wr c.bank .out v5) ∧
      v1.getLsbD d.bit.toNat = ((match o with | .lsb => x.getLsbD i | .msb => x.getLsbD (7 - i)) ^^ d.inv) ∧
      v3.getLsbD c.bit.toNat = !c.inv ∧ v5.getLsbD c.bit.toNat = c.inv) ∧
  sentBits .lsb 0b00000001 = [true, false, false, false, false, false, false, false] ∧
  sentBits .msb 0b10000000 = [true, false, false, false, false, false, false, false] ∧
  sentBits .msb 0b00000001 = [false, false, false, false, false, false, false, true]

/-- 42 R154, 20 R74: on the wired DATA and CLK, both driven, the clock logical Low at the start unless it is
inverted, ShiftOut makes exactly 8 rising edges, each with the data line at the sent bit, and the chain ends
with them in sending order before what it held. The latch-enable line may float. -/
def Obligations.ShiftOutLoadsTheChain : Prop :=
  ∀ (s : State) (o : BitOrder) (x : Byte), wiringLegal s.cfg.wiring = true → s.SoleWriter →
    s.cfg.setupHoldMet = true → s.Drives s.cfg.wiring.data → s.Drives s.cfg.wiring.clk →
    (s.cfg.wiring.clk.inv = false → s.outBit s.cfg.wiring.clk.bank s.cfg.wiring.clk.bit.toNat = false) →
    let t := shiftOut s.cfg.wiring.data s.cfg.wiring.clk o x s
    (∀ i, i < 8 → cellAt t.sr (7 - i) =
      .known ((match o with | .lsb => x.getLsbD i | .msb => x.getLsbD (7 - i)) ^^ s.cfg.wiring.data.inv)) ∧
    (∀ j, 8 ≤ j → j < 40 → cellAt t.sr j = cellAt s.sr (j - 8)) ∧
    clockedLevels s.cfg (s.dir, s.out) (t.trace.drop s.trace.length) =
      (sentBits o x).map fun y => .driven (y ^^ s.cfg.wiring.data.inv)

/-- 43 R163: LNEW on a closed block whose three setups succeed completes: banks 0, 1, 2 open, the four wired DIR
bits Output, OE's OUT bit 1, every other register bit kept. SR is kept if CLK was driven throughout, else it
is Unknown (20 R75); LATCH likewise with LE, but a transparent latch that ends open holds SR (20 R76). -/
def Obligations.LnewConstructsTheDriver : Prop :=
  ∀ (s : State) (rest : List SetupOutcome), ReadyForLnew s rest → s.SoleWriter →
    ∃ t, exec .lnew s = .next t ∧ t.pc = s.pc + 1 ∧ t.phase = .running ∧ t.drv = .constructed ∧
      (∀ b, bankOpen t b = true) ∧ t.res = s.res ∧ t.cfg = s.cfg ∧ t.commands = s.commands ∧
      (∀ b j, (wiredLine s.cfg b j → t.dirBit b j = true) ∧
        (¬ wiredLine s.cfg b j → t.dirBit b j = s.dirBit b j)) ∧
      (∀ b j, (IsLine s.cfg.wiring.oe b j → t.outBit b j = true) ∧
        (¬ IsLine s.cfg.wiring.oe b j → t.outBit b j = s.outBit b j)) ∧
      (drivenThroughLnew s s.cfg.wiring.clk → t.sr = s.sr) ∧
      (¬ drivenThroughLnew s s.cfg.wiring.clk → t.sr = .unknown) ∧
      (latchOpenAfterLnew s → t.latch = t.sr) ∧
      (¬ latchOpenAfterLnew s → drivenThroughLnew s s.cfg.wiring.le → t.latch = s.latch) ∧
      (¬ latchOpenAfterLnew s → ¬ drivenThroughLnew s s.cfg.wiring.le → t.latch = .unknown) ∧
      ∃ evs, t.trace = s.trace ++ [.acq .b0, .acq .b1, .acq .b2] ++ evs ∧
        (∀ e ∈ evs, isAccess e = true) ∧ evs.length = (if s.cfg.dirTwoPhase then 18 else 10)

/-- 43 R163, 60 R205: a setup of LNEW that fails releases what LNEW acquired below it, and ends the run. -/
def Obligations.LnewSetupFailureReleasesLowerBanks : Prop :=
  ∀ (s : State) (below : List BankId) (b : BankId) (above : List BankId) (o : SetupOutcome)
    (rest : List SetupOutcome), s.Ready → s.drv = .unconstructed → (∀ b, s.fd.get b = false ∧ s.map.get b = false) →
    banks = below ++ b :: above → o ≠ .ok →
    s.env.setupDraws = below.map (fun _ => .ok) ++ o :: rest →
    ∃ t, exec .lnew s = .next t ∧ (∀ b, t.fd.get b = false ∧ t.map.get b = false) ∧
      t.drv = .unconstructed ∧ t.pc = s.pc ∧
      t.phase = .faulted
        { code := if o = .mapFailed then .mapFailed else .deviceOpenFailed
          pc := s.pc, word := 0x1000000000000000, bank := some b } ∧
      t.trace = s.trace ++ below.map .acq ++ below.map .rel ++
        (if o = .mapFailed then [.rel b] else []) ++
        [.fault (if o = .mapFailed then .mapFailed else .deviceOpenFailed)]

/-- 43 R167, 20 R70: LNEW ends Disabled when DIR bit 1 drives the line; when DIR bit 0 does, no line LNEW sets
is driven and the display is undetermined. -/
def Obligations.LnewEndsDisabled : Prop :=
  ∀ (s t : State) (rest : List SetupOutcome), ReadyForLnew s rest → s.SoleWriter → exec .lnew s = .next t →
    (s.cfg.dirDriveValue = true → displayState t = .disabled ∧ t.ChainDriven) ∧
    (s.cfg.dirDriveValue = false → displayState t = .undetermined ∧
      ∀ p ∈ driverPins s.cfg.wiring, level t p = .undriven)

/-- 70 R239: the startup window of LNEW, event by event after its three Acq. Each PinSetMode makes `c` events, 2 or
with `DIR_TWO_PHASE` 4. With OE's old OUT bit 0 the display is Enabled from the write that sets OE's DIR bit
(event `3c - 1`) until DriveOE's write (event `4c + 1`), with LE's PinSetMode and one read of OE's OUT between them,
and Disabled after; with the old bit 1 it is never Enabled. -/
def Obligations.StartupWindow : Prop :=
  ∀ (s t : State) (rest : List SetupOutcome), ReadyForLnew s rest → s.SoleWriter → s.cfg.dirDriveValue = true →
    exec .lnew s = .next t →
    let w := s.cfg.wiring
    let evs := t.trace.drop (s.trace.length + 3)
    let c := if s.cfg.dirTwoPhase then 4 else 2
    let oeAfter := fun n =>
      let regs := (evs.take n).foldl applyEvent (s.dir, s.out)
      lineLevel s.cfg regs.1 regs.2 w.oe
    (s.outBit w.oe.bank w.oe.bit.toNat = false →
      (∀ n, 3 * c ≤ n → n ≤ 4 * c + 1 → oeAfter n = .driven false) ∧
      (∀ n, 4 * c + 2 ≤ n → oeAfter n = .driven true) ∧
      (∃ v, evs[3 * c - 1]? = some (.wr w.oe.bank .dir v)) ∧
      (∀ e ∈ (evs.drop (3 * c)).take c, ∃ v, e = .rd w.le.bank .dir v ∨ e = .wr w.le.bank .dir v) ∧
      (∃ v v', evs.drop (4 * c) = [.rd w.oe.bank .out v, .wr w.oe.bank .out v'])) ∧
    (s.outBit w.oe.bank w.oe.bit.toNat = true → ∀ n, oeAfter n ≠ .driven false)

/-- 43 R164, R165, R167: LENABLE and LDISABLE, with the driver constructed and OE's bank open, complete: two
accesses, one OUT bit, OE physically Low or High, and the display Enabled or Disabled when OE is driven. -/
def Obligations.LenableAndLdisableDriveOutputEnable : Prop :=
  ∀ (s : State) (i : Instr) (x : Level), s.Ready → s.SoleWriter → s.drv = .constructed →
    bankOpen s s.cfg.wiring.oe.bank = true → (i = .lenable ∧ x = false ∨ i = .ldisable ∧ x = true) →
    ∃ t, exec i s = .next t ∧ s.KeepsControl t ∧ t.res = s.res ∧ t.pc = s.pc + 1 ∧ t.dir = s.dir ∧
      (∀ b j, (IsLine s.cfg.wiring.oe b j → t.outBit b j = x) ∧
        (¬ IsLine s.cfg.wiring.oe b j → t.outBit b j = s.outBit b j)) ∧
      (∃ v v', t.trace = s.trace ++ [.rd s.cfg.wiring.oe.bank .out v, .wr s.cfg.wiring.oe.bank .out v']) ∧
      (s.ChainAtRest → t.sr = s.sr ∧ t.latch = s.latch) ∧
      (s.Drives s.cfg.wiring.oe → displayState t = if x then .disabled else .enabled)

/-- 43 R166: LSET with the driver constructed and its banks open completes: 254 events, DIR and OE untouched, the
three lines' OUT bits as its last writes leave them. -/
def Obligations.LsetDrivesItsThreePins : Prop :=
  ∀ (s : State) (a b c d e : Byte), ReadyForLset s → s.SoleWriter →
    let w := s.cfg.wiring
    ∃ t, exec (.lset a b c d e) s = .next t ∧
      t = complete (pinWrites (lsetWrites w [a, b, c, d, e]) s) ∧ s.KeepsControl t ∧ t.res = s.res ∧ t.pc = s.pc + 1 ∧
      t.dir = s.dir ∧ t.trace.length = s.trace.length + 254 ∧
      (∀ b' j, ¬ chainLine s.cfg b' j → t.outBit b' j = s.outBit b' j) ∧
      t.outBit w.data.bank w.data.bit.toNat = (e.getLsbD 7 ^^ w.data.inv) ∧
      t.outBit w.clk.bank w.clk.bit.toNat = w.clk.inv ∧ t.outBit w.le.bank w.le.bit.toNat = w.le.inv ∧
      displayState t = displayState s

/-- 43 R168: the end state of LSET, whatever SR and LATCH held and whatever the inversion flags and the latch
mode are. -/
def Obligations.LsetEndState : Prop :=
  ∀ (s : State) (a b c d e : Byte), ReadyForLset s → s.ChainDriven → s.SoleWriter →
    s.cfg.setupHoldMet = true →
    ∃ t, exec (.lset a b c d e) s = .next t ∧ t.latch = t.sr ∧
      ∀ (k : Fin 5), let byte := [a, b, c, d, e].getD k.val 0
        (∀ j, j < 8 → cellAt t.sr (39 - (8 * k.val + j)) =
          .known (byte.getLsbD j ^^ s.cfg.wiring.data.inv)) ∧
        dispByte t k = cellsOfByte byte

/-- 43 R169: during LSET the latch changes only at step 5, outside the listed cases; after an LSET only the last
of them remains. -/
def Obligations.LsetUpdatesTheDisplayOnce : Prop :=
  ∀ (s : State) (bytes : List Byte), bytes.length = 5 → configLegal s.cfg = true → s.ChainDriven → s.SoleWriter →
    (¬ mayCommitEarly s → ∀ n, n ≤ 125 →
      (pinWrites ((lsetWrites s.cfg.wiring bytes).take n) s).latch = s.latch) ∧
    (let t := pinWrites (lsetWrites s.cfg.wiring bytes) s
     mayCommitEarly t → t.cfg.wiring.le.inv = true ∧ t.cfg.latchMode = .transparent)

/-- 43 R170: LNEW, LSET of digits 1 to 4 and 0, LENABLE, with no setup failure: the 40 levels at the last 40
rising edges of LSET are the 40 bits in order, with an uninverted clock there are no others, and the display
ends Enabled with the five bytes. -/
def Obligations.EndToEndDisplay : Prop :=
  ∀ (s : State) (rest : List SetupOutcome), ReadyForLnew s rest → s.SoleWriter → s.cfg.setupHoldMet = true →
    s.cfg.dirDriveValue = true →
    let w := s.cfg.wiring
    let bytes := [s.cfg.digits[1], s.cfg.digits[2], s.cfg.digits[3], s.cfg.digits[4], 0]
    ∃ s1 s2 s3, exec .lnew s = .next s1 ∧
      exec (.lset s.cfg.digits[1] s.cfg.digits[2] s.cfg.digits[3] s.cfg.digits[4] 0) s1 = .next s2 ∧
      exec .lenable s2 = .next s3 ∧
      displayState s3 = .enabled ∧ (∀ k : Fin 5, dispByte s3 k = cellsOfByte (bytes.getD k.val 0)) ∧
      let levels := clockedLevels s.cfg (s1.dir, s1.out) (s2.trace.drop s1.trace.length)
      levels.drop (levels.length - 40) = (bitsOf bytes).map (fun y => .driven (y ^^ w.data.inv)) ∧
      (w.clk.inv = false → levels.length = 40)

/-- 44 R190: EXIT completes on every block that takes a command: every bank is released in ascending order, the
driver is dropped, registers, chain and display keep their values. -/
def Obligations.ExitTearsEverythingDown : Prop :=
  ∀ s : State, s.Ready → (∀ b, s.map.get b = true → s.fd.get b = true) →
    ∃ t, exec .exit s = .next t ∧ (∀ b, t.fd.get b = false ∧ t.map.get b = false) ∧ t.drv = .unconstructed ∧
      t.phase = .exited ∧ t.pc = s.pc + 1 ∧ t.res = s.res ∧ t.cfg = s.cfg ∧ t.commands = s.commands ∧
      t.trace = s.trace ++ (banks.filter fun b => s.fd.get b).map .rel ++ [.exit] ∧
      (s.SoleWriter → s.KeepsRegisters t ∧ displayState t = displayState s)

/-! ### The chain and the display -/

/-- 20 R74: a rising clock edge shifts every cell by one and takes in the data line's level before the edge, or
Unknown; after 40 known bits every cell is known, the k-th from last in `SR[k]`. -/
def Obligations.RisingEdgeShiftsTheChain : Prop :=
  (∀ (s : State) (a b : Lines), changedLines a b ≤ 1 → a.clk = .driven false → b.clk = .driven true →
    let t := chainUpdate a b s
    cellAt t.sr 0 = (match a.data with
      | .driven x => if s.cfg.setupHoldMet then .known x else .unknown
      | .undriven => .unknown) ∧
    ∀ j, 1 ≤ j → j < 40 → cellAt t.sr j = cellAt s.sr (j - 1)) ∧
  (∀ (s : State) (a b : Lines) (x y : Level), changedLines a b ≤ 1 → a.clk = .driven x → b.clk = .driven y →
    (x = true ∨ y = false) → (chainUpdate a b s).sr = s.sr) ∧
  (∀ (bits : List Bool) (sr : Cells), bits.length = 40 → ∀ k, k < 40 →
    cellAt (bits.foldl (fun sr x => shiftIn (.known x) sr) sr) k = .known (bits.reverse.getD k false))

/-- 20 R76: what each latch mode commits, and Unknown while latch-enable is undriven before or after. -/
def Obligations.LatchCommitsByMode : Prop :=
  ∀ (s : State) (a b : Lines), changedLines a b ≤ 1 →
    let t := chainUpdate a b s
    (a.le = .undriven ∨ b.le = .undriven → t.latch = .unknown) ∧
    (∀ x y, a.le = .driven x → b.le = .driven y →
      (s.cfg.latchMode = .risingEdge → t.latch = if x = false ∧ y = true then t.sr else s.latch) ∧
      (s.cfg.latchMode = .fallingEdge → t.latch = if x = true ∧ y = false then t.sr else s.latch) ∧
      (s.cfg.latchMode = .transparent → t.latch = if y = true then t.sr else s.latch))

/-- 20 R73, R75, R77: with no other writer one register write changes at most one of DATA, CLK and LE; a change of
two makes every cell Unknown, an undriven clock makes SR Unknown. -/
def Obligations.OneWriteChangesOneLine : Prop :=
  (∀ (s : State) (b : BankId) (k : BitIx) (x : Bool) (r : OutReg), configLegal s.cfg = true →
    let old := match r with | .dir => s.dir.get b | .out => s.out.get b
    changedLines s.lines (setReg b r (withBit old k x) s).lines ≤ 1) ∧
  (∀ (s : State) (a b : Lines),
    (2 ≤ changedLines a b → (chainUpdate a b s).sr = .unknown ∧ (chainUpdate a b s).latch = .unknown) ∧
    (a.clk = .undriven ∨ b.clk = .undriven → (chainUpdate a b s).sr = .unknown))

/-- 20 R73, R75, R76: in a state that meets the invariant the chain is at rest, but for a transparent latch whose
strobe is High over cells it has not yet taken. -/
def Obligations.ChainRestsBetweenWrites : Prop :=
  ∀ s : State, s.Inv → (s.ChainAtRest ↔
    ¬ (s.cfg.latchMode = .transparent ∧ level s s.cfg.wiring.le = .driven true ∧ s.latch ≠ s.sr))

/-- 20 R80: shifting on the wired DATA and CLK never changes what the display shows, unless a transparent latch is
open. -/
def Obligations.ShiftingLeavesTheDisplay : Prop :=
  ∀ (s : State) (o : BitOrder) (x : Byte), configLegal s.cfg = true → s.SoleWriter →
    (∃ y, level s s.cfg.wiring.le = .driven y ∧ (s.cfg.latchMode = .transparent → y = false)) →
    let t := shiftOut s.cfg.wiring.data s.cfg.wiring.clk o x s
    t.latch = s.latch ∧ displayState t = displayState s ∧ ∀ k g, glow t k g = glow s k g

/-- 20 R79, 43 R161, R167: Disabled, every segment is dark; Enabled, a segment away from the colon position is
lit exactly when its bit of the displayed byte is 1 and dark exactly when it is 0; so are the two dots at the colon
position, where the other six bits' effect is any. Which byte is at the colon position is log 14's reading. -/
def Obligations.DisplayShowsTheLatchedBytes : Prop :=
  ∀ (s : State) (k : Fin 5) (x : Byte),
    (level s s.cfg.wiring.oe = .driven true → ∀ g, glow s k g = .dark) ∧
    (level s s.cfg.wiring.oe = .driven false → dispByte s k = cellsOfByte x →
      (s.cfg.posMap[k] ≠ s.cfg.colonPos → ∀ g, (glow s k g = .lit ↔ x.getLsbD (segBitOf s.cfg.segBit g).val = true) ∧
        (glow s k g = .dark ↔ x.getLsbD (segBitOf s.cfg.segBit g).val = false)) ∧
      (s.cfg.posMap[k] = s.cfg.colonPos →
        (glow s k .top = .lit ↔ x.getLsbD s.cfg.segBit.top.val = true) ∧
        (glow s k .top = .dark ↔ x.getLsbD s.cfg.segBit.top.val = false) ∧
        (glow s k .topRight = .lit ↔ x.getLsbD s.cfg.segBit.topRight.val = true) ∧
        (glow s k .topRight = .dark ↔ x.getLsbD s.cfg.segBit.topRight.val = false) ∧
        glow s k .middle = .any ∧ glow s k .dot = .any ∧ glow s k .bottom = .any ∧ glow s k .topLeft = .any ∧
        glow s k .bottomLeft = .any ∧ glow s k .bottomRight = .any))

/-- 43 R160, R162: under an admitted configuration every bit of a pattern byte names exactly one segment, and
digit 0 has exactly the bits of its six segments, not MIDDLE or DOT. -/
def Obligations.DigitZeroLightsItsSegments : Prop :=
  ∀ c : Config, configLegal c = true →
    (∀ j : Fin 8, ∃! g : Segment, segBitOf c.segBit g = j) ∧
    ∀ g : Segment, c.digits[0].getLsbD (segBitOf c.segBit g).val = decide (g ≠ .middle ∧ g ≠ .dot)

/-- 20 R51, R52, R58, R60: under an admitted configuration the nine registers have nine aligned addresses, each in
its bank's page, and no other address is a register. -/
def Obligations.RegisterAddresses : Prop :=
  ∀ c : Config, configLegal c = true →
    (∀ b r, registerAt c (addrOf c b r) = some (b, r) ∧ addrOf c b r % 4 = 0 ∧
      windowAddr c b (offsetOf c r) = some (addrOf c b r)) ∧
    (∀ a b r, registerAt c a = some (b, r) → a = addrOf c b r)

/-- 20 R53 to R55, R58, 70 R242: a physical access of four bytes at a register's address of an open bank is the
volatile access, IN is never written, and every other access is refused: of a bank that is not open, at another
address, of another width. The refusals' names are the model's (log 12). -/
def Obligations.PhysicalAccessReachesOnlyRegisters : Prop :=
  ∀ (s : State) (b : BankId) (v : Word), configLegal s.cfg = true →
    (bankOpen s b = true →
      (∀ r, memRead (addrOf s.cfg b r) 4 s = .next (vRead b r s)) ∧
      (∀ r : OutReg, memWrite (addrOf s.cfg b r.toReg) 4 v s = .next (vWrite b r v s)) ∧
      memWrite (addrOf s.cfg b .inp) 4 v s = .refused .dataInWrite) ∧
    (bankOpen s b = false → ∀ r, memRead (addrOf s.cfg b r) 4 s = .refused .pageNotMapped ∧
      memWrite (addrOf s.cfg b r) 4 v s = .refused .pageNotMapped) ∧
    (∀ a, (∀ b r, a ≠ addrOf s.cfg b r) →
      memRead a 4 s = .refused .outsideRegisters ∧ memWrite a 4 v s = .refused .outsideRegisters) ∧
    (∀ a n, n ≠ 4 → memRead a n s = .refused .accessWidth ∧ memWrite a n v s = .refused .accessWidth)
end

