-- ==== Sys2Proof/Laws/State.lean ====
section
/-! SUPPORT. One lemma for each field of each named update: what it leaves, and what it writes. -/

namespace Sys2Proof.Machine

/-! ### One value for each bank -/

@[simp] theorem perBank_get_const {α : Type} (x : α) (b : BankId) : (PerBank.const x).get b = x := by
  cases b <;> rfl

@[simp] theorem perBank_get_set_self {α : Type} (f : PerBank α) (b : BankId) (x : α) : (f.set b x).get b = x := by
  cases b <;> rfl

theorem perBank_get_set {α : Type} (f : PerBank α) (b b' : BankId) (x : α) :
    (f.set b x).get b' = if b' = b then x else f.get b' := by
  cases b <;> cases b' <;> rfl

@[simp] theorem perBank_get_set_other {α : Type} (f : PerBank α) {b b' : BankId} (x : α) (h : b' ≠ b) :
    (f.set b x).get b' = f.get b' := by
  rw [perBank_get_set, if_neg h]

@[simp] theorem perBank_set_set {α : Type} (f : PerBank α) (b : BankId) (x y : α) :
    (f.set b x).set b y = f.set b y := by
  cases b <;> rfl

@[simp] theorem perBank_set_get {α : Type} (f : PerBank α) (b : BankId) : f.set b (f.get b) = f := by
  cases b <;> rfl

theorem perBank_ext {α : Type} {f g : PerBank α} (h : ∀ b, f.get b = g.get b) : f = g := by
  obtain ⟨a, b, c⟩ := f
  obtain ⟨a', b', c'⟩ := g
  have h0 := h .b0
  have h1 := h .b1
  have h2 := h .b2
  simp only [PerBank.get] at h0 h1 h2
  subst h0 h1 h2
  rfl


/-! ### `record` -/

@[simp] theorem record_cfg (e : Event) (s : State) : (record e s).cfg = s.cfg := rfl
@[simp] theorem record_fd (e : Event) (s : State) : (record e s).fd = s.fd := rfl
@[simp] theorem record_map (e : Event) (s : State) : (record e s).map = s.map := rfl
@[simp] theorem record_dir (e : Event) (s : State) : (record e s).dir = s.dir := rfl
@[simp] theorem record_out (e : Event) (s : State) : (record e s).out = s.out := rfl
@[simp] theorem record_pc (e : Event) (s : State) : (record e s).pc = s.pc := rfl
@[simp] theorem record_res (e : Event) (s : State) : (record e s).res = s.res := rfl
@[simp] theorem record_drv (e : Event) (s : State) : (record e s).drv = s.drv := rfl
@[simp] theorem record_sr (e : Event) (s : State) : (record e s).sr = s.sr := rfl
@[simp] theorem record_latch (e : Event) (s : State) : (record e s).latch = s.latch := rfl
@[simp] theorem record_phase (e : Event) (s : State) : (record e s).phase = s.phase := rfl
@[simp] theorem record_trace (e : Event) (s : State) : (record e s).trace = s.trace ++ [e] := rfl
@[simp] theorem record_commands (e : Event) (s : State) : (record e s).commands = s.commands := rfl
@[simp] theorem record_env (e : Event) (s : State) : (record e s).env = s.env := rfl

/-! ### `complete` -/

@[simp] theorem complete_cfg (s : State) : (complete s).cfg = s.cfg := rfl
@[simp] theorem complete_fd (s : State) : (complete s).fd = s.fd := rfl
@[simp] theorem complete_map (s : State) : (complete s).map = s.map := rfl
@[simp] theorem complete_dir (s : State) : (complete s).dir = s.dir := rfl
@[simp] theorem complete_out (s : State) : (complete s).out = s.out := rfl
@[simp] theorem complete_pc (s : State) : (complete s).pc = s.pc + 1 := rfl
@[simp] theorem complete_res (s : State) : (complete s).res = s.res := rfl
@[simp] theorem complete_drv (s : State) : (complete s).drv = s.drv := rfl
@[simp] theorem complete_sr (s : State) : (complete s).sr = s.sr := rfl
@[simp] theorem complete_latch (s : State) : (complete s).latch = s.latch := rfl
@[simp] theorem complete_phase (s : State) : (complete s).phase = s.phase := rfl
@[simp] theorem complete_trace (s : State) : (complete s).trace = s.trace := rfl
@[simp] theorem complete_commands (s : State) : (complete s).commands = s.commands := rfl
@[simp] theorem complete_env (s : State) : (complete s).env = s.env := rfl

/-! ### `placeWord` -/

@[simp] theorem placeWord_cfg (w : CmdWord) (s : State) : (placeWord w s).cfg = s.cfg := rfl
@[simp] theorem placeWord_fd (w : CmdWord) (s : State) : (placeWord w s).fd = s.fd := rfl
@[simp] theorem placeWord_map (w : CmdWord) (s : State) : (placeWord w s).map = s.map := rfl
@[simp] theorem placeWord_dir (w : CmdWord) (s : State) : (placeWord w s).dir = s.dir := rfl
@[simp] theorem placeWord_out (w : CmdWord) (s : State) : (placeWord w s).out = s.out := rfl
@[simp] theorem placeWord_pc (w : CmdWord) (s : State) : (placeWord w s).pc = s.pc := rfl
@[simp] theorem placeWord_res (w : CmdWord) (s : State) : (placeWord w s).res = s.res := rfl
@[simp] theorem placeWord_drv (w : CmdWord) (s : State) : (placeWord w s).drv = s.drv := rfl
@[simp] theorem placeWord_sr (w : CmdWord) (s : State) : (placeWord w s).sr = s.sr := rfl
@[simp] theorem placeWord_latch (w : CmdWord) (s : State) : (placeWord w s).latch = s.latch := rfl
@[simp] theorem placeWord_phase (w : CmdWord) (s : State) : (placeWord w s).phase = s.phase := rfl
@[simp] theorem placeWord_trace (w : CmdWord) (s : State) : (placeWord w s).trace = s.trace := rfl
@[simp] theorem placeWord_commands (w : CmdWord) (s : State) : (placeWord w s).commands = w :: s.commands := rfl
@[simp] theorem placeWord_env (w : CmdWord) (s : State) : (placeWord w s).env = s.env := rfl

/-! ### `setReg` of DIR -/

@[simp] theorem setDir_cfg (b : BankId) (v : Word) (s : State) : (setReg b .dir v s).cfg = s.cfg := rfl
@[simp] theorem setDir_fd (b : BankId) (v : Word) (s : State) : (setReg b .dir v s).fd = s.fd := rfl
@[simp] theorem setDir_map (b : BankId) (v : Word) (s : State) : (setReg b .dir v s).map = s.map := rfl
@[simp] theorem setDir_dir (b : BankId) (v : Word) (s : State) : (setReg b .dir v s).dir = s.dir.set b v := rfl
@[simp] theorem setDir_out (b : BankId) (v : Word) (s : State) : (setReg b .dir v s).out = s.out := rfl
@[simp] theorem setDir_pc (b : BankId) (v : Word) (s : State) : (setReg b .dir v s).pc = s.pc := rfl
@[simp] theorem setDir_res (b : BankId) (v : Word) (s : State) : (setReg b .dir v s).res = s.res := rfl
@[simp] theorem setDir_drv (b : BankId) (v : Word) (s : State) : (setReg b .dir v s).drv = s.drv := rfl
@[simp] theorem setDir_sr (b : BankId) (v : Word) (s : State) : (setReg b .dir v s).sr = s.sr := rfl
@[simp] theorem setDir_latch (b : BankId) (v : Word) (s : State) : (setReg b .dir v s).latch = s.latch := rfl
@[simp] theorem setDir_phase (b : BankId) (v : Word) (s : State) : (setReg b .dir v s).phase = s.phase := rfl
@[simp] theorem setDir_trace (b : BankId) (v : Word) (s : State) : (setReg b .dir v s).trace = s.trace := rfl
@[simp] theorem setDir_commands (b : BankId) (v : Word) (s : State) : (setReg b .dir v s).commands = s.commands := rfl
@[simp] theorem setDir_env (b : BankId) (v : Word) (s : State) : (setReg b .dir v s).env = s.env := rfl

/-! ### `setReg` of OUT -/

@[simp] theorem setOut_cfg (b : BankId) (v : Word) (s : State) : (setReg b .out v s).cfg = s.cfg := rfl
@[simp] theorem setOut_fd (b : BankId) (v : Word) (s : State) : (setReg b .out v s).fd = s.fd := rfl
@[simp] theorem setOut_map (b : BankId) (v : Word) (s : State) : (setReg b .out v s).map = s.map := rfl
@[simp] theorem setOut_dir (b : BankId) (v : Word) (s : State) : (setReg b .out v s).dir = s.dir := rfl
@[simp] theorem setOut_out (b : BankId) (v : Word) (s : State) : (setReg b .out v s).out = s.out.set b v := rfl
@[simp] theorem setOut_pc (b : BankId) (v : Word) (s : State) : (setReg b .out v s).pc = s.pc := rfl
@[simp] theorem setOut_res (b : BankId) (v : Word) (s : State) : (setReg b .out v s).res = s.res := rfl
@[simp] theorem setOut_drv (b : BankId) (v : Word) (s : State) : (setReg b .out v s).drv = s.drv := rfl
@[simp] theorem setOut_sr (b : BankId) (v : Word) (s : State) : (setReg b .out v s).sr = s.sr := rfl
@[simp] theorem setOut_latch (b : BankId) (v : Word) (s : State) : (setReg b .out v s).latch = s.latch := rfl
@[simp] theorem setOut_phase (b : BankId) (v : Word) (s : State) : (setReg b .out v s).phase = s.phase := rfl
@[simp] theorem setOut_trace (b : BankId) (v : Word) (s : State) : (setReg b .out v s).trace = s.trace := rfl
@[simp] theorem setOut_commands (b : BankId) (v : Word) (s : State) : (setReg b .out v s).commands = s.commands := rfl
@[simp] theorem setOut_env (b : BankId) (v : Word) (s : State) : (setReg b .out v s).env = s.env := rfl

/-! ### `chainUpdate` -/

@[simp] theorem chainUpdate_cfg (a b : Lines) (s : State) : (chainUpdate a b s).cfg = s.cfg := by unfold chainUpdate; split <;> rfl
@[simp] theorem chainUpdate_fd (a b : Lines) (s : State) : (chainUpdate a b s).fd = s.fd := by unfold chainUpdate; split <;> rfl
@[simp] theorem chainUpdate_map (a b : Lines) (s : State) : (chainUpdate a b s).map = s.map := by unfold chainUpdate; split <;> rfl
@[simp] theorem chainUpdate_dir (a b : Lines) (s : State) : (chainUpdate a b s).dir = s.dir := by unfold chainUpdate; split <;> rfl
@[simp] theorem chainUpdate_out (a b : Lines) (s : State) : (chainUpdate a b s).out = s.out := by unfold chainUpdate; split <;> rfl
@[simp] theorem chainUpdate_pc (a b : Lines) (s : State) : (chainUpdate a b s).pc = s.pc := by unfold chainUpdate; split <;> rfl
@[simp] theorem chainUpdate_res (a b : Lines) (s : State) : (chainUpdate a b s).res = s.res := by unfold chainUpdate; split <;> rfl
@[simp] theorem chainUpdate_drv (a b : Lines) (s : State) : (chainUpdate a b s).drv = s.drv := by unfold chainUpdate; split <;> rfl
@[simp] theorem chainUpdate_phase (a b : Lines) (s : State) : (chainUpdate a b s).phase = s.phase := by unfold chainUpdate; split <;> rfl
@[simp] theorem chainUpdate_trace (a b : Lines) (s : State) : (chainUpdate a b s).trace = s.trace := by unfold chainUpdate; split <;> rfl
@[simp] theorem chainUpdate_commands (a b : Lines) (s : State) : (chainUpdate a b s).commands = s.commands := by unfold chainUpdate; split <;> rfl
@[simp] theorem chainUpdate_env (a b : Lines) (s : State) : (chainUpdate a b s).env = s.env := by unfold chainUpdate; split <;> rfl

/-! ### `drawIn` -/

@[simp] theorem drawIn_cfg (s : State) : (drawIn s).2.cfg = s.cfg := by unfold drawIn; split <;> rfl
@[simp] theorem drawIn_fd (s : State) : (drawIn s).2.fd = s.fd := by unfold drawIn; split <;> rfl
@[simp] theorem drawIn_map (s : State) : (drawIn s).2.map = s.map := by unfold drawIn; split <;> rfl
@[simp] theorem drawIn_dir (s : State) : (drawIn s).2.dir = s.dir := by unfold drawIn; split <;> rfl
@[simp] theorem drawIn_out (s : State) : (drawIn s).2.out = s.out := by unfold drawIn; split <;> rfl
@[simp] theorem drawIn_pc (s : State) : (drawIn s).2.pc = s.pc := by unfold drawIn; split <;> rfl
@[simp] theorem drawIn_res (s : State) : (drawIn s).2.res = s.res := by unfold drawIn; split <;> rfl
@[simp] theorem drawIn_drv (s : State) : (drawIn s).2.drv = s.drv := by unfold drawIn; split <;> rfl
@[simp] theorem drawIn_sr (s : State) : (drawIn s).2.sr = s.sr := by unfold drawIn; split <;> rfl
@[simp] theorem drawIn_latch (s : State) : (drawIn s).2.latch = s.latch := by unfold drawIn; split <;> rfl
@[simp] theorem drawIn_phase (s : State) : (drawIn s).2.phase = s.phase := by unfold drawIn; split <;> rfl
@[simp] theorem drawIn_trace (s : State) : (drawIn s).2.trace = s.trace := by unfold drawIn; split <;> rfl
@[simp] theorem drawIn_commands (s : State) : (drawIn s).2.commands = s.commands := by unfold drawIn; split <;> rfl

/-! ### `drawSetup` -/

@[simp] theorem drawSetup_cfg (s : State) : (drawSetup s).2.cfg = s.cfg := by unfold drawSetup; split <;> rfl
@[simp] theorem drawSetup_fd (s : State) : (drawSetup s).2.fd = s.fd := by unfold drawSetup; split <;> rfl
@[simp] theorem drawSetup_map (s : State) : (drawSetup s).2.map = s.map := by unfold drawSetup; split <;> rfl
@[simp] theorem drawSetup_dir (s : State) : (drawSetup s).2.dir = s.dir := by unfold drawSetup; split <;> rfl
@[simp] theorem drawSetup_out (s : State) : (drawSetup s).2.out = s.out := by unfold drawSetup; split <;> rfl
@[simp] theorem drawSetup_pc (s : State) : (drawSetup s).2.pc = s.pc := by unfold drawSetup; split <;> rfl
@[simp] theorem drawSetup_res (s : State) : (drawSetup s).2.res = s.res := by unfold drawSetup; split <;> rfl
@[simp] theorem drawSetup_drv (s : State) : (drawSetup s).2.drv = s.drv := by unfold drawSetup; split <;> rfl
@[simp] theorem drawSetup_sr (s : State) : (drawSetup s).2.sr = s.sr := by unfold drawSetup; split <;> rfl
@[simp] theorem drawSetup_latch (s : State) : (drawSetup s).2.latch = s.latch := by unfold drawSetup; split <;> rfl
@[simp] theorem drawSetup_phase (s : State) : (drawSetup s).2.phase = s.phase := by unfold drawSetup; split <;> rfl
@[simp] theorem drawSetup_trace (s : State) : (drawSetup s).2.trace = s.trace := by unfold drawSetup; split <;> rfl
@[simp] theorem drawSetup_commands (s : State) : (drawSetup s).2.commands = s.commands := by unfold drawSetup; split <;> rfl

/-! ### `drawWrites` -/

@[simp] theorem drawWrites_cfg (s : State) : (drawWrites s).2.cfg = s.cfg := by unfold drawWrites; split <;> rfl
@[simp] theorem drawWrites_fd (s : State) : (drawWrites s).2.fd = s.fd := by unfold drawWrites; split <;> rfl
@[simp] theorem drawWrites_map (s : State) : (drawWrites s).2.map = s.map := by unfold drawWrites; split <;> rfl
@[simp] theorem drawWrites_dir (s : State) : (drawWrites s).2.dir = s.dir := by unfold drawWrites; split <;> rfl
@[simp] theorem drawWrites_out (s : State) : (drawWrites s).2.out = s.out := by unfold drawWrites; split <;> rfl
@[simp] theorem drawWrites_pc (s : State) : (drawWrites s).2.pc = s.pc := by unfold drawWrites; split <;> rfl
@[simp] theorem drawWrites_res (s : State) : (drawWrites s).2.res = s.res := by unfold drawWrites; split <;> rfl
@[simp] theorem drawWrites_drv (s : State) : (drawWrites s).2.drv = s.drv := by unfold drawWrites; split <;> rfl
@[simp] theorem drawWrites_sr (s : State) : (drawWrites s).2.sr = s.sr := by unfold drawWrites; split <;> rfl
@[simp] theorem drawWrites_latch (s : State) : (drawWrites s).2.latch = s.latch := by unfold drawWrites; split <;> rfl
@[simp] theorem drawWrites_phase (s : State) : (drawWrites s).2.phase = s.phase := by unfold drawWrites; split <;> rfl
@[simp] theorem drawWrites_trace (s : State) : (drawWrites s).2.trace = s.trace := by unfold drawWrites; split <;> rfl
@[simp] theorem drawWrites_commands (s : State) : (drawWrites s).2.commands = s.commands := by unfold drawWrites; split <;> rfl

theorem drawIn_listed {s : State} {v : Word} {rest : List Word} (h : s.env.inDraws = v :: rest) :
    drawIn s = (v, { s with env := { s.env with inDraws := rest } }) := by
  unfold drawIn; rw [h]

theorem drawSetup_listed {s : State} {v : SetupOutcome} {rest : List SetupOutcome}
    (h : s.env.setupDraws = v :: rest) :
    drawSetup s = (v, { s with env := { s.env with setupDraws := rest } }) := by
  unfold drawSetup; rw [h]

theorem drawWrites_listed {s : State} {v : List EnvWrite} {rest : List (List EnvWrite)}
    (h : s.env.writerDraws = v :: rest) :
    drawWrites s = (v, { s with env := { s.env with writerDraws := rest } }) := by
  unfold drawWrites; rw [h]

@[simp] theorem drawWrites_inDraws (s : State) : (drawWrites s).2.env.inDraws = s.env.inDraws := by
  unfold drawWrites; split <;> rfl

@[simp] theorem drawWrites_setupDraws (s : State) : (drawWrites s).2.env.setupDraws = s.env.setupDraws := by
  unfold drawWrites; split <;> rfl

end Sys2Proof.Machine
end

