-- ==== Sys2Proof/Laws/Access.lean ====
section
/-! SUPPORT. What a register access, and every procedure made of accesses, can do: one lemma for each. -/

namespace Sys2Proof.Machine

/-! ### Readings of the trace -/

/-- `e` is a read of a register of bank `b`, or a write of one of its registers that satisfy `R`. -/
inductive AccessOf (R : OutReg → Prop) (b : BankId) : Event → Prop where
  | rd (r : Reg) (v : Word) : AccessOf R b (.rd b r v)
  | wr (r : OutReg) (v : Word) (h : R r) : AccessOf R b (.wr b r.toReg v)

theorem AccessOf.isAccess {R : OutReg → Prop} {b : BankId} {e : Event} (h : AccessOf R b e) :
    isAccess e = true := by
  cases h <;> rfl

theorem replay_append (regs : PerBank Word × PerBank Word) (xs ys : List Event) :
    replay regs (xs ++ ys) = (replay regs xs).bind fun r => replay r ys := by
  induction xs generalizing regs with
  | nil => rfl
  | cons e es ih =>
    simp only [List.cons_append, replay]
    split
    · rfl
    · exact ih _

/-- Events that leave the registers as they are are replayed in any list. -/
theorem replay_of_quiet (regs : PerBank Word × PerBank Word) (es : List Event)
    (h : ∀ e ∈ es, isAccess e = false) : replay regs es = some regs := by
  induction es with
  | nil => rfl
  | cons e es ih =>
    have he := h e (by simp)
    have hes := ih fun x hx => h x (by simp [hx])
    cases e <;> simp_all [replay, staleRead, applyEvent, isAccess]

/-- A replay changes the registers of the banks it accesses only. -/
theorem replay_frame {R : OutReg → Prop} {regs regs' : PerBank Word × PerBank Word} {es : List Event} {b : BankId}
    (h : replay regs es = some regs') (hb : ∀ e ∈ es, isAccess e = true → ∃ b', b' ≠ b ∧ AccessOf R b' e) :
    regs'.1.get b = regs.1.get b ∧ regs'.2.get b = regs.2.get b := by
  induction es generalizing regs with
  | nil =>
    simp only [replay, Option.some.injEq] at h
    subst h; exact ⟨rfl, rfl⟩
  | cons e es ih =>
    simp only [replay] at h
    split at h
    · cases h
    · have hrest := ih h fun x hx => hb x (by simp [hx])
      have he := hb e (by simp)
      cases e with
      | wr b' r v =>
        obtain ⟨b'', hne, ha⟩ := he rfl
        cases ha with
        | wr r v =>
          cases r <;> simp_all [applyEvent, OutReg.toReg, Ne.symm]
      | _ => simpa [applyEvent] using hrest

/-- A replay of events that write one kind of register only leaves the other kind. -/
theorem replay_other_kind {R : OutReg → Prop} {regs regs' : PerBank Word × PerBank Word} {es : List Event}
    (h : replay regs es = some regs') (he : ∀ e ∈ es, ∃ b, AccessOf R b e) :
    (¬ R .dir → regs'.1 = regs.1) ∧ (¬ R .out → regs'.2 = regs.2) := by
  induction es generalizing regs with
  | nil =>
    simp only [replay, Option.some.injEq] at h
    subst h; exact ⟨fun _ => rfl, fun _ => rfl⟩
  | cons e es ih =>
    simp only [replay] at h
    split at h
    · cases h
    · have hrest := ih h fun x hx => he x (by simp [hx])
      obtain ⟨b, ha⟩ := he e (by simp)
      cases ha with
      | rd r v => cases r <;> simpa [applyEvent] using hrest
      | wr r v hr =>
        cases r with
        | dir => exact ⟨fun hn => absurd hr hn, fun hn => by simpa [applyEvent, OutReg.toReg] using hrest.2 hn⟩
        | out => exact ⟨fun hn => by simpa [applyEvent, OutReg.toReg] using hrest.1 hn, fun hn => absurd hr hn⟩

/-! ### The chain -/

/-- Cells are Unknown while the line that clocks or strobes them floats (20 R75, R76). -/
structure Floating (s : State) : Prop where
  clock : level s s.cfg.wiring.clk = .undriven → s.sr = .unknown
  latch : level s s.cfg.wiring.le = .undriven → s.latch = .unknown

theorem Inv_floating {s : State} (h : s.Inv) : Floating s := ⟨h.floating_clock, h.floating_latch⟩

@[simp] theorem chainUpdate_lines (a b : Lines) (s : State) : (chainUpdate a b s).lines = s.lines := by
  simp [State.lines]

@[simp] theorem chainUpdate_level (a b : Lines) (s : State) (p : Pin) :
    level (chainUpdate a b s) p = level s p := by
  simp [level]

theorem chainUpdate_clock_undriven {a b : Lines} (s : State) (h : b.clk = .undriven) :
    (chainUpdate a b s).sr = .unknown := by
  unfold chainUpdate
  split
  · rfl
  · simp only [h, clockRule]
    rcases a.clk with (_ | _) | _ <;> rfl

theorem chainUpdate_latch_undriven {a b : Lines} (s : State) (h : b.le = .undriven) :
    (chainUpdate a b s).latch = .unknown := by
  unfold chainUpdate
  split
  · rfl
  · simp only [h, latchRule]
    cases a.le <;> rfl

/-- After any ChainUpdate to the lines as they stand, floating lines have Unknown cells. -/
theorem chainUpdate_floating (a : Lines) (s : State) : Floating (chainUpdate a s.lines s) where
  clock h := by
    rw [chainUpdate_level, chainUpdate_cfg] at h
    exact chainUpdate_clock_undriven s h
  latch h := by
    rw [chainUpdate_level, chainUpdate_cfg] at h
    exact chainUpdate_latch_undriven s h

/-! ### Procedures made of accesses -/

/-- What accesses of the banks that satisfy `P`, with writes of the registers that satisfy `R`, can do. -/
structure AccessOn (P : BankId → Prop) (R : OutReg → Prop) (s t : State) : Prop where
  control : s.KeepsControl t
  pc : t.pc = s.pc
  res : t.res = s.res
  floating : Floating s → Floating t
  trace : ∃ evs, t.trace = s.trace ++ evs ∧ (∀ e ∈ evs, ∃ b, P b ∧ AccessOf R b e) ∧
    (s.SoleWriter → replay (s.dir, s.out) evs = some (t.dir, t.out))

theorem State.KeepsControl.refl (s : State) : s.KeepsControl s := ⟨rfl, rfl, rfl, rfl, rfl, rfl⟩

theorem State.KeepsControl.trans {s t u : State} (h : s.KeepsControl t) (h' : t.KeepsControl u) :
    s.KeepsControl u :=
  ⟨h'.cfg.trans h.cfg, h'.fd.trans h.fd, h'.map.trans h.map, h'.drv.trans h.drv,
    h'.phase.trans h.phase, h'.commands.trans h.commands⟩

theorem State.KeepsRegisters.refl (s : State) : s.KeepsRegisters s := ⟨rfl, rfl, rfl, rfl⟩

theorem State.KeepsRegisters.trans {s t u : State} (h : s.KeepsRegisters t) (h' : t.KeepsRegisters u) :
    s.KeepsRegisters u :=
  ⟨h'.dir.trans h.dir, h'.out.trans h.out, h'.sr.trans h.sr, h'.latch.trans h.latch⟩

theorem soleWriter_of_cfg {s t : State} (h : t.cfg = s.cfg) : t.SoleWriter ↔ s.SoleWriter := by
  simp [State.SoleWriter, h]

theorem AccessOn.refl (P : BankId → Prop) (R : OutReg → Prop) (s : State) : AccessOn P R s s where
  control := .refl s
  pc := rfl
  res := rfl
  floating := id
  trace := ⟨[], by simp, by simp, fun _ => rfl⟩

theorem AccessOn.trans {P : BankId → Prop} {R : OutReg → Prop} {s t u : State} (h : AccessOn P R s t) (h' : AccessOn P R t u) :
    AccessOn P R s u where
  control := h.control.trans h'.control
  pc := h'.pc.trans h.pc
  res := h'.res.trans h.res
  floating := h'.floating ∘ h.floating
  trace := by
    obtain ⟨e1, t1, p1, r1⟩ := h.trace
    obtain ⟨e2, t2, p2, r2⟩ := h'.trace
    refine ⟨e1 ++ e2, by rw [t2, t1, List.append_assoc], ?_, fun hs => ?_⟩
    · intro e he
      rcases List.mem_append.mp he with he | he
      exacts [p1 e he, p2 e he]
    · rw [replay_append, r1 hs]
      exact r2 ((soleWriter_of_cfg h.control.cfg).mpr hs)

theorem AccessOn.mono {P Q : BankId → Prop} {R : OutReg → Prop} {s t : State} (hPQ : ∀ b, P b → Q b)
    (h : AccessOn P R s t) : AccessOn Q R s t :=
  { h with
    trace := by
      obtain ⟨evs, ht, hp, hr⟩ := h.trace
      exact ⟨evs, ht, fun e he => (hp e he).imp fun b hb => ⟨hPQ b hb.1, hb.2⟩, hr⟩ }

/-- With no other writer, a bank outside `P` keeps its registers. -/
theorem AccessOn.other_bank {P : BankId → Prop} {R : OutReg → Prop} {s t : State} (h : AccessOn P R s t) (hs : s.SoleWriter)
    {b : BankId} (hb : ¬ P b) : t.dir.get b = s.dir.get b ∧ t.out.get b = s.out.get b := by
  obtain ⟨evs, -, hp, hr⟩ := h.trace
  refine replay_frame (R := R) (regs := (s.dir, s.out)) (hr hs) fun e he _ => ?_
  obtain ⟨b', hP, ha⟩ := hp e he
  exact ⟨b', fun h => hb (h ▸ hP), ha⟩

/-- With no other writer, registers of a kind outside `R` keep their values. -/
theorem AccessOn.other_kind {P : BankId → Prop} {R : OutReg → Prop} {s t : State} (h : AccessOn P R s t)
    (hs : s.SoleWriter) : (¬ R .dir → t.dir = s.dir) ∧ (¬ R .out → t.out = s.out) := by
  obtain ⟨evs, -, hp, hr⟩ := h.trace
  exact replay_other_kind (hr hs) fun e he => (hp e he).imp fun b hb => hb.2

/-- With no other writer there is nothing in a gap (20 R64). -/
theorem gap_of_sole {s : State} (h : s.SoleWriter) : gap s = s := by
  have h' : s.cfg.externalWriters = false := h
  simp [gap, h']

theorem envReplace_accessOn (P : BankId → Prop) (R : OutReg → Prop) (s : State) (w : EnvWrite) (hx : ¬ s.SoleWriter) :
    AccessOn P R s (envReplace s w) where
  control := by constructor <;> simp [envReplace]
  pc := by simp [envReplace]
  res := by simp [envReplace]
  floating := fun _ => chainUpdate_floating _ _
  trace := ⟨[], by simp [envReplace], by simp, fun h => absurd h hx⟩

theorem gap_accessOn (P : BankId → Prop) (R : OutReg → Prop) (s : State) : AccessOn P R s (gap s) := by
  unfold gap
  split
  case isFalse => exact .refl P R s
  case isTrue h =>
    have hx : ¬ s.SoleWriter := by
      intro hs
      have hs' : s.cfg.externalWriters = false := hs
      simp [hs'] at h
    have hdraw : AccessOn P R s (drawWrites s).2 :=
      { control := by constructor <;> simp
        pc := by simp
        res := by simp
        floating := fun hf => ⟨by simpa [level] using hf.clock, by simpa [level] using hf.latch⟩
        trace := ⟨[], by simp, by simp, fun h => absurd h hx⟩ }
    have hfold : ∀ (ws : List EnvWrite) (u : State), ¬ u.SoleWriter → AccessOn P R u (ws.foldl envReplace u) := by
      intro ws
      induction ws with
      | nil => exact fun u _ => .refl P R u
      | cons w ws ih =>
        intro u hu
        have h1 := envReplace_accessOn P R u w hu
        exact h1.trans (ih _ fun h => hu ((soleWriter_of_cfg h1.control.cfg).mp h))
    exact hdraw.trans (hfold _ _ fun h => hx ((soleWriter_of_cfg hdraw.control.cfg).mp h))

theorem gap_fields (s : State) : s.KeepsControl (gap s) ∧ (gap s).pc = s.pc ∧ (gap s).res = s.res ∧
    (Floating s → Floating (gap s)) :=
  ⟨(gap_accessOn (fun _ => True) (fun _ => True) s).control, (gap_accessOn (fun _ => True) (fun _ => True) s).pc,
    (gap_accessOn (fun _ => True) (fun _ => True) s).res, (gap_accessOn (fun _ => True) (fun _ => True) s).floating⟩

@[simp] theorem gap_cfg (s : State) : (gap s).cfg = s.cfg := (gap_fields s).1.cfg
@[simp] theorem gap_fd (s : State) : (gap s).fd = s.fd := (gap_fields s).1.fd
@[simp] theorem gap_map (s : State) : (gap s).map = s.map := (gap_fields s).1.map
@[simp] theorem gap_drv (s : State) : (gap s).drv = s.drv := (gap_fields s).1.drv
@[simp] theorem gap_phase (s : State) : (gap s).phase = s.phase := (gap_fields s).1.phase
@[simp] theorem gap_commands (s : State) : (gap s).commands = s.commands := (gap_fields s).1.commands
@[simp] theorem gap_pc (s : State) : (gap s).pc = s.pc := (gap_fields s).2.1
@[simp] theorem gap_res (s : State) : (gap s).res = s.res := (gap_fields s).2.2.1

theorem envReplace_trace (s : State) (w : EnvWrite) : (envReplace s w).trace = s.trace := by simp [envReplace]

theorem envReplaces_keep {α : Type} (g : State → α) (hg : ∀ s w, g (envReplace s w) = g s)
    (ws : List EnvWrite) (s : State) : g (ws.foldl envReplace s) = g s := by
  induction ws generalizing s with
  | nil => rfl
  | cons w ws ih => exact (ih _).trans (hg s w)

@[simp] theorem gap_trace (s : State) : (gap s).trace = s.trace := by
  unfold gap
  split
  · exact (envReplaces_keep State.trace envReplace_trace _ _).trans (drawWrites_trace s)
  · rfl

@[simp] theorem gap_inDraws (s : State) : (gap s).env.inDraws = s.env.inDraws := by
  unfold gap
  split
  · exact (envReplaces_keep (·.env.inDraws) (by simp [envReplace]) _ _).trans (drawWrites_inDraws s)
  · rfl

@[simp] theorem gap_setupDraws (s : State) : (gap s).env.setupDraws = s.env.setupDraws := by
  unfold gap
  split
  · exact (envReplaces_keep (·.env.setupDraws) (by simp [envReplace]) _ _).trans (drawWrites_setupDraws s)
  · rfl

/-- The state in which a read returns and its event is recorded. -/
theorem vRead_accessOn {P : BankId → Prop} {R : OutReg → Prop} {b : BankId} (hb : P b) (r : Reg) (s : State) :
    AccessOn P R s (vRead b r s).2 := by
  refine (gap_accessOn P R s).trans ?_
  cases r with
  | dir =>
    exact
      { control := by constructor <;> simp [vRead]
        pc := by simp [vRead]
        res := by simp [vRead]
        floating := fun hf => ⟨by simpa [vRead, level] using hf.clock, by simpa [vRead, level] using hf.latch⟩
        trace := ⟨[.rd b .dir ((gap s).dir.get b)], by simp [vRead], by
          simp only [List.mem_singleton, forall_eq]; exact ⟨b, hb, .rd _ _⟩, fun _ => by
          simp [vRead, replay, staleRead, applyEvent]⟩ }
  | out =>
    exact
      { control := by constructor <;> simp [vRead]
        pc := by simp [vRead]
        res := by simp [vRead]
        floating := fun hf => ⟨by simpa [vRead, level] using hf.clock, by simpa [vRead, level] using hf.latch⟩
        trace := ⟨[.rd b .out ((gap s).out.get b)], by simp [vRead], by
          simp only [List.mem_singleton, forall_eq]; exact ⟨b, hb, .rd _ _⟩, fun _ => by
          simp [vRead, replay, staleRead, applyEvent]⟩ }
  | inp =>
    exact
      { control := by constructor <;> simp [vRead]
        pc := by simp [vRead]
        res := by simp [vRead]
        floating := fun hf => ⟨by simpa [vRead, level] using hf.clock, by simpa [vRead, level] using hf.latch⟩
        trace := ⟨[.rd b .inp (drawIn (gap s)).1], by simp [vRead], by
          simp only [List.mem_singleton, forall_eq]; exact ⟨b, hb, .rd _ _⟩, fun _ => by
          simp [vRead, replay, staleRead, applyEvent]⟩ }

@[simp] theorem setReg_keeps (b : BankId) (r : OutReg) (v : Word) (s : State) : s.KeepsControl (setReg b r v s) := by
  cases r <;> exact ⟨rfl, rfl, rfl, rfl, rfl, rfl⟩

theorem vWrite_accessOn {P : BankId → Prop} {R : OutReg → Prop} {b : BankId} (hb : P b) {r : OutReg} (hr : R r) (v : Word) (s : State) :
    AccessOn P R s (vWrite b r v s) := by
  refine (gap_accessOn P R s).trans ?_
  refine
    { control := by cases r <;> constructor <;> simp [vWrite]
      pc := by cases r <;> simp [vWrite]
      res := by cases r <;> simp [vWrite]
      floating := fun _ => chainUpdate_floating _ _
      trace := ⟨[.wr b r.toReg v], by cases r <;> simp [vWrite], by
        simp only [List.mem_singleton, forall_eq]; exact ⟨b, hb, .wr _ _ hr⟩, fun _ => by
        cases r <;> simp [vWrite, replay, staleRead, applyEvent, OutReg.toReg]⟩ }

theorem bankWriteBit_accessOn {P : BankId → Prop} {R : OutReg → Prop} {b : BankId} (hb : P b) (hr : R .out) (k : BitVec 5) (x : Level) (s : State) :
    AccessOn P R s (bankWriteBit b k x s) :=
  (vRead_accessOn hb .out s).trans (vWrite_accessOn hb hr _ _)

theorem bankSetDir_accessOn {P : BankId → Prop} {R : OutReg → Prop} {b : BankId} (hb : P b) (hr : R .dir) (k : BitVec 5) (m : Mode) (s : State) :
    AccessOn P R s (bankSetDir b k m s) := by
  unfold bankSetDir
  split
  · exact (((vRead_accessOn hb .dir s).trans (vWrite_accessOn hb hr _ _)).trans
      (vRead_accessOn hb .dir _)).trans (vWrite_accessOn hb hr _ _)
  · exact (vRead_accessOn hb .dir s).trans (vWrite_accessOn hb hr _ _)

theorem pinSetMode_accessOn {P : BankId → Prop} {R : OutReg → Prop} {p : Pin} (hp : P p.bank) (hr : R .dir) (m : Mode) (s : State) :
    AccessOn P R s (pinSetMode s p m) := bankSetDir_accessOn hp hr _ _ _

theorem pinWrite_accessOn {P : BankId → Prop} {R : OutReg → Prop} {p : Pin} (hp : P p.bank) (hr : R .out) (y : Level) (s : State) :
    AccessOn P R s (pinWrite p y s) := bankWriteBit_accessOn hp hr _ _ _

theorem pinRead_accessOn {P : BankId → Prop} {R : OutReg → Prop} {p : Pin} (hp : P p.bank) (s : State) :
    AccessOn P R s (pinRead p s).2 := vRead_accessOn hp .inp s

theorem pinWrites_accessOn {P : BankId → Prop} {R : OutReg → Prop} (ws : List (Pin × Level)) (hr : R .out) (h : ∀ w ∈ ws, P w.1.bank) (s : State) :
    AccessOn P R s (pinWrites ws s) := by
  induction ws generalizing s with
  | nil => exact .refl P R s
  | cons w ws ih =>
    exact (pinWrite_accessOn (h w (by simp)) hr w.2 s).trans (ih (fun x hx => h x (by simp [hx])) _)

theorem setOutputs_accessOn {P : BankId → Prop} {R : OutReg → Prop} (ps : List Pin) (hr : R .dir) (h : ∀ p ∈ ps, P p.bank) (s : State) :
    AccessOn P R s (setOutputs ps s) := by
  induction ps generalizing s with
  | nil => exact .refl P R s
  | cons p ps ih =>
    exact (pinSetMode_accessOn (h p (by simp)) hr .output s).trans (ih (fun x hx => h x (by simp [hx])) _)

theorem driveOE_accessOn {P : BankId → Prop} {R : OutReg → Prop} (hr : R .out) (x : Level) (s : State)
    (h : P s.cfg.wiring.oe.bank) : AccessOn P R s (driveOE x s) := pinWrite_accessOn h hr _ _

theorem mem_shiftOutWrites {dp cp : Pin} {o : BitOrder} {x : Byte} {w : Pin × Level}
    (h : w ∈ shiftOutWrites dp cp o x) : w.1 = dp ∨ w.1 = cp := by
  simp only [shiftOutWrites, List.mem_flatMap, shiftBitWrites, List.mem_cons, List.not_mem_nil, or_false] at h
  obtain ⟨_, -, rfl | rfl | rfl⟩ := h
  exacts [.inl rfl, .inr rfl, .inr rfl]

theorem shiftOut_accessOn {P : BankId → Prop} {R : OutReg → Prop} {dp cp : Pin} (hr : R .out) (hd : P dp.bank)
    (hc : P cp.bank) (o : BitOrder) (x : Byte) (s : State) : AccessOn P R s (shiftOut dp cp o x s) :=
  pinWrites_accessOn _ hr (fun w hw => by rcases mem_shiftOutWrites hw with h | h <;> rw [h] <;> assumption) s

theorem mem_lsetWrites {w : Wiring} {bytes : List Byte} {x : Pin × Level} (h : x ∈ lsetWrites w bytes) :
    x.1 = w.data ∨ x.1 = w.clk ∨ x.1 = w.le := by
  simp only [lsetWrites, lsetBaseline, lsetShift, lsetCommit, List.mem_append, List.mem_cons,
    List.not_mem_nil, or_false, List.mem_flatMap] at h
  rcases h with ((rfl | rfl | rfl | rfl) | ⟨y, -, hy⟩) | rfl | rfl | rfl
  any_goals simp
  rcases mem_shiftOutWrites hy with h | h <;> simp [h]

theorem lset_accessOn {P : BankId → Prop} {R : OutReg → Prop} {w : Wiring} (hr : R .out) (hd : P w.data.bank)
    (hc : P w.clk.bank) (hl : P w.le.bank)
    (bytes : List Byte) (s : State) : AccessOn P R s (pinWrites (lsetWrites w bytes) s) :=
  pinWrites_accessOn _ hr (fun x hx => by rcases mem_lsetWrites hx with h | h | h <;> rw [h] <;> assumption) s

end Sys2Proof.Machine
end

