-- ==== Sys2Proof/Laws/Chain.lean ====
section
/-! SUPPORT. The cells of the chain, and what one register write does to the lines and to the chain when nobody
else writes. -/

namespace Sys2Proof.Machine

/-! ### Cells -/

theorem cellAt_eq_getElem (cs : Cells) {j : Nat} (h : j < 40) : cellAt cs j = cs[j] := by
  simp [cellAt, List.getD, h]

@[simp] theorem cellAt_unknown (j : Nat) : cellAt Cells.unknown j = .unknown := by
  by_cases h : j < 40
  · rw [cellAt_eq_getElem _ h]; simp [Cells.unknown]
  · simp [cellAt, List.getD, h]

theorem cells_ext {a b : Cells} (h : ∀ j, j < 40 → cellAt a j = cellAt b j) : a = b := by
  ext j hj
  rw [← cellAt_eq_getElem a hj, ← cellAt_eq_getElem b hj, h j hj]

@[simp] theorem cellAt_shiftIn_zero (d : Cell) (sr : Cells) : cellAt (shiftIn d sr) 0 = d := by
  rw [cellAt_eq_getElem _ (by decide)]; simp [shiftIn]

theorem cellAt_shiftIn_succ (d : Cell) (sr : Cells) {j : Nat} (h : j + 1 < 40) :
    cellAt (shiftIn d sr) (j + 1) = cellAt sr j := by
  rw [cellAt_eq_getElem _ h, cellAt_eq_getElem _ (by omega)]; simp [shiftIn, Vector.getElem_mk]

/-! ### One bit of a register -/

theorem getLsbD_mask (i : BitVec 5) (j : Nat) : (mask i).getLsbD j = decide (j = i.toNat) := by
  have hi := i.isLt
  simp only [mask, BitVec.getLsbD_shiftLeft, BitVec.getLsbD_one]
  by_cases h : j = i.toNat
  · subst h; simp; omega
  · simp [h]; omega

theorem getLsbD_withBit (v : Word) (i : BitVec 5) (x : Bool) (j : Nat) :
    (withBit v i x).getLsbD j = if j = i.toNat then x else v.getLsbD j := by
  have hi := i.isLt
  have hm := getLsbD_mask i j
  by_cases hj : j < 32
  · cases x
    · simp only [withBit, Bool.false_eq_true, if_false, BitVec.getLsbD_and, BitVec.getLsbD_not, hm]
      by_cases h : j = i.toNat <;> simp [h, hj]
    · simp only [withBit, if_true, BitVec.getLsbD_or, hm]
      by_cases h : j = i.toNat <;> simp [h]
  · rw [if_neg (by omega), BitVec.getLsbD_of_ge _ _ (by omega), BitVec.getLsbD_of_ge _ _ (by omega)]

theorem withBit_withBit (v : Word) (i : BitVec 5) (x y : Bool) : withBit (withBit v i x) i y = withBit v i y := by
  apply BitVec.eq_of_getLsbD_eq
  intro j _
  simp only [getLsbD_withBit]
  by_cases h : j = i.toNat <;> simp [h]

theorem outBit_set (s : State) (b b' : BankId) (k : BitVec 5) (x : Bool) (j : Nat) :
    ((s.out.set b (withBit (s.out.get b) k x)).get b').getLsbD j =
      if b' = b ∧ j = k.toNat then x else s.outBit b' j := by
  rw [perBank_get_set]
  by_cases hb : b' = b
  · subst hb; simp [getLsbD_withBit, State.outBit]
  · simp [hb, State.outBit]

theorem dirBit_set (s : State) (b b' : BankId) (k : BitVec 5) (x : Bool) (j : Nat) :
    ((s.dir.set b (withBit (s.dir.get b) k x)).get b').getLsbD j =
      if b' = b ∧ j = k.toNat then x else s.dirBit b' j := by
  rw [perBank_get_set]
  by_cases hb : b' = b
  · subst hb; simp [getLsbD_withBit, State.dirBit]
  · simp [hb, State.dirBit]

/-! ### Lines -/

theorem level_eq (s : State) (p : Pin) :
    level s p = if s.dirBit p.bank p.bit.toNat = s.cfg.dirDriveValue then .driven (s.outBit p.bank p.bit.toNat)
      else .undriven := by
  by_cases h : (s.dir.get p.bank).getLsbD p.bit.toNat = s.cfg.dirDriveValue
  · simp [level, lineLevel, h, State.outBit, State.dirBit]
  · simp [level, lineLevel, h, State.dirBit]

theorem level_driven {s : State} {p : Pin} (h : s.Drives p) :
    level s p = .driven (s.outBit p.bank p.bit.toNat) := by
  have h' : s.dirBit p.bank p.bit.toNat = s.cfg.dirDriveValue := h
  rw [level_eq, if_pos h']

/-- The four lines after a change of registers that leaves a pin's two bits leave its level. -/
theorem level_congr {s t : State} {p : Pin} (hc : t.cfg = s.cfg)
    (hd : t.dirBit p.bank p.bit.toNat = s.dirBit p.bank p.bit.toNat)
    (ho : t.outBit p.bank p.bit.toNat = s.outBit p.bank p.bit.toNat) : level t p = level s p := by
  rw [level_eq, level_eq, hc, hd, ho]

theorem lines_eq (s : State) :
    s.lines = ⟨level s s.cfg.wiring.data, level s s.cfg.wiring.clk, level s s.cfg.wiring.le,
      level s s.cfg.wiring.oe⟩ := rfl

/-- Different pairs of bank and bit are different lines. -/
theorem pinsApart_iff (p q : Pin) : pinsApart p q = true ↔ ¬ (p.bank = q.bank ∧ p.bit.toNat = q.bit.toNat) := by
  simp only [pinsApart, Bool.or_eq_true, bne_iff_ne, ne_eq, BitVec.toNat_inj]
  tauto

/-! ### One write -/

/-- A bit write when nobody else writes (40 R123): one read, one write, and the chain's reaction. -/
theorem bankWriteBit_sole {s : State} (hs : s.SoleWriter) (b : BankId) (k : BitVec 5) (x : Level) :
    let v := s.out.get b
    let s' : State := { s with out := s.out.set b (withBit v k x)
                               trace := s.trace ++ [.rd b .out v, .wr b .out (withBit v k x)] }
    bankWriteBit b k x s = chainUpdate s.lines s'.lines s' := by
  have h1 : gap s = s := gap_of_sole hs
  have h2 : gap (record (.rd b .out (s.out.get b)) s) = record (.rd b .out (s.out.get b)) s := gap_of_sole hs
  simp only [bankWriteBit, vRead, vWrite, h1, h2]
  simp [record, setReg, OutReg.toReg, State.lines]

@[simp] theorem bankWriteBit_dir {s : State} (hs : s.SoleWriter) (b : BankId) (k : BitVec 5) (x : Level) :
    (bankWriteBit b k x s).dir = s.dir := by
  rw [bankWriteBit_sole hs]; simp

theorem bankWriteBit_out {s : State} (hs : s.SoleWriter) (b : BankId) (k : BitVec 5) (x : Level) :
    (bankWriteBit b k x s).out = s.out.set b (withBit (s.out.get b) k x) := by
  rw [bankWriteBit_sole hs]; simp

theorem bankWriteBit_trace {s : State} (hs : s.SoleWriter) (b : BankId) (k : BitVec 5) (x : Level) :
    (bankWriteBit b k x s).trace =
      s.trace ++ [.rd b .out (s.out.get b), .wr b .out (withBit (s.out.get b) k x)] := by
  rw [bankWriteBit_sole hs]; simp

theorem bankWriteBit_outBit {s : State} (hs : s.SoleWriter) (b : BankId) (k : BitVec 5) (x : Level) (b' : BankId)
    (j : Nat) : (bankWriteBit b k x s).outBit b' j = if b' = b ∧ j = k.toNat then x else s.outBit b' j := by
  rw [State.outBit, bankWriteBit_out hs, outBit_set]

@[simp] theorem bankWriteBit_cfg (b : BankId) (k : BitVec 5) (x : Level) (s : State) :
    (bankWriteBit b k x s).cfg = s.cfg :=
  (bankWriteBit_accessOn (P := fun _ => True) (R := fun _ => True) trivial trivial k x s).control.cfg

/-- A register write when nobody else writes (20 R55). -/
theorem vWrite_sole {s : State} (hs : s.SoleWriter) (b : BankId) (r : OutReg) (v : Word) :
    vWrite b r v s = chainUpdate s.lines (record (.wr b r.toReg v) (setReg b r v s)).lines
      (record (.wr b r.toReg v) (setReg b r v s)) := by
  simp [vWrite, gap_of_sole hs]

/-- A read of DIR when nobody else writes (20 R54). -/
theorem vRead_dir_sole {s : State} (hs : s.SoleWriter) (b : BankId) :
    vRead b .dir s = (s.dir.get b, record (.rd b .dir (s.dir.get b)) s) := by
  simp [vRead, gap_of_sole hs]

/-- A direction change when nobody else writes (40 R122): the direction register afterwards, in both forms. -/
theorem bankSetDir_dir {s : State} (hs : s.SoleWriter) (b : BankId) (k : BitVec 5) (m : Mode) :
    (bankSetDir b k m s).dir = s.dir.set b (withBit (s.dir.get b) k m.toBit) := by
  have h1 : State.SoleWriter (record (.rd b .dir (s.dir.get b)) s) := hs
  unfold bankSetDir
  split
  · have h2 : State.SoleWriter (vWrite b .dir (withBit (s.dir.get b) k false) (record (.rd b .dir (s.dir.get b)) s)) := by
      rw [vWrite_sole h1]; simpa [State.SoleWriter] using hs
    have h3 : State.SoleWriter (vRead b .dir
        (vWrite b .dir (withBit (s.dir.get b) k false) (record (.rd b .dir (s.dir.get b)) s))).2 := by
      rw [vRead_dir_sole h2]; exact h2
    simp only [vRead_dir_sole hs]
    rw [vWrite_sole h3, vRead_dir_sole h2, vWrite_sole h1]
    simp [withBit_withBit]
  · simp only [vRead_dir_sole hs]
    rw [vWrite_sole h1]
    cases m <;> simp only [chainUpdate_dir, record_dir, setDir_dir]
    · rfl
    · congr 1
      apply BitVec.eq_of_getLsbD_eq
      intro j hj
      simp only [withBit, Mode.toBit, if_true, BitVec.getLsbD_or, BitVec.getLsbD_and, BitVec.getLsbD_not, getLsbD_mask]
      by_cases h : j = k.toNat
      · simp [h]
      · simp [h]; exact fun _ => hj

/-- A direction change leaves OUT when nobody else writes. -/
theorem bankSetDir_out {s : State} (hs : s.SoleWriter) (b : BankId) (k : BitVec 5) (m : Mode) :
    (bankSetDir b k m s).out = s.out :=
  ((bankSetDir_accessOn (P := fun _ => True) (R := fun r => r = .dir) trivial rfl k m s).other_kind hs).2 (by simp)

/-- A pin write when nobody else writes changes one line's level, if the line is driven. -/
theorem pinWrite_level {s : State} (hs : s.SoleWriter) (p q : Pin) (y : Level) :
    level (pinWrite p y s) q =
      if q.bank = p.bank ∧ q.bit.toNat = p.bit.toNat ∧ s.dirBit q.bank q.bit.toNat = s.cfg.dirDriveValue then .driven (y ^^ p.inv) else level s q := by
  have hd : (bankWriteBit p.bank p.bit (y ^^ p.inv) s).dirBit q.bank q.bit.toNat = s.dirBit q.bank q.bit.toNat := by
    rw [State.dirBit, bankWriteBit_dir hs, State.dirBit]
  rw [level_eq, pinWrite, hd, bankWriteBit_outBit hs, bankWriteBit_cfg, level_eq]
  by_cases h1 : s.dirBit q.bank q.bit.toNat = s.cfg.dirDriveValue <;>
    by_cases h2 : q.bank = p.bank <;> by_cases h3 : q.bit.toNat = p.bit.toNat <;>
    (try rw [h2] at h1) <;> (try rw [h3] at h1) <;> simp [h1, h2, h3]

/-- ChainUpdate reads the parameters and the cells only. -/
theorem chainUpdate_congr {s t : State} (a b : Lines) (hc : t.cfg = s.cfg) (hs : t.sr = s.sr)
    (hl : t.latch = s.latch) :
    (chainUpdate a b t).sr = (chainUpdate a b s).sr ∧ (chainUpdate a b t).latch = (chainUpdate a b s).latch := by
  unfold chainUpdate
  split
  · exact ⟨rfl, rfl⟩
  · simp only [hc, hs, hl, and_self]

/-- The chain's reaction to a pin write when nobody else writes, from the lines before and after. -/
theorem pinWrite_chain {s : State} (hs : s.SoleWriter) (p : Pin) (y : Level) :
    (pinWrite p y s).sr = (chainUpdate s.lines (pinWrite p y s).lines s).sr ∧
    (pinWrite p y s).latch = (chainUpdate s.lines (pinWrite p y s).lines s).latch := by
  have hl : (pinWrite p y s).lines = ({ s with out := s.out.set p.bank (withBit (s.out.get p.bank) p.bit (y ^^ p.inv)) } :
      State).lines := by
    simp only [State.lines, pinWrite, bankWriteBit_cfg, bankWriteBit_dir hs, bankWriteBit_out hs]
  rw [hl, pinWrite, bankWriteBit_sole hs]
  exact chainUpdate_congr _ _ rfl rfl rfl

/-- The chain's reaction to the write of a read/modify/write when nobody else writes (20 R73). -/
theorem vWrite_chain {s : State} (hs : s.SoleWriter) (e : Event) (b : BankId) (r : OutReg) (v : Word) :
    let t := vWrite b r v (record e s)
    t.sr = (chainUpdate s.lines t.lines s).sr ∧ t.latch = (chainUpdate s.lines t.lines s).latch := by
  have h1 : State.SoleWriter (record e s) := hs
  rw [vWrite_sole h1]
  simp only [chainUpdate_lines]
  exact chainUpdate_congr _ _ (by cases r <;> rfl) (by cases r <;> rfl) (by cases r <;> rfl)

/-- The chain's reaction to a direction change in one cycle (40 R122, 20 R73). -/
theorem bankSetDir_chain_one_cycle {s : State} (hs : s.SoleWriter) (h : s.cfg.dirTwoPhase = false) (b : BankId)
    (k : BitVec 5) (m : Mode) :
    let t := bankSetDir b k m s
    t.sr = (chainUpdate s.lines t.lines s).sr ∧ t.latch = (chainUpdate s.lines t.lines s).latch := by
  simp only [bankSetDir, h, Bool.false_eq_true, if_false, vRead_dir_sole hs]
  exact vWrite_chain hs _ b .dir _

/-- The chain's reaction to a direction change in two cycles: two writes, with the bit 0 between them (40 R122). -/
theorem bankSetDir_chain_two_cycle {s : State} (hs : s.SoleWriter) (h : s.cfg.dirTwoPhase = true) (b : BankId)
    (k : BitVec 5) (m : Mode) :
    let between := linesOf s.cfg (s.dir.set b (s.dir.get b &&& ~~~(mask k))) s.out
    let mid := chainUpdate s.lines between s
    let t := bankSetDir b k m s
    t.sr = (chainUpdate between t.lines mid).sr ∧ t.latch = (chainUpdate between t.lines mid).latch := by
  let e : Event := .rd b .dir (s.dir.get b)
  let u := vWrite b .dir (withBit (s.dir.get b) k false) (record e s)
  have hu : u = chainUpdate s.lines (record (.wr b .dir (withBit (s.dir.get b) k false))
      (setReg b .dir (withBit (s.dir.get b) k false) (record e s))).lines (record (.wr b .dir (withBit (s.dir.get b) k false))
      (setReg b .dir (withBit (s.dir.get b) k false) (record e s))) := vWrite_sole (s := record e s) hs b .dir _
  have hc : u.cfg = s.cfg := by rw [hu]; simp
  have hl : u.lines = linesOf s.cfg (s.dir.set b (s.dir.get b &&& ~~~(mask k))) s.out := by
    rw [hu, chainUpdate_lines]; rfl
  have hus : u.SoleWriter := (soleWriter_of_cfg hc).2 hs
  obtain ⟨m1, m2⟩ : u.sr = _ ∧ u.latch = _ := vWrite_chain hs e b .dir (withBit (s.dir.get b) k false)
  have ht : bankSetDir b k m s = vWrite b .dir (withBit (u.dir.get b) k m.toBit) (record (.rd b .dir (u.dir.get b)) u) := by
    simp only [bankSetDir, h, if_true, vRead_dir_sole hs]
    rw [vRead_dir_sole hus]
  obtain ⟨t1, t2⟩ := vWrite_chain hus (.rd b .dir (u.dir.get b)) b .dir (withBit (u.dir.get b) k m.toBit)
  rw [← ht, hl] at t1 t2
  obtain ⟨c1, c2⟩ := chainUpdate_congr (s := chainUpdate s.lines u.lines s) (t := u) u.lines (bankSetDir b k m s).lines
    (by rw [hc]; simp) m1 m2
  rw [hl] at c1 c2
  exact ⟨t1.trans c1, t2.trans c2⟩

/-- A write that changes no line leaves a chain at rest as it is (20 R73). -/
theorem chainUpdate_same {s : State} (h : s.ChainAtRest) : chainUpdate s.lines s.lines s = s := h

/-- With the clock's level as it was and driven, nothing shifts. -/
theorem chainUpdate_no_edge {a b : Lines} (s : State) (hn : changedLines a b ≤ 1) {x y : Level}
    (ha : a.clk = .driven x) (hb : b.clk = .driven y) (h : x = true ∨ y = false) : (chainUpdate a b s).sr = s.sr := by
  unfold chainUpdate
  rw [if_neg (by omega)]
  simp only [ha, hb]
  rcases h with rfl | rfl
  · cases y <;> rfl
  · cases x <;> rfl

/-- A rising clock edge shifts (20 R74). -/
theorem chainUpdate_edge {a b : Lines} (s : State) (hn : changedLines a b ≤ 1)
    (ha : a.clk = .driven false) (hb : b.clk = .driven true) :
    (chainUpdate a b s).sr = shiftIn (sampled s.cfg a.data) s.sr := by
  unfold chainUpdate
  rw [if_neg (by omega)]
  simp only [ha, hb, clockRule]

/-- The latch after at most one changed line (20 R76). -/
theorem chainUpdate_latch {a b : Lines} (s : State) (hn : changedLines a b ≤ 1) :
    (chainUpdate a b s).latch = latchRule s.cfg.latchMode a.le b.le (chainUpdate a b s).sr s.latch := by
  unfold chainUpdate
  rw [if_neg (by omega)]

end Sys2Proof.Machine
end

