-- ==== Sys2Proof/Laws/Encoding.lean ====
section
/-! SUPPORT. Fields of words, and the round trips of the parts of a command word. -/

namespace Sys2Proof

/-- A field inside the lower part of two parts. -/
theorem extract_low {m n : Nat} (x : BitVec m) (y : BitVec n) {lo len : Nat} (h : lo + len ≤ n) :
    (x ++ y).extractLsb' lo len = y.extractLsb' lo len := by
  ext j hj
  simp only [BitVec.getElem_extractLsb', BitVec.getLsbD_append]
  rw [if_pos (by omega)]

/-- A field inside the upper part of two parts. -/
theorem extract_high {m n : Nat} (x : BitVec m) (y : BitVec n) {lo len : Nat} (h : n ≤ lo) :
    (x ++ y).extractLsb' lo len = x.extractLsb' (lo - n) len := by
  ext j hj
  simp only [BitVec.getElem_extractLsb', BitVec.getLsbD_append]
  rw [if_neg (by omega)]
  congr 1
  omega

/-- The field that is the whole vector. -/
theorem extract_whole {n : Nat} (x : BitVec n) : x.extractLsb' 0 n = x := by
  ext j hj
  simp [← BitVec.getLsbD_eq_getElem]

/-- Two parts masked by two parts. -/
theorem append_and_append {m n : Nat} (x x' : BitVec m) (y y' : BitVec n) :
    (x ++ y) &&& (x' ++ y') = (x &&& x') ++ (y &&& y') := by
  ext j hj
  simp only [BitVec.getElem_and, BitVec.getElem_append]
  split <;> simp

/-- A bit where a mask has a 1 is 0 in a word whose masked value is 0. -/
theorem bit_of_mask_zero {w m : CmdWord} (h : w &&& m = 0) {n : Nat} (hm : m.getLsbD n = true) : w.getLsbD n = false := by
  have := congrArg (fun x => BitVec.getLsbD x n) h
  simpa [hm] using this

theorem mode_ofBit_toBit (m : Mode) : Mode.ofBit m.toBit = m := by cases m <;> rfl

theorem mode_toBit_ofBit (x : Bool) : (Mode.ofBit x).toBit = x := by cases x <;> rfl

theorem order_ofBit_toBit (o : BitOrder) : BitOrder.ofBit o.toBit = o := by cases o <;> rfl

theorem order_toBit_ofBit (x : Bool) : (BitOrder.ofBit x).toBit = x := by cases x <;> rfl

/-- PIN8 round trip (30 R95). -/
theorem pinOp_ofByte_toByte (p : PinOp) : PinOp.ofByte p.toByte = p := by
  obtain ⟨i, b, k⟩ := p
  revert i b k
  decide

theorem pinOp_toByte_ofByte (x : Byte) : (PinOp.ofByte x).toByte = x := by
  revert x
  decide

/-- A word is its eight bytes (30 R104). -/
theorem bytes_join (w : CmdWord) :
    byteAt w 56 ++ byteAt w 48 ++ byteAt w 40 ++ byteAt w 32 ++ byteAt w 24 ++ byteAt w 16 ++ byteAt w 8 ++
      byteAt w 0 = w := by
  ext j hj
  simp only [BitVec.getElem_append, byteAt, BitVec.getElem_extractLsb']
  repeat' split
  all_goals simp only [← BitVec.getLsbD_eq_getElem]
  all_goals (congr 1; omega)

/-- An opcode is found from its byte, and from no other. -/
theorem ofByte_code (op : Opcode) : Opcode.ofByte op.code = some op := by
  cases op <;> decide

theorem ofByte_some {b : Byte} {op : Opcode} (h : Opcode.ofByte b = some op) : op.code = b := by
  unfold Opcode.ofByte at h
  have := List.find?_some h
  simpa using this

end Sys2Proof
end

