-- ==== Sys2Proof/Laws/Params.lean ====
section
/-! SUPPORT. What an admitted configuration gives. -/

namespace Sys2Proof.Machine

theorem configLegal_iff (c : Config) : configLegal c = true ↔
    addressesLegal c = true ∧ wiringLegal c.wiring = true ∧ segBitsLegal c.segBit = true ∧ digitsLegal c = true := by
  simp only [configLegal, Bool.and_eq_true, and_assoc]

theorem pagesApart_iff (c : Config) (b b' : BankId) : pagesApart c b b' = true ↔
    c.bankBase.get b + c.pageSize ≤ c.bankBase.get b' ∨ c.bankBase.get b' + c.pageSize ≤ c.bankBase.get b := by
  simp only [pagesApart, Bool.or_eq_true, decide_eq_true_eq]

/-- The constraints of 20 R52, register by register and bank by bank. -/
theorem addressesLegal_iff (c : Config) : addressesLegal c = true ↔
    (∀ r, offsetOf c r % 4 = 0 ∧ offsetOf c r + 4 ≤ c.pageSize) ∧
    (∀ r r', offsetOf c r = offsetOf c r' → r = r') ∧ (∀ b, c.bankBase.get b % 4 = 0) ∧
    (∀ b b', b ≠ b' →
      c.bankBase.get b + c.pageSize ≤ c.bankBase.get b' ∨ c.bankBase.get b' + c.pageSize ≤ c.bankBase.get b) := by
  simp only [addressesLegal, Bool.and_eq_true, pagesApart_iff, List.all_cons, List.all_nil, banks, beq_iff_eq,
    bne_iff_ne, decide_eq_true_eq]
  constructor
  · rintro ⟨⟨⟨⟨h1, h2, h3, -⟩, ⟨n1, n2⟩, n3⟩, b0, b1, b2, -⟩, ⟨p1, p2⟩, p3⟩
    refine ⟨fun r => by cases r <;> assumption, fun r r' h => ?_, fun b => by cases b <;> assumption, fun b b' hb => ?_⟩
    · cases r <;> cases r' <;> simp_all [offsetOf]
    · cases b <;> cases b' <;> first | exact absurd rfl hb | assumption | exact Or.symm ‹_›
  · rintro ⟨ho, hi, hb, hp⟩
    exact ⟨⟨⟨⟨ho .dir, ho .out, ho .inp, trivial⟩, ⟨fun h => (nomatch hi .dir .out h), fun h => (nomatch hi .dir .inp h)⟩,
      fun h => (nomatch hi .out .inp h)⟩, hb _, hb _, hb _, trivial⟩, ⟨hp _ _ nofun, hp _ _ nofun⟩, hp _ _ nofun⟩

/-- Different registers have different addresses (20 R52). -/
theorem addrOf_injective {c : Config} (h : addressesLegal c = true) {b b' : BankId} {r r' : Reg}
    (he : addrOf c b r = addrOf c b' r') : b = b' ∧ r = r' := by
  obtain ⟨ho, hi, -, hp⟩ := (addressesLegal_iff c).mp h
  have h1 := ho r
  have h2 := ho r'
  simp only [addrOf] at he
  by_cases hb : b = b'
  · subst hb
    exact ⟨rfl, hi r r' (by omega)⟩
  · rcases hp b b' hb with h | h <;> omega

/-- The register found at a register's address is that register (20 R58). -/
theorem registerAt_addrOf {c : Config} (h : addressesLegal c = true) (b : BankId) (r : Reg) :
    registerAt c (addrOf c b r) = some (b, r) := by
  unfold registerAt
  rcases hx : registers.find? (fun x => addrOf c x.1 x.2 == addrOf c b r) with _ | ⟨b', r'⟩
  · have := List.find?_eq_none.mp hx (b, r) (by cases b <;> cases r <;> decide)
    simp at this
  · have := List.find?_some hx
    obtain ⟨h1, h2⟩ := addrOf_injective h (by simpa using this)
    rw [hx, h1, h2]

/-- The wired pins of an admitted configuration are four different lines (10 R35). -/
theorem wiringLegal_iff (w : Wiring) : wiringLegal w = true ↔
    (pinsApart w.data w.clk = true ∧ pinsApart w.data w.oe = true ∧ pinsApart w.data w.le = true) ∧
    (pinsApart w.clk w.oe = true ∧ pinsApart w.clk w.le = true) ∧ pinsApart w.oe w.le = true := by
  simp only [wiringLegal, Bool.and_eq_true, and_assoc]

end Sys2Proof.Machine
end

