-- ==== Sys2Proof/Laws/PerInstr.lean ====
section
/-! SUPPORT. Statements about every command as syntax, one lemma for each constructor. -/

namespace Sys2Proof.Laws.EncodeMatchesTable

/-- The (match, mask) pair of the command's row in spec/opcode_table.json. -/
def row : Instr → CmdWord × CmdWord
  | .openBank _ => (0x0100000000000000, 0xFFFFFFFFFFFFFFFC)
  | .closeBank _ => (0x0200000000000000, 0xFFFFFFFFFFFFFFFC)
  | .setdir _ _ _ => (0x0300000000000000, 0xFFFFFFFFFFFFFF00)
  | .wrbit _ _ _ => (0x0400000000000000, 0xFFFFFFFFFFFFFF00)
  | .rdbit _ _ => (0x0500000000000000, 0xFFFFFFFFFFFFFF80)
  | .pmode _ _ => (0x0600000000000000, 0xFFFFFFFFFFFFFE00)
  | .pwrite _ _ => (0x0700000000000000, 0xFFFFFFFFFFFFFE00)
  | .pread _ => (0x0800000000000000, 0xFFFFFFFFFFFFFF00)
  | .shiftout _ _ _ _ => (0x0900000000000000, 0xFFFFFFFF00FE0000)
  | .lnew => (0x1000000000000000, 0xFFFFFFFFFFFFFFFF)
  | .lenable => (0x1100000000000000, 0xFFFFFFFFFFFFFFFF)
  | .ldisable => (0x1200000000000000, 0xFFFFFFFFFFFFFFFF)
  | .lset _ _ _ _ _ => (0x1300000000000000, 0xFFFFFF0000000000)
  | .exit => (0x1F00000000000000, 0xFFFFFFFFFFFFFFFF)

/-- The command's word matches its row, whatever its operands. -/
def Statement (i : Instr) : Prop := encode i &&& (row i).2 = (row i).1

theorem openBank (b : BankField) : Statement (.openBank b) := by
  revert b; unfold Statement; decide

theorem closeBank (b : BankField) : Statement (.closeBank b) := by
  revert b; unfold Statement; decide

theorem setdir (b : BankField) (k : BitIx) (m : Mode) : Statement (.setdir b k m) := by
  unfold Statement; cases m <;> (revert b k; decide)

theorem wrbit (b : BankField) (k : BitIx) (x : Level) : Statement (.wrbit b k x) := by
  unfold Statement; revert b k x; decide

theorem rdbit (b : BankField) (k : BitIx) : Statement (.rdbit b k) := by
  unfold Statement; revert b k; decide

theorem pmode (p : PinOp) (m : Mode) : Statement (.pmode p m) := by
  obtain ⟨i, b, k⟩ := p
  unfold Statement; cases m <;> (revert i b k; decide)

theorem pwrite (p : PinOp) (y : Level) : Statement (.pwrite p y) := by
  obtain ⟨i, b, k⟩ := p
  unfold Statement; revert i b k y; decide

theorem pread (p : PinOp) : Statement (.pread p) := by
  obtain ⟨i, b, k⟩ := p
  unfold Statement; revert i b k; decide

theorem shiftout (dp cp : PinOp) (o : BitOrder) (x : Byte) : Statement (.shiftout dp cp o x) := by
  change (0x09#8 ++ 0#24 ++ x ++ 0#7 ++ BitVec.ofBool o.toBit ++ cp.toByte ++ dp.toByte) &&&
    (0xFF#8 ++ 0xFFFFFF#24 ++ 0#8 ++ 0x7F#7 ++ 0#1 ++ 0#8 ++ 0#8) = _
  simp only [append_and_append, BitVec.and_zero, row]
  decide

theorem lnew : Statement .lnew := by unfold Statement; decide

theorem lenable : Statement .lenable := by unfold Statement; decide

theorem ldisable : Statement .ldisable := by unfold Statement; decide

theorem lset (a b c d e : Byte) : Statement (.lset a b c d e) := by
  change (0x13#8 ++ 0#16 ++ e ++ d ++ c ++ b ++ a) &&&
    (0xFF#8 ++ 0xFFFF#16 ++ 0#8 ++ 0#8 ++ 0#8 ++ 0#8 ++ 0#8) = _
  simp only [append_and_append, BitVec.and_zero, row]
  decide

theorem exit : Statement .exit := by unfold Statement; decide

end Sys2Proof.Laws.EncodeMatchesTable
end

