-- ==== Sys2Proof/Laws/Teardown.lean ====
section
/-! SUPPORT. What the events that are no accesses, the teardown, and taking a fault can do. -/

namespace Sys2Proof.Machine

/-- What an operation that makes no register access can do to registers, chain, parameters and results. -/
structure Quiet (s t : State) : Prop where
  cfg : t.cfg = s.cfg
  commands : t.commands = s.commands
  pc : t.pc = s.pc
  res : t.res = s.res
  registers : s.SoleWriter → s.KeepsRegisters t
  floating : Floating s → Floating t

theorem Quiet.refl (s : State) : Quiet s s := ⟨rfl, rfl, rfl, rfl, fun _ => .refl s, id⟩

theorem Quiet.trans {s t u : State} (h : Quiet s t) (h' : Quiet t u) : Quiet s u where
  cfg := h'.cfg.trans h.cfg
  commands := h'.commands.trans h.commands
  pc := h'.pc.trans h.pc
  res := h'.res.trans h.res
  registers hs := (h.registers hs).trans (h'.registers ((soleWriter_of_cfg h.cfg).mpr hs))
  floating := h'.floating ∘ h.floating

/-- An update of fields other than parameters, registers, chain, words, `pc` and `res` is quiet. -/
theorem quiet_of_eq {s t : State} (hc : t.cfg = s.cfg) (hw : t.commands = s.commands) (hp : t.pc = s.pc)
    (hr : t.res = s.res) (hk : s.KeepsRegisters t) : Quiet s t where
  cfg := hc
  commands := hw
  pc := hp
  res := hr
  registers _ := hk
  floating hf := by
    refine ⟨fun h => ?_, fun h => ?_⟩
    · rw [hk.sr]; exact hf.clock (by simpa [level, hc, hk.dir, hk.out] using h)
    · rw [hk.latch]; exact hf.latch (by simpa [level, hc, hk.dir, hk.out] using h)

theorem gap_quiet (s : State) : Quiet s (gap s) where
  cfg := by simp
  commands := by simp
  pc := by simp
  res := by simp
  registers hs := by rw [gap_of_sole hs]; exact .refl s
  floating := (gap_fields s).2.2.2

theorem emit_quiet (e : Event) (s : State) : Quiet s (emit e s) :=
  (gap_quiet s).trans (quiet_of_eq rfl rfl rfl rfl ⟨rfl, rfl, rfl, rfl⟩)

@[simp] theorem emit_trace (e : Event) (s : State) : (emit e s).trace = s.trace ++ [e] := by simp [emit]
@[simp] theorem emit_cfg (e : Event) (s : State) : (emit e s).cfg = s.cfg := by simp [emit]
@[simp] theorem emit_fd (e : Event) (s : State) : (emit e s).fd = s.fd := by simp [emit]
@[simp] theorem emit_map (e : Event) (s : State) : (emit e s).map = s.map := by simp [emit]
@[simp] theorem emit_pc (e : Event) (s : State) : (emit e s).pc = s.pc := by simp [emit]
@[simp] theorem emit_res (e : Event) (s : State) : (emit e s).res = s.res := by simp [emit]
@[simp] theorem emit_drv (e : Event) (s : State) : (emit e s).drv = s.drv := by simp [emit]
@[simp] theorem emit_phase (e : Event) (s : State) : (emit e s).phase = s.phase := by simp [emit]
@[simp] theorem emit_commands (e : Event) (s : State) : (emit e s).commands = s.commands := by simp [emit]

/-! ### BankRelease and the teardown -/

@[simp] theorem bankRelease_fd (b : BankId) (s : State) : (bankRelease b s).fd = s.fd.set b false := by
  unfold bankRelease; split <;> simp

@[simp] theorem bankRelease_map (b : BankId) (s : State) : (bankRelease b s).map = s.map.set b false := by
  unfold bankRelease
  split
  · simp
  · rename_i h
    have : s.map.get b = false := by simpa using h
    simp [← this]

@[simp] theorem bankRelease_trace (b : BankId) (s : State) : (bankRelease b s).trace = s.trace ++ [.rel b] := by
  unfold bankRelease; split <;> simp

@[simp] theorem bankRelease_drv (b : BankId) (s : State) : (bankRelease b s).drv = s.drv := by
  unfold bankRelease; split <;> simp

@[simp] theorem bankRelease_phase (b : BankId) (s : State) : (bankRelease b s).phase = s.phase := by
  unfold bankRelease; split <;> simp

theorem bankRelease_quiet (b : BankId) (s : State) : Quiet s (bankRelease b s) := by
  unfold bankRelease
  refine Quiet.trans (quiet_of_eq ?_ ?_ ?_ ?_ ?_) (emit_quiet _ _) <;> split <;>
    first | rfl | exact ⟨rfl, rfl, rfl, rfl⟩

theorem releaseIfOpen_quiet (s : State) (b : BankId) : Quiet s (releaseIfOpen s b) := by
  unfold releaseIfOpen
  split
  exacts [bankRelease_quiet b s, .refl s]

@[simp] theorem releaseIfOpen_fd (s : State) (b : BankId) : (releaseIfOpen s b).fd = s.fd.set b false := by
  unfold releaseIfOpen
  split
  · simp
  · rename_i h
    have : s.fd.get b = false := by simpa using h
    simp [← this]

theorem releaseIfOpen_map (s : State) (b : BankId) :
    (releaseIfOpen s b).map = if s.fd.get b then s.map.set b false else s.map := by
  unfold releaseIfOpen; split <;> simp

theorem releaseIfOpen_trace (s : State) (b : BankId) :
    (releaseIfOpen s b).trace = s.trace ++ if s.fd.get b then [.rel b] else [] := by
  unfold releaseIfOpen; split <;> simp

@[simp] theorem releaseIfOpen_drv (s : State) (b : BankId) : (releaseIfOpen s b).drv = s.drv := by
  unfold releaseIfOpen; split <;> simp

@[simp] theorem releaseIfOpen_phase (s : State) (b : BankId) : (releaseIfOpen s b).phase = s.phase := by
  unfold releaseIfOpen; split <;> simp

theorem releaseAll_eq (s : State) :
    releaseAll s = releaseIfOpen (releaseIfOpen (releaseIfOpen s .b0) .b1) .b2 := rfl

theorem releaseAll_quiet (s : State) : Quiet s (releaseAll s) :=
  ((releaseIfOpen_quiet s .b0).trans (releaseIfOpen_quiet _ .b1)).trans (releaseIfOpen_quiet _ .b2)

@[simp] theorem releaseAll_fd (s : State) : (releaseAll s).fd = .const false := by
  simp [releaseAll_eq, PerBank.set, PerBank.const]

theorem releaseAll_map (s : State) (b : BankId) :
    (releaseAll s).map.get b = (!(s.fd.get b) && s.map.get b) := by
  cases b <;> cases h0 : s.fd.b0 <;> cases h1 : s.fd.b1 <;> cases h2 : s.fd.b2 <;>
    simp [releaseAll_eq, releaseIfOpen_map, PerBank.set, PerBank.get, h0, h1, h2]

theorem releaseAll_trace (s : State) :
    (releaseAll s).trace = s.trace ++ (banks.filter fun b => s.fd.get b).map .rel := by
  cases h0 : s.fd.b0 <;> cases h1 : s.fd.b1 <;> cases h2 : s.fd.b2 <;>
    simp [releaseAll_eq, releaseIfOpen_trace, banks, PerBank.set, PerBank.get, h0, h1, h2]

@[simp] theorem releaseAll_drv (s : State) : (releaseAll s).drv = s.drv := by simp [releaseAll_eq]

@[simp] theorem releaseAll_phase (s : State) : (releaseAll s).phase = s.phase := by simp [releaseAll_eq]

/-- With every mapped page's handle open, the teardown leaves no page mapped. -/
theorem releaseAll_unmaps {s : State} (h : ∀ b, s.map.get b = true → s.fd.get b = true) (b : BankId) :
    (releaseAll s).map.get b = false := by
  rw [releaseAll_map]
  cases hm : s.map.get b
  · simp
  · simp [h b hm]

/-! ### Taking a fault -/

theorem raise_quiet (w : CmdWord) (c : FaultCode) (info : Option BankId) (s : State) : Quiet s (raise w c info s) := by
  have h1 : Quiet (releaseAll s) { releaseAll s with drv := .unconstructed } :=
    quiet_of_eq rfl rfl rfl rfl ⟨rfl, rfl, rfl, rfl⟩
  have h2 : ∀ u : State, ∀ r, Quiet u { u with phase := .faulted r } := fun u r =>
    quiet_of_eq rfl rfl rfl rfl ⟨rfl, rfl, rfl, rfl⟩
  exact (((releaseAll_quiet s).trans h1).trans (emit_quiet (.fault c) _)).trans (h2 _ _)

@[simp] theorem raise_phase (w : CmdWord) (c : FaultCode) (info : Option BankId) (s : State) :
    (raise w c info s).phase = .faulted { code := c, pc := s.pc, word := w, bank := info } := rfl

@[simp] theorem raise_fd (w : CmdWord) (c : FaultCode) (info : Option BankId) (s : State) :
    (raise w c info s).fd = .const false := by
  simp [raise]

@[simp] theorem raise_drv (w : CmdWord) (c : FaultCode) (info : Option BankId) (s : State) :
    (raise w c info s).drv = .unconstructed := by
  simp [raise]

theorem raise_map (w : CmdWord) (c : FaultCode) (info : Option BankId) (s : State) :
    (raise w c info s).map = (releaseAll s).map := by
  simp [raise]

theorem raise_trace (w : CmdWord) (c : FaultCode) (info : Option BankId) (s : State) :
    (raise w c info s).trace = s.trace ++ (banks.filter fun b => s.fd.get b).map .rel ++ [.fault c] := by
  simp [raise, releaseAll_trace]

@[simp] theorem raise_pc (w : CmdWord) (c : FaultCode) (info : Option BankId) (s : State) :
    (raise w c info s).pc = s.pc := (raise_quiet w c info s).pc

@[simp] theorem raise_res (w : CmdWord) (c : FaultCode) (info : Option BankId) (s : State) :
    (raise w c info s).res = s.res := (raise_quiet w c info s).res

@[simp] theorem raise_cfg (w : CmdWord) (c : FaultCode) (info : Option BankId) (s : State) :
    (raise w c info s).cfg = s.cfg := (raise_quiet w c info s).cfg

end Sys2Proof.Machine
end

