-- ==== Sys2Proof/Laws/Results.lean ====
section
/-! SUPPORT. What a command can answer: a misuse fault, a setup fault, or its completion (one inversion lemma for
all of them, `exec_result`). -/

namespace Sys2Proof.Machine

/-! ### Taking a command -/

theorem command_ready {s : State} (h : s.Ready) (t : State) : command s t = .next t := by
  simp [command, h.legal, h.running]

theorem command_next {s t u : State} (h : command s t = .next u) : s.Ready ∧ u = t := by
  unfold command at h
  split at h
  case isTrue hl =>
    split at h
    case h_1 hr => exact ⟨⟨hl, hr⟩, by simpa using h.symm⟩
    all_goals cases h
  case isFalse => cases h

theorem command_exited {s : State} (hl : configLegal s.cfg = true) (h : s.phase = .exited) (t : State) :
    command s t = .fault .blockExited := by
  simp [command, hl, h]

theorem command_faulted {s : State} (hl : configLegal s.cfg = true) {r : FaultRecord} (h : s.phase = .faulted r)
    (t : State) : command s t = .fault .blockFaulted := by
  simp [command, hl, h]

theorem command_illegal {s : State} (h : configLegal s.cfg = false) (t : State) :
    command s t = .refused .illegalConfiguration := by
  simp [command, h]

/-- Every meaning is a command of its state (30 R108): it answers by `command`. -/
theorem exec_is_command (i : Instr) (s : State) : ∃ t, exec i s = command s t := by
  cases i <;> exact ⟨_, rfl⟩

/-! ### Setups -/

/-- The banks `bs` acquired, in order, from `s`. -/
structure Acquired (bs : List BankId) (s t : State) : Prop where
  quiet : Quiet s t
  drv : t.drv = s.drv
  phase : t.phase = s.phase
  fd : ∀ b, t.fd.get b = (s.fd.get b || bs.contains b)
  map : ∀ b, t.map.get b = (s.map.get b || bs.contains b)
  trace : t.trace = s.trace ++ bs.map .acq

theorem Acquired.nil (s : State) : Acquired [] s s := ⟨.refl s, rfl, rfl, by simp, by simp, by simp⟩

theorem Acquired.append {bs bs' : List BankId} {s t u : State} (h : Acquired bs s t) (h' : Acquired bs' t u) :
    Acquired (bs ++ bs') s u where
  quiet := h.quiet.trans h'.quiet
  drv := h'.drv.trans h.drv
  phase := h'.phase.trans h.phase
  fd b := by rw [h'.fd, h.fd]; simp [Bool.or_assoc]
  map b := by rw [h'.map, h.map]; simp [Bool.or_assoc]
  trace := by rw [h'.trace, h.trace]; simp

/-- Bank `b`'s page is mapped: the state `bankAcquire` continues from. -/
def acquiredState (b : BankId) (s : State) : State :=
  emit (.acq b) { s with fd := s.fd.set b true, map := s.map.set b true }

theorem drawSetup_quiet (s : State) : Quiet s (drawSetup s).2 :=
  quiet_of_eq (by simp) (by simp) (by simp) (by simp) ⟨by simp, by simp, by simp, by simp⟩

theorem acquiredState_acquired (b : BankId) (s : State) : Acquired [b] s (acquiredState b (drawSetup s).2) where
  quiet := by
    have h : ∀ u : State, Quiet u { u with fd := u.fd.set b true, map := u.map.set b true } := fun u =>
      quiet_of_eq rfl rfl rfl rfl ⟨rfl, rfl, rfl, rfl⟩
    exact ((drawSetup_quiet s).trans (h _)).trans (emit_quiet (.acq b) _)
  drv := by simp [acquiredState]
  phase := by simp [acquiredState]
  fd b' := by
    simp only [acquiredState, emit_fd, drawSetup_fd, perBank_get_set]
    by_cases h : b' = b <;> simp [h]
  map b' := by
    simp only [acquiredState, emit_map, drawSetup_map, perBank_get_set]
    by_cases h : b' = b <;> simp [h]
  trace := by simp [acquiredState]

/-- A setup of bank `b` failed from `s`: the code, and the state the fault is raised in. -/
inductive SetupFailed (b : BankId) (s : State) : FaultCode → State → Prop where
  | device : SetupFailed b s .deviceOpenFailed (drawSetup s).2
  | mapping : SetupFailed b s .mapFailed { (drawSetup s).2 with fd := (drawSetup s).2.fd.set b true }

/-- What `bankAcquire` can answer (40 R120). -/
theorem bankAcquire_cases (w : CmdWord) (b : BankId) (s : State) (next : State → State) :
    ((drawSetup s).1 = .ok ∧ bankAcquire w b s next = next (acquiredState b (drawSetup s).2)) ∨
    ∃ c u, SetupFailed b s c u ∧ bankAcquire w b s next = raise w c (some b) u := by
  unfold bankAcquire
  rcases h : (drawSetup s).1 with _ | _ | _
  · exact .inl ⟨rfl, by simp [h, acquiredState]⟩
  · exact .inr ⟨_, _, .device, by simp [h]⟩
  · exact .inr ⟨_, _, .mapping, by simp [h]⟩

theorem SetupFailed.quiet {b : BankId} {s u : State} {c : FaultCode} (h : SetupFailed b s c u) : Quiet s u := by
  cases h
  · exact drawSetup_quiet s
  · exact (drawSetup_quiet s).trans (quiet_of_eq rfl rfl rfl rfl ⟨rfl, rfl, rfl, rfl⟩)

theorem SetupFailed.fields {b : BankId} {s u : State} {c : FaultCode} (h : SetupFailed b s c u) :
    u.trace = s.trace ∧ u.map = s.map ∧ u.drv = s.drv ∧
    (∀ b', u.fd.get b' = (s.fd.get b' || (b' == b && c == .mapFailed))) ∧
    (c = .deviceOpenFailed ∨ c = .mapFailed) := by
  cases h
  · exact ⟨by simp, by simp, by simp, fun b' => by simp, .inl rfl⟩
  · refine ⟨by simp, by simp, by simp, fun b' => ?_, .inr rfl⟩
    simp only [perBank_get_set, drawSetup_fd]
    by_cases hb : b' = b <;> simp [hb]

/-! ### What a command can answer -/

/-- A fault code that no setup draws (60 R201, codes 3 to 8). -/
def isMisuse : FaultCode → Bool
  | .deviceOpenFailed | .mapFailed => false
  | .illegalCommand | .badBank | .bankNotOpen | .bankAlreadyOpen
  | .driverNotConstructed | .driverAlreadyConstructed => true

/-- The banks whose registers a command accesses. -/
def accessedBanks (c : Config) : Instr → List BankId
  | .setdir f _ _ | .wrbit f _ _ | .rdbit f _ => (bankOfField f).toList
  | .pmode p _ | .pwrite p _ | .pread p => (bankOfField p.bank).toList
  | .shiftout dp cp _ _ => (bankOfField dp.bank).toList ++ (bankOfField cp.bank).toList
  | .lnew => [c.wiring.data.bank, c.wiring.clk.bank, c.wiring.oe.bank, c.wiring.le.bank]
  | .lenable | .ldisable => [c.wiring.oe.bank]
  | .lset _ _ _ _ _ => [c.wiring.data.bank, c.wiring.clk.bank, c.wiring.le.bank]
  | .openBank _ | .closeBank _ | .exit => []

/-- The kinds of register a command writes (10 R23, R24). -/
def writtenKind (i : Instr) (r : OutReg) : Prop :=
  match i, r with
  | .setdir _ _ _, .dir | .pmode _ _, .dir | .lnew, .dir => True
  | .wrbit _ _ _, .out | .pwrite _ _, .out | .shiftout _ _ _ _, .out | .lnew, .out | .lenable, .out
  | .ldisable, .out | .lset _ _ _ _ _, .out => True
  | _, _ => False

/-- The completions of the commands, by their effect. -/
inductive Completed (i : Instr) (s : State) : State → Prop where
  | opened (f : BankField) (b : BankId) (hi : i = .openBank f) (hb : bankOfField f = some b)
      (hc : s.fd.get b = false) {u : State} (hu : Acquired [b] s u) : Completed i s (complete u)
  | closed (f : BankField) (b : BankId) (hi : i = .closeBank f) (hb : bankOfField f = some b)
      (ho : bankOpen s b = true) : Completed i s (complete (bankRelease b s))
  | accessed {u : State} (hk : i ≠ .lnew) (ho : ∀ b ∈ accessedBanks s.cfg i, bankOpen s b = true)
      (hu : AccessOn (· ∈ accessedBanks s.cfg i) (writtenKind i) s u) : Completed i s (complete u)
  | returned {u : State} (x : Level) (hr : (∃ f k, i = .rdbit f k) ∨ ∃ p, i = .pread p)
      (ho : ∀ b ∈ accessedBanks s.cfg i, bankOpen s b = true)
      (hu : AccessOn (· ∈ accessedBanks s.cfg i) (writtenKind i) s u) : Completed i s (complete (returnLevel x u))
  | constructed {u v : State} (hi : i = .lnew) (hd : s.drv = .unconstructed) (hc : ∀ b, s.fd.get b = false)
      (hu : Acquired banks s u)
      (hv : AccessOn (· ∈ accessedBanks s.cfg i) (writtenKind i) { u with drv := .constructed } v) :
      Completed i s (complete v)
  | exited (hi : i = .exit) :
      Completed i s (complete { emit .exit { releaseAll s with drv := .unconstructed } with phase := .exited })

/-- What a command can answer as its next state. -/
inductive Result (w : CmdWord) (i : Instr) (s : State) : State → Prop where
  | misuse (c : FaultCode) (info : Option BankId) (hc : isMisuse c = true) : Result w i s (raise w c info s)
  | setup (bs : List BankId) (b : BankId) (c : FaultCode) {u v : State} (hi : (∃ f, i = .openBank f) ∨ i = .lnew)
      (hd : i = .lnew → ∀ b, s.fd.get b = false) (hs : bs.Sublist banks) (hu : Acquired bs s u)
      (hv : SetupFailed b u c v) : Result w i s (raise w c (some b) v)
  | completed {t : State} (h : Completed i s t) : Result w i s t

theorem bankOfPin {p : PinOp} {q : Pin} (h : pinOfOp p = some q) :
    bankOfField p.bank = some q.bank ∧ q.bit = p.bit ∧ q.inv = p.inv := by
  simp only [pinOfOp, Option.map_eq_some_iff] at h
  obtain ⟨b, hb, rfl⟩ := h
  exact ⟨hb, rfl, rfl⟩

/-- A command of one bank: BAD_BANK, BANK_NOT_OPEN, or its effect. -/
theorem bankCommand_result {w : CmdWord} {f : BankField} {i : Instr} {s : State} {after : BankId → State}
    (h : ∀ b, bankOfField f = some b → bankOpen s b = true → Completed i s (after b)) :
    Result w i s (withBank w f s fun b => needOpen w b s (after b)) := by
  unfold withBank needOpen
  split
  case h_1 b hb =>
    dsimp only
    split
    case isTrue ho => exact .completed (h b hb ho)
    case isFalse => exact .misuse _ _ rfl
  case h_2 => exact .misuse _ _ rfl

/-- A command of one pin: BAD_BANK, BANK_NOT_OPEN, or its effect. -/
theorem pinCommand_result {w : CmdWord} {p : PinOp} {i : Instr} {s : State} {after : Pin → State}
    (h : ∀ q, pinOfOp p = some q → bankOpen s q.bank = true → Completed i s (after q)) :
    Result w i s (withPin w p s fun q => needOpen w q.bank s (after q)) := by
  unfold withPin needOpen
  split
  case h_1 q hq =>
    dsimp only
    split
    case isTrue ho => exact .completed (h q hq ho)
    case isFalse => exact .misuse _ _ rfl
  case h_2 => exact .misuse _ _ rfl

theorem needOpen_result {w : CmdWord} {b : BankId} {i : Instr} {s t : State}
    (h : bankOpen s b = true → Result w i s t) : Result w i s (needOpen w b s t) := by
  unfold needOpen
  split
  case isTrue ho => exact h ho
  case isFalse => exact .misuse _ _ rfl

theorem needDriver_result {w : CmdWord} {i : Instr} {s t : State} (h : Result w i s t) :
    Result w i s (needDriver w s t) := by
  unfold needDriver
  split
  case isTrue => exact h
  case isFalse => exact .misuse _ _ rfl

theorem bankAcquire_result {w : CmdWord} {i : Instr} {s u : State} {bs : List BankId} {b : BankId}
    {next : State → State} (hi : (∃ f, i = .openBank f) ∨ i = .lnew) (hd : i = .lnew → ∀ b, s.fd.get b = false)
    (hs : bs.Sublist banks) (hu : Acquired bs s u)
    (h : ∀ v, Acquired (bs ++ [b]) s v → Result w i s (next v)) : Result w i s (bankAcquire w b u next) := by
  rcases bankAcquire_cases w b u next with ⟨-, he⟩ | ⟨c, v, hv, he⟩
  · rw [he]; exact h _ (hu.append (acquiredState_acquired b u))
  · rw [he]; exact .setup bs b c hi hd hs hu hv

theorem firstOpenHandle_none {s : State} (h : firstOpenHandle s = none) (b : BankId) : s.fd.get b = false := by
  simp only [firstOpenHandle, List.find?_eq_none, Bool.not_eq_true] at h
  exact h b (by cases b <;> simp [banks])

/-- What the meaning of a command can answer, before `command` has looked at the block. -/
theorem exec_next_result {i : Instr} {s t : State} (h : exec i s = .next t) :
    s.Ready ∧ Result (encode i) i s t := by
  cases i with
  | openBank f =>
    obtain ⟨hr, rfl⟩ := command_next h
    refine ⟨hr, ?_⟩
    unfold withBank
    split
    case h_1 b hb =>
      dsimp only
      split
      case isTrue => exact .misuse _ _ rfl
      case isFalse hc =>
        exact bankAcquire_result (bs := []) (.inl ⟨f, rfl⟩) nofun (List.nil_sublist _) (.nil s) fun v hv =>
          .completed (.opened f b rfl hb (by simpa using hc) hv)
    case h_2 => exact .misuse _ _ rfl
  | closeBank f =>
    obtain ⟨hr, rfl⟩ := command_next h
    exact ⟨hr, bankCommand_result fun b hb ho => .closed f b rfl hb ho⟩
  | setdir f k m =>
    obtain ⟨hr, rfl⟩ := command_next h
    exact ⟨hr, bankCommand_result fun b hb ho => .accessed nofun (by simpa [accessedBanks, hb] using ho)
      (bankSetDir_accessOn (by simp [accessedBanks, hb]) trivial k m s)⟩
  | wrbit f k x =>
    obtain ⟨hr, rfl⟩ := command_next h
    exact ⟨hr, bankCommand_result fun b hb ho => .accessed nofun (by simpa [accessedBanks, hb] using ho)
      (bankWriteBit_accessOn (by simp [accessedBanks, hb]) trivial k x s)⟩
  | rdbit f k =>
    obtain ⟨hr, rfl⟩ := command_next h
    exact ⟨hr, bankCommand_result fun b hb ho => .returned _ (.inl ⟨f, k, rfl⟩)
      (by simpa [accessedBanks, hb] using ho) (vRead_accessOn (by simp [accessedBanks, hb]) .inp s)⟩
  | pmode p m =>
    obtain ⟨hr, rfl⟩ := command_next h
    exact ⟨hr, pinCommand_result fun q hq ho => .accessed nofun
      (by simpa [accessedBanks, (bankOfPin hq).1] using ho)
      (pinSetMode_accessOn (by simp [accessedBanks, (bankOfPin hq).1]) trivial m s)⟩
  | pwrite p y =>
    obtain ⟨hr, rfl⟩ := command_next h
    exact ⟨hr, pinCommand_result fun q hq ho => .accessed nofun
      (by simpa [accessedBanks, (bankOfPin hq).1] using ho)
      (pinWrite_accessOn (by simp [accessedBanks, (bankOfPin hq).1]) trivial y s)⟩
  | pread p =>
    obtain ⟨hr, rfl⟩ := command_next h
    exact ⟨hr, pinCommand_result fun q hq ho => .returned _ (.inr ⟨p, rfl⟩)
      (by simpa [accessedBanks, (bankOfPin hq).1] using ho)
      (pinRead_accessOn (by simp [accessedBanks, (bankOfPin hq).1]) s)⟩
  | shiftout dp cp o x =>
    obtain ⟨hr, rfl⟩ := command_next h
    refine ⟨hr, ?_⟩
    unfold withPin
    split
    case h_2 => exact .misuse _ _ rfl
    case h_1 d hd =>
      dsimp only
      split
      case h_2 => exact .misuse _ _ rfl
      case h_1 c hc =>
        refine needOpen_result fun hod => needOpen_result fun hoc => .completed (.accessed nofun ?_ ?_)
        · simp [accessedBanks, (bankOfPin hd).1, (bankOfPin hc).1, hod, hoc]
        · exact shiftOut_accessOn trivial (by simp [accessedBanks, (bankOfPin hd).1])
            (by simp [accessedBanks, (bankOfPin hc).1]) o x s
  | lnew =>
    obtain ⟨hr, rfl⟩ := command_next h
    refine ⟨hr, ?_⟩
    split
    case isTrue => exact .misuse _ _ rfl
    case isFalse hd =>
      split
      case h_1 => exact .misuse _ _ rfl
      case h_2 hn =>
        have hc := firstOpenHandle_none hn
        have hd' : s.drv = .unconstructed := by
          cases hs : s.drv
          · rfl
          · exact absurd hs hd
        refine bankAcquire_result (bs := []) (.inr rfl) (fun _ => hc) (by simp) (.nil s) fun u hu =>
          bankAcquire_result (bs := [.b0]) (.inr rfl) (fun _ => hc) (by decide) hu fun u hu =>
          bankAcquire_result (bs := [.b0, .b1]) (.inr rfl) (fun _ => hc) (by decide) hu fun u hu =>
          .completed ?_
        have hw : u.cfg = s.cfg := hu.quiet.cfg
        have hset := setOutputs_accessOn (P := (· ∈ accessedBanks s.cfg .lnew)) (R := writtenKind .lnew)
          (driverPins u.cfg.wiring) trivial
          (by intro p hp; simp only [driverPins, hw, List.mem_cons, List.not_mem_nil, or_false] at hp
              rcases hp with rfl | rfl | rfl | rfl <;> simp [accessedBanks])
          { u with drv := .constructed }
        exact .constructed rfl hd' hc hu (hset.trans (driveOE_accessOn trivial true _ (by
          rw [hset.control.cfg]; simp [accessedBanks, hw])))
  | lenable =>
    obtain ⟨hr, rfl⟩ := command_next h
    exact ⟨hr, needDriver_result <| needOpen_result fun ho => .completed <| .accessed nofun
      (by simpa [accessedBanks] using ho) (driveOE_accessOn trivial _ s (by simp [accessedBanks]))⟩
  | ldisable =>
    obtain ⟨hr, rfl⟩ := command_next h
    exact ⟨hr, needDriver_result <| needOpen_result fun ho => .completed <| .accessed nofun
      (by simpa [accessedBanks] using ho) (driveOE_accessOn trivial _ s (by simp [accessedBanks]))⟩
  | lset a b c d e =>
    obtain ⟨hr, rfl⟩ := command_next h
    refine ⟨hr, needDriver_result <| needOpen_result fun h1 => needOpen_result fun h2 => needOpen_result fun h3 =>
      .completed <| .accessed nofun ?_ ?_⟩
    · simp [accessedBanks, h1, h2, h3]
    · exact lset_accessOn trivial (by simp [accessedBanks]) (by simp [accessedBanks]) (by simp [accessedBanks]) _ s
  | exit =>
    obtain ⟨hr, rfl⟩ := command_next h
    exact ⟨hr, .completed (.exited rfl)⟩

/-- What one step can answer (30 R108): it waits, or takes the next word. -/
theorem step_next_result {s t : State} (h : step s = .next t) :
    s.Ready ∧ ((s.commands = [] ∧ t = s) ∨
      ∃ w rest, s.commands = w :: rest ∧
        ((∃ i, decode w = .cmd i ∧ exec i { s with commands := rest } = .next t) ∨
          ((decode w = .illegal ∨ decode w = .badBank) ∧
            ∃ c, isMisuse c = true ∧ t = raise w c none { s with commands := rest }))) := by
  unfold step takeWord at h
  cases hc : s.commands with
  | nil =>
    simp only [hc] at h
    obtain ⟨hr, rfl⟩ := command_next h
    exact ⟨hr, .inl ⟨rfl, rfl⟩⟩
  | cons w rest =>
    simp only [hc] at h
    cases hd : decode w with
    | illegal =>
      simp only [hd] at h
      obtain ⟨hr, rfl⟩ := command_next h
      exact ⟨⟨hr.legal, hr.running⟩, .inr ⟨w, rest, rfl, .inr ⟨.inl hd, _, rfl, rfl⟩⟩⟩
    | badBank =>
      simp only [hd] at h
      obtain ⟨hr, rfl⟩ := command_next h
      exact ⟨⟨hr.legal, hr.running⟩, .inr ⟨w, rest, rfl, .inr ⟨.inr hd, _, rfl, rfl⟩⟩⟩
    | cmd i =>
      simp only [hd] at h
      have hr := (exec_next_result h).1
      exact ⟨⟨hr.legal, hr.running⟩, .inr ⟨w, rest, rfl, .inl ⟨i, hd, h⟩⟩⟩

end Sys2Proof.Machine
end

