-- ==== Sys2Proof/Tests/Slice0.lean ====
section
/-! SUPPORT. Small tests, their expected values from spec/95_test_vectors.md and the rules' own examples, and one
witness for the hypotheses of every obligation that has some. -/

namespace Sys2Proof.Tests

open Sys2Proof.Machine Sys2Proof.Spec

/-! ### Well-formedness: an ill-formed term for each check -/

theorem test_wf_refuses_bank_three :
    (Instr.openBank 3).wf = false ∧ (Instr.closeBank 3).wf = false ∧ (Instr.setdir 3 0 .output).wf = false ∧
    (Instr.wrbit 3 0 true).wf = false ∧ (Instr.rdbit 3 0).wf = false := by decide

theorem test_wf_refuses_pin_of_bank_three :
    (Instr.pmode ⟨false, 0, 3⟩ .input).wf = false ∧ (Instr.pwrite ⟨true, 0, 3⟩ true).wf = false ∧
    (Instr.pread ⟨false, 31, 3⟩).wf = false ∧ (Instr.shiftout ⟨false, 0, 3⟩ ⟨false, 1, 0⟩ .lsb 0).wf = false ∧
    (Instr.shiftout ⟨false, 0, 0⟩ ⟨false, 1, 3⟩ .lsb 0).wf = false := by decide

theorem test_wf_accepts :
    (Instr.openBank 2).wf = true ∧ (Instr.setdir 0 31 .input).wf = true ∧ (Instr.pread ⟨true, 31, 2⟩).wf = true ∧
    (Instr.shiftout ⟨false, 0, 2⟩ ⟨true, 31, 1⟩ .msb 0xFF).wf = true ∧ Instr.lnew.wf = true ∧
    Instr.lenable.wf = true ∧ Instr.ldisable.wf = true ∧ (Instr.lset 1 2 3 4 5).wf = true ∧
    Instr.exit.wf = true := by decide

/-! ### Decoding: words of 95 sections 1 and 2, and bits written out from the formats -/

theorem test_decode_format_b : decode 0x0100000000000001 = .cmd (.openBank 1) ∧
    decode 0x0200000000000001 = .cmd (.closeBank 1) := by decide

theorem test_decode_format_bb : decode 0x0300000000000018 = .cmd (.setdir 0 6 .input) ∧
    decode 0x0300000000000098 = .cmd (.setdir 0 6 .output) ∧
    decode 0x04000000000000A4 = .cmd (.wrbit 0 9 true) ∧ decode 0x0500000000000024 = .cmd (.rdbit 0 9) := by decide

theorem test_decode_format_p : decode 0x0700000000000194 = .cmd (.pwrite ⟨true, 5, 0⟩ true) ∧
    decode 0x0600000000000190 = .cmd (.pmode ⟨true, 4, 0⟩ .output) ∧
    decode 0x08000000000000A4 = .cmd (.pread ⟨true, 9, 0⟩) ∧
    decode 0x0700000000000114 = .cmd (.pwrite ⟨false, 5, 0⟩ true) := by decide

theorem test_decode_format_s :
    decode 0x0900000001000501 = .cmd (.shiftout ⟨false, 0, 1⟩ ⟨false, 1, 1⟩ .lsb 0x01) ∧
    decode 0x0900000001000C08 = .cmd (.shiftout ⟨false, 2, 0⟩ ⟨false, 3, 0⟩ .lsb 0x01) ∧
    decode 0x09000000B4010501 = .cmd (.shiftout ⟨false, 0, 1⟩ ⟨false, 1, 1⟩ .msb 0xB4) := by decide

theorem test_decode_format_d : decode 0x1300000504030201 = .cmd (.lset 1 2 3 4 5) := by decide

/-- PIN8 bit by bit (30 R95): inv 1, bit 10110, bank 01; arg 1; opcode 00000111. -/
theorem test_decode_bits_written_out :
    decode 0b0000011100000000000000000000000000000000000000000000000111011001 =
      .cmd (.pwrite ⟨true, 0b10110, 0b01⟩ true) := by decide

theorem test_decode_illegal : decode 0x0000000000000000 = .illegal ∧ decode 0x0A00000000000000 = .illegal ∧
    decode 0x0100000000000004 = .illegal ∧ decode 0x0500000000000080 = .illegal ∧
    decode 0x0800000000000100 = .illegal ∧ decode 0x1F00000000000001 = .illegal ∧
    decode 0x1300010000000000 = .illegal ∧ decode 0x0900000000020F0A = .illegal := by decide

theorem test_decode_bad_bank : decode 0x0100000000000003 = .badBank ∧ decode 0x0900000000000303 = .badBank := by
  decide

/-- 95 section 2.1: the stored bytes of an LSET. -/
theorem test_bytes_little_endian :
    toBytes (encode (.lset 0x3F 0x06 0x80 0xFF 0x01)) = [0x3F, 0x06, 0x80, 0xFF, 0x01, 0x00, 0x00, 0x13] ∧
    decodeTableWord 64 0x13000001FF80063F = some (.lset 0x3F 0x06 0x80 0xFF 0x01) ∧
    (match decodeBytes [0x90, 0x00] with | .ok _ => false | .error e => e = .truncated) = true := by decide

/-! ### Small states -/

/-- The state a `next` outcome gives. -/
def stateAfter (o : Host.Outcome State Fault Refusal) : Option State :=
  match o with
  | .next t => some t
  | _ => none

/-- A block under EX whose three banks are open, with all DIR the first word and all OUT the second. -/
def openBlock (dir out : Word) : State :=
  { State.reset with fd := .const true, map := .const true, dir := .const dir, out := .const out }

/-- The same with a constructed driver. -/
def drivenBlock (dir out : Word) : State := { openBlock dir out with drv := .constructed }

/-- The reset state with one word from the host. -/
def hostSends (w : CmdWord) : State := { State.reset with commands := [w] }

/-- A state with listed draws of IN, and listed setup outcomes. -/
def withDraws (ins : List Word) (setups : List SetupOutcome) (s : State) : State :=
  { s with env := ⟨ins, setups, [], 0⟩ }

/-- The reset state on which LNEW's three setups succeed. -/
def lnewBlock : State := withDraws [] [.ok, .ok, .ok] State.reset

/-- A state under other parameters. -/
def under (f : Config → Config) (s : State) : State := { s with cfg := f s.cfg }

/-- The parameters EX are admitted (95 section 0). -/
theorem test_example_configuration_is_legal : configLegal Config.atReset = true := by decide

/-- The digits of EX are the default patterns of 43 R162 under its segment map (95 section 0). -/
theorem test_default_digits :
    Config.exampleDigits.toList = defaultDigitSegments.map (patternOf Config.exampleSegBits) := by decide

/-! ### One step of each command (95 section 2, and the examples of the rules) -/

theorem test_open : (stateAfter (step (withDraws [] [.ok] (hostSends 0x0100000000000001)))).map
    (fun t => (t.fd, t.map, t.trace, t.pc)) =
      some (⟨false, true, false⟩, ⟨false, true, false⟩, [.acq .b1], 1) := by decide

theorem test_open_map_failed : (stateAfter (exec (.openBank 2) (withDraws [] [.mapFailed] State.reset))).map
    (fun t => (t.fd, t.trace, t.phase)) =
      some (.const false, [.rel .b2, .fault .mapFailed],
        .faulted ⟨.mapFailed, 0, 0x0100000000000002, some .b2⟩) := by decide

theorem test_close : (stateAfter (exec (.closeBank 1) (openBlock 0 7))).map (fun t => (t.fd, t.trace, t.out)) =
    some (⟨true, false, true⟩, [.rel .b1], .const 7) := by decide

theorem test_close_of_closed_bank : (stateAfter (exec (.closeBank 1) State.reset)).map (fun t => (t.phase, t.trace)) =
    some (.faulted ⟨.bankNotOpen, 0, 0x0200000000000001, some .b1⟩, [.fault .bankNotOpen]) := by decide

theorem test_setdir : (stateAfter (exec (.setdir 0 4 .output) (openBlock 0x100 0))).map (fun t => (t.trace, t.pc)) =
    some ([.rd .b0 .dir 0x100, .wr .b0 .dir 0x110], 1) := by decide

theorem test_setdir_two_phase :
    (stateAfter (exec (.setdir 0 8 .input) (under (fun c => { c with dirTwoPhase := true }) (openBlock 0x110 0)))).map
      (·.trace) =
        some [.rd .b0 .dir 0x110, .wr .b0 .dir 0x10, .rd .b0 .dir 0x10, .wr .b0 .dir 0x10] := by decide

theorem test_wrbit : (stateAfter (exec (.wrbit 0 9 true) (openBlock 0 0x80000000))).map (fun t => (t.trace, t.out.b0)) =
    some ([.rd .b0 .out 0x80000000, .wr .b0 .out 0x80000200], 0x80000200) := by decide

theorem test_wrbit_top_bit : (stateAfter (exec (.wrbit 2 31 false) (openBlock 0 0xFFFFFFFF))).map (·.trace) =
    some [.rd .b2 .out 0xFFFFFFFF, .wr .b2 .out 0x7FFFFFFF] := by decide

theorem test_rdbit : (stateAfter (exec (.rdbit 0 9) (withDraws [0x200] [] (openBlock 0 0)))).map
    (fun t => (t.res, t.trace)) = some (some true, [.rd .b0 .inp 0x200, .ret true]) := by decide

theorem test_rdbit_ignores_out : (stateAfter (exec (.rdbit 0 9) (withDraws [0xFFFFFDFF] [] (openBlock 0 0xFFFFFFFF)))).map
    (·.res) = some (some false) := by decide

theorem test_pmode : (stateAfter (exec (.pmode ⟨true, 4, 0⟩ .output) (openBlock 0 0))).map (·.trace) =
    some [.rd .b0 .dir 0, .wr .b0 .dir 0x10] := by decide

theorem test_pwrite_inverted : (stateAfter (exec (.pwrite ⟨true, 5, 0⟩ true) (openBlock 0 0x20))).map (·.trace) =
    some [.rd .b0 .out 0x20, .wr .b0 .out 0x0] := by decide

theorem test_pwrite_straight : (stateAfter (exec (.pwrite ⟨false, 5, 0⟩ true) (openBlock 0 0))).map (·.trace) =
    some [.rd .b0 .out 0x0, .wr .b0 .out 0x20] := by decide

theorem test_pread_inverted : (stateAfter (exec (.pread ⟨true, 3, 1⟩) (withDraws [0] [] (openBlock 0 0)))).map
    (fun t => (t.res, t.trace)) = some (some true, [.rd .b1 .inp 0, .ret true]) := by decide

/-- The values written to OUT, in order. -/
def outWrites (tr : List Event) : List Word :=
  tr.filterMap fun e => match e with | .wr _ .out v => some v | _ => none

theorem test_shiftout_msb :
    (stateAfter (exec (.shiftout ⟨false, 0, 1⟩ ⟨false, 1, 1⟩ .msb 0xB4) (openBlock 3 0))).map
      (fun t => outWrites t.trace) =
        some [1, 3, 1, 0, 2, 0, 1, 3, 1, 1, 3, 1, 0, 2, 0, 1, 3, 1, 0, 2, 0, 0, 2, 0] := by decide +kernel

theorem test_shiftout_one_pin :
    (stateAfter (exec (.shiftout ⟨false, 0, 1⟩ ⟨false, 0, 1⟩ .lsb 0xFF) (openBlock 3 0))).map
      (fun t => outWrites t.trace) =
        some [1, 1, 0, 1, 1, 0, 1, 1, 0, 1, 1, 0, 1, 1, 0, 1, 1, 0, 1, 1, 0, 1, 1, 0] := by decide +kernel

theorem test_lnew : (stateAfter (exec .lnew lnewBlock)).map (fun t => (t.trace, displayState t)) =
    some ([.acq .b0, .acq .b1, .acq .b2, .rd .b0 .dir 0x0, .wr .b0 .dir 0x4, .rd .b0 .dir 0x4, .wr .b0 .dir 0xC,
      .rd .b1 .dir 0x0, .wr .b1 .dir 0x20, .rd .b2 .dir 0x0, .wr .b2 .dir 0x80, .rd .b1 .out 0x0,
      .wr .b1 .out 0x20], .disabled) := by decide +kernel

theorem test_lnew_map_failed : (stateAfter (exec .lnew (withDraws [] [.ok, .mapFailed] State.reset))).map
    (fun t => (t.trace, t.phase)) =
      some ([.acq .b0, .rel .b0, .rel .b1, .fault .mapFailed],
        .faulted ⟨.mapFailed, 0, 0x1000000000000000, some .b1⟩) := by decide

theorem test_lenable : (stateAfter (exec .lenable (drivenBlock 0xFFFFFFFF 0x20))).map
    (fun t => (t.trace, displayState t)) =
      some ([.rd .b1 .out 0x20, .wr .b1 .out 0x0], .enabled) := by decide

theorem test_ldisable : (stateAfter (exec .ldisable (drivenBlock 0xFFFFFFFF 0))).map
    (fun t => (t.trace, displayState t)) =
      some ([.rd .b1 .out 0x0, .wr .b1 .out 0x20], .disabled) := by decide

theorem test_lset : (stateAfter (exec (.lset 0x3F 0x06 0x80 0xFF 0x01) (drivenBlock 0xFFFFFFFF 0))).map
    (fun t => (t.trace.length, dispByte t 0, dispByte t 4, t.latch == t.sr)) =
      some (254, cellsOfByte 0x3F, cellsOfByte 0x01, true) := by decide +kernel

/-- 95 section 2.5, the inverted wiring. -/
theorem test_lset_inverted : (stateAfter (exec (.lset 0x3F 0x06 0x80 0xFF 0x01)
    (under (fun c => { c with wiring := ⟨⟨.b0, 2, true⟩, ⟨.b0, 3, true⟩, ⟨.b1, 5, true⟩, ⟨.b2, 7, true⟩⟩ })
      (drivenBlock 0xFFFFFFFF 0)))).map (fun t => (t.out.b0, t.out.b2, dispByte t 1)) =
      some (0xC, 0x80, cellsOfByte 0x06) := by decide +kernel

/-- A block with banks 0 and 2 open. -/
def twoBanks : State := { openBlock 0 0 with fd := ⟨true, false, true⟩, map := ⟨true, false, true⟩ }

theorem test_exit : (stateAfter (exec .exit twoBanks)).map (fun t => (t.trace, t.phase, t.pc)) =
    some ([.rel .b0, .rel .b2, .exit], .exited, 1) := by decide

theorem test_illegal_word : (stateAfter (step (hostSends 0x0A00000000000000))).map (fun t => (t.trace, t.phase, t.pc)) =
    some ([.fault .illegalCommand], .faulted ⟨.illegalCommand, 0, 0x0A00000000000000, none⟩, 0) := by decide

/-- 60 R201, and the record's code of 95 section 2.1. -/
theorem test_fault_numbers : [FaultCode.deviceOpenFailed, .mapFailed, .illegalCommand, .badBank, .bankNotOpen,
    .bankAlreadyOpen, .driverNotConstructed, .driverAlreadyConstructed].map faultNumber = [1, 2, 3, 4, 5, 6, 7, 8] := by
  decide

theorem test_colon : glow { drivenBlock 0xFFFFFFFF 0 with latch := Vector.replicate 40 (.known true) } 2 .top = .lit ∧
    glow { drivenBlock 0xFFFFFFFF 0 with latch := Vector.replicate 40 (.known true) } 2 .middle = .any := by decide

/-- 20 R64: another writer sets bit 7 between the read and the write of a bit update. -/
def racedBlock : State :=
  { under (fun c => { c with externalWriters := true }) (openBlock 0 0) with
    trace := [.ret true]
    env := ⟨[], [], [[], [⟨some (0, 0x80), none, none⟩]], 0⟩ }

theorem test_lost_update : (bankWriteBit .b0 0 true racedBlock).out.b0 = 1 := by decide

theorem test_physical_access :
    (match memRead 0x1004 4 (openBlock 0 5) with | .next x => x.1 == 5 | _ => false) = true ∧
    (match memRead 0x1004 2 (openBlock 0 5) with | .refused e => e == .accessWidth | _ => false) = true ∧
    (match memWrite 0x1008 4 0 (openBlock 0 5) with | .refused e => e == .dataInWrite | _ => false) = true ∧
    (match memRead 0x100C 4 (openBlock 0 5) with | .refused e => e == .outsideRegisters | _ => false) = true ∧
    (match memRead 0x1004 4 State.reset with | .refused e => e == .pageNotMapped | _ => false) = true := by decide

/-! ### The assembler (30 R105, R106) -/

theorem test_assembler : assembleLine Config.atReset "shiftout 0.2, ~0.3, msb, 0x80 ; a comment" =
      some [.shiftout ⟨false, 2, 0⟩ ⟨true, 3, 0⟩ .msb 0x80] ∧
    assembleLine Config.atReset "lset digit(1), 0b101, 3, 255, 0xfF" = some [.lset 0x06 5 3 0xFF 0xFF] ∧
    assembleLine Config.atReset "pulse 2.7" = some [.pwrite ⟨false, 7, 2⟩ true, .pwrite ⟨false, 7, 2⟩ false] := by
  decide +kernel

theorem test_assembler_refuses : assembleLine Config.atReset "open 3" = none ∧
    assembleLine Config.atReset "wrbit 0, 32, high" = none ∧ assembleLine Config.atReset "lnew 0" = none := by
  decide +kernel

/-! ### Witnesses: a state and operands that meet all the hypotheses of a statement -/

/-- A block under EX that is Running takes commands. -/
theorem ready_of {s : State} (hc : configLegal s.cfg = true) (hp : s.phase = .running) : s.Ready := ⟨hc, hp⟩

theorem openBlock_ready (dir out : Word) : (openBlock dir out).Ready := ready_of test_example_configuration_is_legal rfl

theorem drivenBlock_ready (dir out : Word) : (drivenBlock dir out).Ready := ready_of test_example_configuration_is_legal rfl

theorem hostSends_ready (w : CmdWord) : (hostSends w).Ready := ready_of test_example_configuration_is_legal rfl

theorem lnewBlock_ready : ReadyForLnew lnewBlock [] :=
  ⟨ready_of test_example_configuration_is_legal rfl, rfl, fun b => by cases b <;> rfl, rfl⟩

theorem lsetBlock_ready (dir out : Word) : ReadyForLset (drivenBlock dir out) :=
  ⟨drivenBlock_ready dir out, rfl, rfl, rfl, rfl⟩

/-- The step that takes a word which decodes. -/
theorem step_hostSends {w : CmdWord} {i : Instr} (hd : decode w = .cmd i) :
    step (hostSends w) = exec i State.reset := by
  simp only [step, takeWord, hostSends, hd]
  rfl

theorem reset_ready : State.reset.Ready := ready_of test_example_configuration_is_legal rfl

/-- EXIT from reset ends the run. -/
theorem step_exit : ∃ t, step (hostSends 0x1F00000000000000) = .next t ∧ t.Ended :=
  ⟨_, (step_hostSends (i := .exit) (by decide)).trans (command_ready reset_ready _), by unfold State.Ended; decide⟩

theorem hostSends_inv (w : CmdWord) : (hostSends w).Inv where
  mapped_open := fun b h => by cases b <;> exact h
  open_mapped := fun b h => by cases b <;> exact h
  ended_released := fun h => absurd rfl h
  record_pc := fun r h => by cases h
  held := fun b => by cases b <;> rfl
  result := rfl
  running_open := fun _ e he => by cases he
  exited_last := fun h => by cases h
  faulted_last := fun r h => by cases h
  floating_clock := fun _ => rfl
  floating_latch := fun _ => rfl

theorem witness_EncodedCommandDecodesToItself :
    (Instr.shiftout ⟨true, 31, 2⟩ ⟨false, 0, 1⟩ .msb 0xFF).wf = true := by decide

theorem witness_DecodedCommandEncodesToItsWord : decode 0x13000001FF80063F = .cmd (.lset 0x3F 0x06 0x80 0xFF 0x01) := by
  decide

theorem witness_IllegalWordsAreThoseOutsideTheTable :
    (0x0300000000000000, 0xFFFFFFFFFFFFFF00) ∈ opcodeTable ∧
    (0x03000000000000FE : CmdWord) &&& 0xFFFFFFFFFFFFFF00 = 0x0300000000000000 := by decide

theorem witness_ReservedEncodingsRaiseIllegalCommand (w : CmdWord) : (hostSends w).Ready ∧ (hostSends w).commands = [w] ∧
    reservedOpcode 0x00 ∧ reservedOpcode 0x0A ∧ reservedOpcode 0x0F ∧ reservedOpcode 0x14 ∧ reservedOpcode 0x1E ∧
    reservedOpcode 0x20 ∧ reservedOpcode 0xFF ∧
    reservedBitSet 0x0100000000000004 ∧ reservedBitSet 0x0180000000000000 ∧ reservedBitSet 0x0900000000020000 ∧
    reservedBitSet 0x0900000000800000 := by
  refine ⟨hostSends_ready w, rfl, .inl rfl, .inr (.inl (by decide)), .inr (.inl (by decide)),
    .inr (.inr (.inl (by decide))), .inr (.inr (.inl (by decide))), .inr (.inr (.inr (by decide))),
    .inr (.inr (.inr (by decide))),
    ⟨(0x01, [(55, 2)]), by decide, by decide, (55, 2), by decide, 2, by decide, by decide, by decide⟩,
    ⟨(0x01, [(55, 2)]), by decide, by decide, (55, 2), by decide, 55, by decide, by decide, by decide⟩,
    ⟨(0x09, [(55, 32), (23, 17)]), by decide, by decide, (23, 17), by decide, 17, by decide, by decide, by decide⟩,
    ⟨(0x09, [(55, 32), (23, 17)]), by decide, by decide, (23, 17), by decide, 23, by decide, by decide, by decide⟩⟩

/-- A word in which no bit from 0 to 63 that its format reserves is 1. -/
theorem no_reserved_bit {w : CmdWord}
    (h : ∀ row ∈ reservedBits, (byteAt w 56).toNat = row.1 → ∀ r ∈ row.2,
      ∀ n : Fin 64, r.2 ≤ n.val → n.val ≤ r.1 → w.getLsbD n.val = false) : ¬ reservedBitSet w := by
  rintro ⟨row, hrow, hop, r, hr, n, h1, h2, h3⟩
  have hn : n < 64 := by
    by_contra hn
    rw [BitVec.getLsbD_of_ge w n (by omega)] at h3
    cases h3
  rw [h row hrow hop r hr ⟨n, hn⟩ h1 h2] at h3
  cases h3

theorem witness_BankFieldThreeRaisesBadBank :
    (hostSends 0x0100000000000003).Ready ∧ legalShape 0x0100000000000003 0x01 ∧
    (0x0100000000000003 : CmdWord).getLsbD 0 = true ∧ (0x0100000000000003 : CmdWord).getLsbD 1 = true ∧
    legalShape 0x0900000000000303 0x09 ∧ (0x0900000000000303 : CmdWord).getLsbD 0 = true ∧
    (0x0900000000000303 : CmdWord).getLsbD 1 = true ∧
    legalShape 0x090000000000030A 0x09 ∧ (0x090000000000030A : CmdWord).getLsbD 8 = true ∧
    (0x090000000000030A : CmdWord).getLsbD 9 = true := by
  refine ⟨hostSends_ready _, ⟨by decide, no_reserved_bit (by decide)⟩, by decide, by decide,
    ⟨by decide, no_reserved_bit (by decide)⟩, by decide, by decide,
    ⟨by decide, no_reserved_bit (by decide)⟩, by decide, by decide⟩

theorem witness_StepRunsTheDecodedCommand :
    (hostSends 0x1000000000000000).commands = [0x1000000000000000] ∧ decode 0x1000000000000000 = .cmd .lnew ∧
    State.reset.Ready ∧ State.reset.commands = [] := ⟨rfl, by decide, ready_of test_example_configuration_is_legal rfl, rfl⟩

theorem witness_EndedBlockTakesNoStep : configLegal State.reset.cfg = true ∧
    ({ State.reset with phase := .exited } : State).phase = .exited ∧
    ({ State.reset with phase := .faulted ⟨.badBank, 0, 3, none⟩ } : State).phase =
      .faulted ⟨.badBank, 0, 3, none⟩ := ⟨by decide, rfl, rfl⟩

/-- EX but for the latch-enable pin, which names the clock's line. -/
def sharedLines (c : Config) : Config := { c with wiring := { c.wiring with le := c.wiring.clk } }

theorem witness_WiringIsFixedAndSharedLinesAreRefused :
    (∃ t, step (hostSends 0x1F00000000000000) = .next t ∧ t.Ended) ∧
    ¬ ((driverPins (under sharedLines State.reset).cfg.wiring).map fun p => (p.bank, p.bit)).Nodup :=
  ⟨step_exit, by decide⟩

theorem witness_PcCountsCompletedCommands :
    (hostSends 0x1F00000000000000).Ready ∧ (hostSends 0x1F00000000000000).commands = [0x1F00000000000000] :=
  ⟨hostSends_ready _, rfl⟩

theorem witness_StepKeepsTheInvariant :
    (hostSends 0x1F00000000000000).Inv ∧ ∃ t, step (hostSends 0x1F00000000000000) = .next t ∧ t.Ended :=
  ⟨hostSends_inv _, step_exit⟩

theorem witness_RaisingAFaultTearsDownAndRecords : ∀ b, (openBlock 0 0).map.get b = true → (openBlock 0 0).fd.get b = true :=
  fun b _ => by cases b <;> rfl

theorem witness_BankCommandsNeedTheirBankOpen : State.reset.Ready ∧ bankOfField 2 = some .b2 ∧
    bankOpen State.reset .b2 = false ∧ twoBanks.Ready ∧ bankOfField 0 = some .b0 ∧ bankOfField 1 = some .b1 ∧
    bankOpen twoBanks .b0 = true ∧ bankOpen twoBanks .b1 = false :=
  ⟨ready_of test_example_configuration_is_legal rfl, by decide, rfl, ready_of test_example_configuration_is_legal rfl, by decide, by decide, rfl, rfl⟩

/-- A constructed driver, with banks 0 and 2 open: DATA, CLK and LE may be driven, OE may not. -/
def oeClosed : State := { twoBanks with drv := .constructed }

/-- A constructed driver, with bank 0 open only: LE's bank is the first closed one. -/
def leClosed : State := { oeClosed with fd := ⟨true, false, false⟩, map := ⟨true, false, false⟩ }

theorem witness_DriverCommandsNeedDriverThenBanks :
    twoBanks.Ready ∧ twoBanks.drv = .unconstructed ∧ oeClosed.Ready ∧ oeClosed.drv = .constructed ∧
    bankOpen oeClosed oeClosed.cfg.wiring.oe.bank = false ∧ leClosed.Ready ∧ leClosed.drv = .constructed ∧
    [leClosed.cfg.wiring.data, leClosed.cfg.wiring.clk, leClosed.cfg.wiring.le].find?
      (fun p => !bankOpen leClosed p.bank) = some leClosed.cfg.wiring.le :=
  ⟨ready_of test_example_configuration_is_legal rfl, rfl, ready_of test_example_configuration_is_legal rfl, rfl, rfl, ready_of test_example_configuration_is_legal rfl, rfl, by decide⟩

theorem witness_OpeningCommandsNeedClosedBanks :
    (openBlock 0 0).Ready ∧ bankOfField 0 = some .b0 ∧ (openBlock 0 0).fd.get .b0 = true ∧
    (openBlock 0 0).drv = .unconstructed ∧ (∀ b', fieldOfBank b' < fieldOfBank .b0 → (openBlock 0 0).fd.get b' = false) ∧
    (drivenBlock 0 0).Ready ∧ (drivenBlock 0 0).fd.get .b0 = true ∧ (drivenBlock 0 0).drv = .constructed :=
  ⟨openBlock_ready 0 0, by decide, rfl, rfl, fun b h => by cases b <;> revert h <;> decide,
    drivenBlock_ready 0 0, rfl, rfl⟩

theorem witness_FaultsArePrecise : ∃ t r, (hostSends 0).Ready ∧ (hostSends 0).commands = [0] ∧
    step (hostSends 0) = .next t ∧ t.phase = .faulted r ∧ (hostSends 0).SoleWriter ∧
    r.code ≠ .deviceOpenFailed ∧ r.code ≠ .mapFailed ∧
    ∀ b, (hostSends 0).map.get b = true → (hostSends 0).fd.get b = true :=
  ⟨_, _, hostSends_ready 0, rfl, command_ready (hostSends_ready 0) _, rfl, rfl, by decide, by decide,
    (hostSends_inv 0).mapped_open⟩

theorem witness_EveryEndReleasesTheBanksInOrder : (hostSends 0x1F00000000000000).Inv ∧
    (hostSends 0x1F00000000000000).Ready ∧ ∃ t, step (hostSends 0x1F00000000000000) = .next t ∧ t.Ended :=
  ⟨hostSends_inv _, hostSends_ready _, step_exit⟩

theorem witness_ReadsReturnTheLatestWrite :
    (hostSends 0x1F00000000000000).SoleWriter ∧ ∃ t, step (hostSends 0x1F00000000000000) = .next t ∧ t.Ended :=
  ⟨rfl, step_exit⟩

theorem witness_EveryAccessIsToAHeldPage :
    (hostSends 0x1000000000000000).Inv ∧ ∃ t, step (hostSends 0x1000000000000000) = .next t :=
  ⟨hostSends_inv _, ⟨_, (step_hostSends (i := .lnew) (by decide)).trans (command_ready reset_ready _)⟩⟩

theorem witness_SetDirectionAccesses : (openBlock 0 0).SoleWriter ∧ (openBlock 0 0).cfg.dirTwoPhase = false ∧
    (under (fun c => { c with dirTwoPhase := true }) (openBlock 0 0)).SoleWriter ∧
    (under (fun c => { c with dirTwoPhase := true }) (openBlock 0 0)).cfg.dirTwoPhase = true := ⟨rfl, rfl, rfl, rfl⟩

theorem witness_SetDirectionIsIdempotentAndRoundTrips : (openBlock 0 0).SoleWriter ∧ (openBlock 0x80000000 0).SoleWriter ∧
    ∀ j, j ≠ (31 : BitVec 5).toNat → (openBlock 0 0).dirBit .b0 j = (openBlock 0x80000000 0).dirBit .b0 j := by
  refine ⟨rfl, rfl, fun j hj => ?_⟩
  have h : ∀ j : Fin 32, j.val ≠ 31 → (0 : Word).getLsbD j.val = (0x80000000 : Word).getLsbD j.val := by decide
  by_cases hl : j < 32
  · exact h ⟨j, hl⟩ hj
  · have h0 : (openBlock 0 0).dirBit .b0 j = false := BitVec.getLsbD_of_ge (0 : Word) j (by omega)
    have h1 : (openBlock 0x80000000 0).dirBit .b0 j = false := BitVec.getLsbD_of_ge (0x80000000 : Word) j (by omega)
    rw [h0, h1]

theorem witness_BitWritesAreIsolated : (openBlock 0 0).SoleWriter ∧
    (∃ t, exec (.wrbit 0 31 true) (openBlock 0 0) = .next t) ∧
    .b1 ∉ namedBanks (openBlock 0 0).cfg (.wrbit 0 31 true) :=
  ⟨rfl, ⟨_, command_ready (openBlock_ready 0 0) _⟩, by decide⟩

theorem witness_StateChangesOnlyByTheListedCommands :
    (∃ t, exec .exit (drivenBlock 0 0) = .next t ∧ t.drv ≠ (drivenBlock 0 0).drv) ∧ (drivenBlock 0 0).SoleWriter ∧
    writesDir .exit = false ∧ writesOut .exit = false ∧ returnsLevel .exit = false ∧ State.reset.res = none :=
  ⟨⟨_, command_ready (drivenBlock_ready 0 0) _, by decide⟩, rfl, rfl, rfl, rfl, rfl⟩

theorem witness_OtherWritersUpdateIsLost : racedBlock.cfg.externalWriters = true ∧ racedBlock.trace ≠ [] ∧
    racedBlock.env.writerDraws = [] :: [⟨some (0, 0x80), none, none⟩] :: [] := ⟨rfl, by decide, rfl⟩

theorem witness_AdmittedCommandsComplete : lnewBlock.Ready ∧ admitted lnewBlock .lnew ∧
    3 ≤ lnewBlock.env.setupDraws.length ∧ ¬ admitted lnewBlock .lenable ∧
    admitted (openBlock 0 0) (.shiftout ⟨false, 0, 0⟩ ⟨true, 31, 2⟩ .lsb 0) ∧ admitted (openBlock 0 0) (.rdbit 2 31) ∧
    admitted (drivenBlock 0 0) (.lset 0 0 0 0 0) ∧ admitted (withDraws [] [.ok] State.reset) (.openBank 1) := by
  refine ⟨lnewBlock_ready.ready, ⟨rfl, lnewBlock_ready.closed, [], rfl⟩, by decide, fun h => ?_,
    ⟨.b0, .b2, by decide, by decide, rfl, rfl⟩, ⟨.b2, by decide, rfl⟩, ⟨rfl, rfl, rfl, rfl⟩,
    ⟨.b1, [], by decide, rfl, rfl⟩⟩
  exact absurd h.1 (by decide)

theorem witness_OpenMapsTheBank : (withDraws [] [.ok] State.reset).Ready ∧ bankOfField 2 = some .b2 ∧
    (withDraws [] [.ok] State.reset).fd.get .b2 = false ∧
    (withDraws [] [.ok] State.reset).env.setupDraws = [.ok] ∧ (withDraws [] [.ok] State.reset).SoleWriter :=
  ⟨ready_of test_example_configuration_is_legal rfl, by decide, rfl, rfl, rfl⟩

theorem witness_OpenFailureReleasesEveryBank : (withDraws [] [.mapFailed] twoBanks).Ready ∧ bankOfField 1 = some .b1 ∧
    (withDraws [] [.mapFailed] twoBanks).fd.get .b1 = false ∧
    (∀ b, (withDraws [] [.mapFailed] twoBanks).map.get b = true → (withDraws [] [.mapFailed] twoBanks).fd.get b = true) ∧
    (withDraws [] [.mapFailed] twoBanks).env.setupDraws = [.mapFailed] ∧ SetupOutcome.mapFailed ≠ .ok ∧
    SetupOutcome.deviceOpenFailed ≠ .ok :=
  ⟨ready_of test_example_configuration_is_legal rfl, by decide, rfl, fun b => by cases b <;> decide, rfl, by decide, by decide⟩

theorem witness_CloseReleasesTheBank : (openBlock 0 0).Ready ∧ bankOfField 1 = some .b1 ∧
    bankOpen (openBlock 0 0) .b1 = true ∧ (openBlock 0 0).SoleWriter := ⟨openBlock_ready 0 0, by decide, rfl, rfl⟩

/-- A block under EX with all DIR bits 1 that sets a direction in two cycles. -/
def twoPhaseBlock : State := under (fun c => { c with dirTwoPhase := true }) (openBlock 0xFFFFFFFF 0)

/-- Line 31 of bank 2, which is no line of the chain; and line 3 of bank 0, the clock's, in one cycle and in two. -/
theorem witness_SetdirAndPmodeSetOneDirectionBit : (openBlock 0xFFFFFFFF 0).Ready ∧ (openBlock 0xFFFFFFFF 0).SoleWriter ∧
    bankOpen (openBlock 0xFFFFFFFF 0) .b2 = true ∧ bankOpen (openBlock 0xFFFFFFFF 0) .b0 = true ∧
    SetsMode .b2 31 .input (.setdir 2 31 .input) ∧ SetsMode .b0 3 .output (.pmode ⟨true, 3, 0⟩ .output) ∧
    (openBlock 0xFFFFFFFF 0).cfg.dirTwoPhase = false ∧ ¬ chainLine (openBlock 0xFFFFFFFF 0).cfg .b2 31 ∧
    (openBlock 0xFFFFFFFF 0).ChainAtRest ∧ twoPhaseBlock.Ready ∧ twoPhaseBlock.SoleWriter ∧
    bankOpen twoPhaseBlock .b0 = true ∧ twoPhaseBlock.cfg.dirTwoPhase = true ∧ chainLine twoPhaseBlock.cfg .b0 3 := by
  refine ⟨openBlock_ready _ _, rfl, rfl, rfl, .setdir 2 (by decide), .pmode ⟨true, 3, 0⟩ (by decide) rfl, rfl, ?_,
    by unfold State.ChainAtRest; decide, ready_of (by decide) rfl, rfl, rfl, rfl, .inr (.inl ⟨rfl, rfl⟩)⟩
  rintro (h | h | h) <;> exact absurd h.2 (by decide)

theorem witness_WrbitAndPwriteWriteOneDataBit : (openBlock 0xFFFFFFFF 0).Ready ∧ (openBlock 0xFFFFFFFF 0).SoleWriter ∧
    bankOpen (openBlock 0xFFFFFFFF 0) .b2 = true ∧ bankOpen (openBlock 0xFFFFFFFF 0) .b0 = true ∧
    WritesLevel .b2 31 true (.wrbit 2 31 true) ∧ WritesLevel .b0 0 true (.pwrite ⟨false, 0, 0⟩ true) ∧
    WritesLevel .b0 3 false (.pwrite ⟨true, 3, 0⟩ true) ∧ ¬ chainLine (openBlock 0xFFFFFFFF 0).cfg .b2 31 ∧
    (openBlock 0xFFFFFFFF 0).ChainAtRest := by
  refine ⟨openBlock_ready _ _, rfl, rfl, rfl, .wrbit 2 (by decide), .straight ⟨false, 0, 0⟩ (by decide) rfl rfl,
    .inverted (x := false) ⟨true, 3, 0⟩ (by decide) rfl rfl, ?_, by unfold State.ChainAtRest; decide⟩
  rintro (h | h | h) <;> exact absurd h.2 (by decide)

theorem witness_RdbitAndPreadReturnTheDrawnBit : (withDraws [0x200] [] (openBlock 0 0)).Ready ∧
    bankOpen (withDraws [0x200] [] (openBlock 0 0)) .b2 = true ∧ ReadsLevel .b2 31 false (.rdbit 2 31) ∧
    ReadsLevel .b2 9 true (.pread ⟨true, 9, 2⟩) ∧ (withDraws [0x200] [] (openBlock 0 0)).env.inDraws = [0x200] ∧
    (withDraws [0x200] [] (openBlock 0 0)).SoleWriter :=
  ⟨ready_of test_example_configuration_is_legal rfl, rfl, .rdbit 2 (by decide), .pread ⟨true, 9, 2⟩ (by decide) rfl, rfl, rfl⟩

theorem witness_ReadResultIgnoresTheRegisters : ∃ t t', (withDraws [0x200] [] (openBlock 0 0)).Ready ∧
    (withDraws [0x200] [] (openBlock 0 0xFFFFFFFF)).Ready ∧ returnsLevel (.rdbit 0 9) = true ∧
    exec (.rdbit 0 9) (withDraws [0x200] [] (openBlock 0 0)) = .next t ∧
    exec (.rdbit 0 9) (withDraws [0x200] [] (openBlock 0 0xFFFFFFFF)) = .next t' ∧ ¬ t.Ended ∧ ¬ t'.Ended := by
  have h1 : (withDraws [0x200] [] (openBlock 0 0)).Ready := ready_of test_example_configuration_is_legal rfl
  have h2 : (withDraws [0x200] [] (openBlock 0 0xFFFFFFFF)).Ready := ready_of test_example_configuration_is_legal rfl
  exact ⟨_, _, h1, h2, rfl, command_ready h1 _, command_ready h2 _, fun h => h (by decide), fun h => h (by decide)⟩

/-- Two lines outside the chain, and two pins that name one line. -/
theorem witness_ShiftoutDrivesItsTwoPins : (openBlock 0xFFFFFFFF 0).Ready ∧ (openBlock 0xFFFFFFFF 0).SoleWriter ∧
    pinOfOp ⟨false, 0, 1⟩ = some ⟨.b1, 0, false⟩ ∧ pinOfOp ⟨true, 31, 2⟩ = some ⟨.b2, 31, true⟩ ∧
    pinOfOp ⟨true, 0, 1⟩ = some ⟨.b1, 0, true⟩ ∧
    bankOpen (openBlock 0xFFFFFFFF 0) .b1 = true ∧ bankOpen (openBlock 0xFFFFFFFF 0) .b2 = true ∧
    ¬ IsLine ⟨.b1, 0, false⟩ .b2 31 ∧ IsLine ⟨.b1, 0, false⟩ .b1 0 ∧
    ¬ chainLine (openBlock 0xFFFFFFFF 0).cfg .b1 0 ∧ ¬ chainLine (openBlock 0xFFFFFFFF 0).cfg .b2 31 ∧
    (openBlock 0xFFFFFFFF 0).ChainAtRest := by
  refine ⟨openBlock_ready _ _, rfl, by decide, by decide, by decide, rfl, rfl, ?_, ⟨rfl, rfl⟩, ?_, ?_,
    by unfold State.ChainAtRest; decide⟩
  · rintro ⟨h, -⟩; cases h
  · rintro (h | h | h) <;> exact absurd h.2 (by decide)
  · rintro (h | h | h) <;> exact absurd h.2 (by decide)

theorem chainDriven : (drivenBlock 0xFFFFFFFF 0).ChainDriven :=
  ⟨by unfold State.Drives; decide, by unfold State.Drives; decide, by unfold State.Drives; decide⟩

/-- A driven block whose latch-enable line floats. -/
def leFloats : State := { drivenBlock 0xFFFFFFFF 0 with dir := ⟨0xFFFFFFFF, 0xFFFFFFFF, 0⟩ }

/-- EX but for an inverted clock pin. -/
def invertedClock (c : Config) : Config := { c with wiring := { c.wiring with clk := { c.wiring.clk with inv := true } } }

/-- An uninverted clock that is Low and a latch-enable that floats; and an inverted clock, physically High. -/
theorem witness_ShiftOutLoadsTheChain : wiringLegal leFloats.cfg.wiring = true ∧ leFloats.SoleWriter ∧
    leFloats.cfg.setupHoldMet = true ∧ leFloats.Drives leFloats.cfg.wiring.data ∧ leFloats.Drives leFloats.cfg.wiring.clk ∧
    ¬ leFloats.Drives leFloats.cfg.wiring.le ∧ leFloats.cfg.wiring.clk.inv = false ∧ leFloats.outBit .b0 3 = false ∧
    let s := under invertedClock (drivenBlock 0xFFFFFFFF 0xFFFFFFFF)
    wiringLegal s.cfg.wiring = true ∧ s.SoleWriter ∧ s.cfg.setupHoldMet = true ∧ s.Drives s.cfg.wiring.data ∧
    s.Drives s.cfg.wiring.clk ∧ s.cfg.wiring.clk.inv = true := by
  unfold State.SoleWriter State.Drives
  decide

/-- The block of `lnewBlock` with every DIR and OUT bit 1: LNEW finds its lines driven. -/
def lnewDriven : State := { lnewBlock with dir := .const 0xFFFFFFFF, out := .const 0xFFFFFFFF }

/-- Lines that were undriven, lines that were driven throughout, and an open transparent latch. -/
theorem witness_LnewConstructsTheDriver : ReadyForLnew lnewBlock [] ∧ lnewBlock.SoleWriter ∧
    ¬ drivenThroughLnew lnewBlock lnewBlock.cfg.wiring.clk ∧ ¬ drivenThroughLnew lnewBlock lnewBlock.cfg.wiring.le ∧
    ¬ latchOpenAfterLnew lnewBlock ∧
    ReadyForLnew lnewDriven [] ∧ lnewDriven.SoleWriter ∧ drivenThroughLnew lnewDriven lnewDriven.cfg.wiring.clk ∧
    drivenThroughLnew lnewDriven lnewDriven.cfg.wiring.le ∧ ¬ latchOpenAfterLnew lnewDriven ∧
    ReadyForLnew (under (fun c => { c with latchMode := .transparent }) lnewDriven) [] ∧
    latchOpenAfterLnew (under (fun c => { c with latchMode := .transparent }) lnewDriven) := by
  refine ⟨lnewBlock_ready, rfl, ?_, ?_, ?_, ⟨ready_of test_example_configuration_is_legal rfl, rfl, fun b => by cases b <;> rfl, rfl⟩,
    rfl, ?_, ?_, ?_, ⟨ready_of (by decide) rfl, rfl, fun b => by cases b <;> rfl, rfl⟩, ?_⟩ <;>
    first
    | (unfold drivenThroughLnew State.Drives; decide)
    | (unfold latchOpenAfterLnew; decide)

/-- What LNEW does to the cells (20 R75, R76): Unknown where the lines were undriven, kept where they were driven, and
an open transparent latch holds SR. -/
theorem test_lnew_cells :
    (stateAfter (exec .lnew { lnewBlock with sr := Vector.replicate 40 (.known true) })).map (·.sr) = some .unknown ∧
    (stateAfter (exec .lnew { lnewDriven with sr := Vector.replicate 40 (.known true) })).map (fun t => (t.sr, t.latch)) =
      some (Vector.replicate 40 (.known true), .unknown) ∧
    (stateAfter (exec .lnew (under (fun c => { c with latchMode := .transparent })
      { lnewDriven with sr := Vector.replicate 40 (.known true) }))).map (·.latch) =
        some (Vector.replicate 40 (.known true)) := by decide +kernel

theorem witness_LnewSetupFailureReleasesLowerBanks : (withDraws [] [.ok, .ok, .mapFailed] State.reset).Ready ∧
    (withDraws [] [.ok, .ok, .mapFailed] State.reset).drv = .unconstructed ∧
    (∀ b, (withDraws [] [.ok, .ok, .mapFailed] State.reset).fd.get b = false ∧
      (withDraws [] [.ok, .ok, .mapFailed] State.reset).map.get b = false) ∧
    banks = [.b0, .b1] ++ .b2 :: [] ∧ banks = [] ++ .b0 :: [.b1, .b2] ∧ SetupOutcome.mapFailed ≠ .ok ∧
    (withDraws [] [.ok, .ok, .mapFailed] State.reset).env.setupDraws =
      [BankId.b0, .b1].map (fun _ => .ok) ++ .mapFailed :: [] :=
  ⟨ready_of test_example_configuration_is_legal rfl, rfl, fun b => by cases b <;> exact ⟨rfl, rfl⟩, rfl, rfl, by decide, rfl⟩

theorem witness_LnewEndsDisabled : ∃ t t', ReadyForLnew lnewBlock [] ∧ lnewBlock.SoleWriter ∧
    exec .lnew lnewBlock = .next t ∧ lnewBlock.cfg.dirDriveValue = true ∧
    ReadyForLnew (under (fun c => { c with dirDriveValue := false }) lnewBlock) [] ∧
    exec .lnew (under (fun c => { c with dirDriveValue := false }) lnewBlock) = .next t' := by
  have h : ReadyForLnew (under (fun c => { c with dirDriveValue := false }) lnewBlock) [] :=
    ⟨ready_of test_example_configuration_is_legal rfl, rfl, fun b => by cases b <;> rfl, rfl⟩
  exact ⟨_, _, lnewBlock_ready, rfl, command_ready lnewBlock_ready.ready _, rfl, h, command_ready h.ready _⟩

theorem witness_StartupWindow : ∃ t t', ReadyForLnew lnewBlock [] ∧ lnewBlock.SoleWriter ∧
    lnewBlock.cfg.dirDriveValue = true ∧ exec .lnew lnewBlock = .next t ∧ lnewBlock.outBit .b1 5 = false ∧
    ReadyForLnew { lnewBlock with out := .const 0x20 } [] ∧
    exec .lnew { lnewBlock with out := .const 0x20 } = .next t' ∧
    ({ lnewBlock with out := .const 0x20 } : State).outBit .b1 5 = true := by
  have h : ReadyForLnew { lnewBlock with out := .const 0x20 } [] :=
    ⟨ready_of test_example_configuration_is_legal rfl, rfl, fun b => by cases b <;> rfl, rfl⟩
  exact ⟨_, _, lnewBlock_ready, rfl, rfl, command_ready lnewBlock_ready.ready _, by decide, h,
    command_ready h.ready _, by decide⟩

theorem witness_LenableAndLdisableDriveOutputEnable : (drivenBlock 0xFFFFFFFF 0).Ready ∧
    (drivenBlock 0xFFFFFFFF 0).SoleWriter ∧ (drivenBlock 0xFFFFFFFF 0).drv = .constructed ∧
    bankOpen (drivenBlock 0xFFFFFFFF 0) .b1 = true ∧ (drivenBlock 0xFFFFFFFF 0).ChainAtRest ∧
    (drivenBlock 0xFFFFFFFF 0).Drives (drivenBlock 0xFFFFFFFF 0).cfg.wiring.oe :=
  ⟨drivenBlock_ready _ _, rfl, rfl, rfl, by unfold State.ChainAtRest; decide, by unfold State.Drives; decide⟩

theorem witness_LsetDrivesItsThreePins : ReadyForLset (drivenBlock 0 0) ∧ (drivenBlock 0 0).SoleWriter :=
  ⟨lsetBlock_ready 0 0, rfl⟩

theorem witness_LsetEndState : ReadyForLset (drivenBlock 0xFFFFFFFF 0) ∧ (drivenBlock 0xFFFFFFFF 0).ChainDriven ∧
    (drivenBlock 0xFFFFFFFF 0).SoleWriter ∧ (drivenBlock 0xFFFFFFFF 0).cfg.setupHoldMet = true :=
  ⟨lsetBlock_ready _ _, chainDriven, rfl, rfl⟩

/-- Both cases of 43 R169: a rising-edge latch with LE Low, and a falling-edge latch with LE High. -/
theorem witness_LsetUpdatesTheDisplayOnce : [0, 1, 2, 3, (4 : Byte)].length = 5 ∧
    configLegal (drivenBlock 0xFFFFFFFF 0).cfg = true ∧ (drivenBlock 0xFFFFFFFF 0).ChainDriven ∧
    (drivenBlock 0xFFFFFFFF 0).SoleWriter ∧ ¬ mayCommitEarly (drivenBlock 0xFFFFFFFF 0) ∧
    mayCommitEarly (under (fun c => { c with latchMode := .fallingEdge }) (drivenBlock 0xFFFFFFFF 0x80)) :=
  ⟨rfl, by decide, chainDriven, rfl, by unfold mayCommitEarly; decide, by unfold mayCommitEarly; decide⟩

theorem witness_EndToEndDisplay : ReadyForLnew lnewBlock [] ∧ lnewBlock.SoleWriter ∧
    lnewBlock.cfg.setupHoldMet = true ∧ lnewBlock.cfg.dirDriveValue = true ∧ lnewBlock.cfg.wiring.clk.inv = false :=
  ⟨lnewBlock_ready, rfl, rfl, rfl, rfl⟩

theorem witness_ExitTearsEverythingDown : twoBanks.Ready ∧ (∀ b, twoBanks.map.get b = true → twoBanks.fd.get b = true) ∧
    twoBanks.SoleWriter := ⟨ready_of test_example_configuration_is_legal rfl, fun b => by cases b <;> decide, rfl⟩

/-- The lines with DATA High, the clock Low and the latch-enable as given; and the same after the clock rises. -/
def clockLow (le : LineLevel) : Lines := ⟨.driven true, .driven false, le, .undriven⟩

def clockHigh (le : LineLevel) : Lines := ⟨.driven true, .driven true, le, .undriven⟩

theorem witness_RisingEdgeShiftsTheChain : changedLines (clockLow .undriven) (clockHigh .undriven) ≤ 1 ∧
    (clockLow .undriven).clk = .driven false ∧ (clockHigh .undriven).clk = .driven true ∧
    changedLines (clockHigh .undriven) (clockLow .undriven) ≤ 1 ∧ (List.replicate 40 true).length = 40 := by decide

theorem witness_LatchCommitsByMode : changedLines (clockLow .undriven) (clockLow (.driven true)) ≤ 1 ∧
    changedLines (clockLow (.driven false)) (clockLow (.driven true)) ≤ 1 ∧
    changedLines (clockLow (.driven true)) (clockLow (.driven false)) ≤ 1 := by decide

theorem witness_OneWriteChangesOneLine : configLegal State.reset.cfg = true ∧
    2 ≤ changedLines (clockLow (.driven true)) (clockHigh (.driven false)) ∧
    (⟨.driven true, .undriven, .undriven, .undriven⟩ : Lines).clk = .undriven := by decide

theorem witness_ChainRestsBetweenWrites : (hostSends 0x1F00000000000000).Inv := hostSends_inv _

/-- A latch-enable that is Low, under a transparent latch; and one that is High, under a rising-edge latch. -/
theorem witness_ShiftingLeavesTheDisplay : configLegal (drivenBlock 0xFFFFFFFF 0).cfg = true ∧
    (drivenBlock 0xFFFFFFFF 0).SoleWriter ∧
    level (under (fun c => { c with latchMode := .transparent }) (drivenBlock 0xFFFFFFFF 0)) ⟨.b2, 7, false⟩ =
      .driven false ∧
    level (drivenBlock 0xFFFFFFFF 0x80) ⟨.b2, 7, false⟩ = .driven true ∧
    (drivenBlock 0xFFFFFFFF 0x80).cfg.latchMode ≠ .transparent := ⟨by decide, rfl, by decide, by decide, by decide⟩

/-- A block whose chain shows a byte of ones at every position; position 0 is no colon position, position 2 is. -/
theorem witness_DisplayShowsTheLatchedBytes :
    level (drivenBlock 0xFFFFFFFF 0x20) (drivenBlock 0xFFFFFFFF 0x20).cfg.wiring.oe = .driven true ∧
    level (drivenBlock 0xFFFFFFFF 0) (drivenBlock 0xFFFFFFFF 0).cfg.wiring.oe = .driven false ∧
    dispByte { drivenBlock 0xFFFFFFFF 0 with latch := Vector.replicate 40 (.known true) } 0 = cellsOfByte 0xFF ∧
    Config.atReset.posMap[(0 : Fin 5)] ≠ Config.atReset.colonPos ∧
    dispByte { drivenBlock 0xFFFFFFFF 0 with latch := Vector.replicate 40 (.known true) } 2 = cellsOfByte 0xFF ∧
    Config.atReset.posMap[(2 : Fin 5)] = Config.atReset.colonPos := by decide

theorem witness_DigitZeroLightsItsSegments : configLegal Config.atReset = true := by decide

theorem witness_RegisterAddresses : configLegal Config.atReset = true ∧
    registerAt Config.atReset 0x2008 = some (.b2, .inp) := by decide

/-- Two open banks and a closed one, an address just above a bank's last register, and a width. -/
theorem witness_PhysicalAccessReachesOnlyRegisters : configLegal twoBanks.cfg = true ∧
    bankOpen twoBanks .b2 = true ∧ bankOpen twoBanks .b1 = false ∧
    (∀ b r, (0x200C : Nat) ≠ addrOf twoBanks.cfg b r) ∧ (2 : Nat) ≠ 4 :=
  ⟨by decide, rfl, rfl, fun b r => by cases b <;> cases r <;> decide, by decide⟩

end Sys2Proof.Tests
end

section
/-! SUPPORT. The invariant of the block: what the observations of the trace become under each kind of event, the
invariant's two forms (of a Running block and of an ended one), and that every completion and every fault keeps it. -/

namespace Sys2Proof.Machine

/-! ### Observations of a longer trace -/

theorem pageHeld_snoc (b : BankId) (tr : List Event) (e : Event) :
    pageHeld b (tr ++ [e]) = if e = .acq b then true else if e = .rel b then false else pageHeld b tr := by
  simp [pageHeld]

theorem lastRet_append {evs : List Event} (tr : List Event) (h : ∀ e ∈ evs, ∀ x, e ≠ .ret x) :
    lastRet (tr ++ evs) = lastRet tr := by
  induction evs using List.reverseRecOn with
  | nil => simp
  | append_singleton es e ih =>
    have hes := ih fun x hx => h x (by simp [hx])
    have he := h e (by simp)
    rw [← hes, ← List.append_assoc]
    cases e <;> simp_all [lastRet]

theorem pageHeld_append_accesses (b : BankId) {evs : List Event} (tr : List Event) (h : ∀ e ∈ evs, isAccess e = true) :
    pageHeld b (tr ++ evs) = pageHeld b tr := by
  induction evs using List.reverseRecOn with
  | nil => simp
  | append_singleton es e ih =>
    have hes := ih fun x hx => h x (by simp [hx])
    have he := h e (by simp)
    rw [← List.append_assoc, pageHeld_snoc, hes]
    cases e <;> simp_all [isAccess]

theorem pageHeld_append_acqs (b : BankId) (tr : List Event) (bs : List BankId) :
    pageHeld b (tr ++ bs.map .acq) = (pageHeld b tr || bs.contains b) := by
  induction bs using List.reverseRecOn with
  | nil => simp
  | append_singleton bs b' ih =>
    rw [List.map_append, ← List.append_assoc, List.map_singleton, pageHeld_snoc, ih]
    by_cases hb : b = b' <;> simp [hb, Ne.symm]

theorem pageHeld_append_rels (b : BankId) (tr : List Event) (bs : List BankId) :
    pageHeld b (tr ++ bs.map .rel) = (pageHeld b tr && !bs.contains b) := by
  induction bs using List.reverseRecOn with
  | nil => simp
  | append_singleton bs b' ih =>
    rw [List.map_append, ← List.append_assoc, List.map_singleton, pageHeld_snoc, ih]
    by_cases hb : b = b' <;> simp [hb, Ne.symm]

theorem endsRun_of_isAccess {e : Event} (h : isAccess e = true) : endsRun e = false := by
  cases e <;> simp_all [isAccess, endsRun]

/-! ### The invariant, of a Running block and of an ended one -/

/-- What a teardown needs to leave a block that meets the invariant: handles may be open without their pages, as
after a mapping that failed (40 R120). -/
structure Accounted (s : State) : Prop where
  mapped_open : ∀ b, s.map.get b = true → s.fd.get b = true
  held : ∀ b, s.map.get b = pageHeld b s.trace
  result : s.res = lastRet s.trace
  floating : Floating s

/-- The invariant of a Running block. -/
structure Live (s : State) : Prop extends Accounted s where
  running : s.phase = .running
  open_mapped : ∀ b, s.fd.get b = true → s.map.get b = true
  going : ∀ e ∈ s.trace, endsRun e = false

/-- A block without banks or driver, as an ended run leaves it. -/
structure Released (s : State) : Prop extends Accounted s where
  closed : ∀ b, s.fd.get b = false
  drv : s.drv = .unconstructed

theorem Live.of_inv {s : State} (h : s.Inv) (hr : s.phase = .running) : Live s where
  mapped_open := h.mapped_open
  held := h.held
  result := h.result
  floating := Inv_floating h
  running := hr
  open_mapped := h.open_mapped
  going := h.running_open hr

theorem Live.inv {s : State} (h : Live s) : s.Inv where
  mapped_open := h.mapped_open
  open_mapped := h.open_mapped
  ended_released he := absurd h.running he
  record_pc r hp := by simp [h.running] at hp
  held := h.held
  result := h.result
  running_open _ := h.going
  exited_last hp := by simp [h.running] at hp
  faulted_last r hp := by simp [h.running] at hp
  floating_clock := h.floating.clock
  floating_latch := h.floating.latch

theorem Released.exited_inv {s : State} (h : Released s) (hp : s.phase = .exited)
    (hl : s.trace.getLast? = some .exit) : s.Inv where
  mapped_open := h.mapped_open
  open_mapped b hb := by simp [h.closed b] at hb
  ended_released _ := ⟨h.closed, h.drv⟩
  record_pc r hr := by simp [hp] at hr
  held := h.held
  result := h.result
  running_open hr := by simp [hp] at hr
  exited_last _ := hl
  faulted_last r hr := by simp [hp] at hr
  floating_clock := h.floating.clock
  floating_latch := h.floating.latch

theorem Released.faulted_inv {s : State} (h : Released s) {r : FaultRecord} (hp : s.phase = .faulted r)
    (hpc : r.pc = s.pc) (hl : s.trace.getLast? = some (.fault r.code)) : s.Inv where
  mapped_open := h.mapped_open
  open_mapped b hb := by simp [h.closed b] at hb
  ended_released _ := ⟨h.closed, h.drv⟩
  record_pc r' hr := by cases hp.symm.trans hr; exact hpc
  held := h.held
  result := h.result
  running_open hr := by simp [hp] at hr
  exited_last hr := by simp [hp] at hr
  faulted_last r' hr := by cases hp.symm.trans hr; exact hl
  floating_clock := h.floating.clock
  floating_latch := h.floating.latch

/-! ### The end of a run -/

/-- The teardown and the event that ends the run, which EXIT and a fault have in common (44 R190, 60 R205). -/
def endRun (last : Event) (s : State) : State := emit last { releaseAll s with drv := .unconstructed }

theorem raise_eq_endRun (w : CmdWord) (c : FaultCode) (info : Option BankId) (s : State) :
    raise w c info s =
      { endRun (.fault c) s with phase := .faulted { code := c, pc := s.pc, word := w, bank := info } } := rfl

theorem endRun_quiet (last : Event) (s : State) : Quiet s (endRun last s) := by
  have hdrv : Quiet (releaseAll s) { releaseAll s with drv := .unconstructed } :=
    quiet_of_eq rfl rfl rfl rfl ⟨rfl, rfl, rfl, rfl⟩
  exact ((releaseAll_quiet s).trans hdrv).trans (emit_quiet last _)

theorem endRun_trace (last : Event) (s : State) :
    (endRun last s).trace = s.trace ++ (banks.filter fun b => s.fd.get b).map .rel ++ [last] := by
  simp [endRun, releaseAll_trace]

theorem endRun_getLast (last : Event) (s : State) : (endRun last s).trace.getLast? = some last := by
  simp [endRun_trace]

theorem Accounted.endRun_released {s : State} (h : Accounted s) {last : Event} (hl : endsRun last = true) :
    Released (endRun last s) where
  mapped_open b hb := by simp [endRun, releaseAll_unmaps h.mapped_open] at hb
  held b := by
    have hmap : (endRun last s).map.get b = false := by simp [endRun, releaseAll_unmaps h.mapped_open]
    have hopen : pageHeld b s.trace = true → s.fd.get b = true := fun hh => h.mapped_open b ((h.held b).trans hh)
    have hin : b ∈ banks := by cases b <;> decide
    rw [hmap, endRun_trace, pageHeld_snoc, if_neg (by rintro rfl; cases hl), if_neg (by rintro rfl; cases hl),
      pageHeld_append_rels]
    cases hh : pageHeld b s.trace <;> simp_all
  result := by
    have hrels : ∀ e ∈ (banks.filter fun b => s.fd.get b).map Event.rel ++ [last], ∀ x, e ≠ .ret x := by
      rintro e he x rfl
      rcases List.mem_append.mp he with he | he
      · simp at he
      · cases List.mem_singleton.mp he; cases hl
    rw [(endRun_quiet last s).res, h.result, endRun_trace, List.append_assoc, lastRet_append _ hrels]
  floating := (endRun_quiet last s).floating h.floating
  closed b := by simp [endRun]
  drv := by simp [endRun]

/-- A released block's account reads neither `pc` nor the phase. -/
theorem Released.congr {s : State} (h : Released s) (n : Nat) (p : Phase) :
    Released { s with pc := n, phase := p } :=
  { h with floating := ⟨h.floating.clock, h.floating.latch⟩ }

/-- Taking a fault leaves a block that meets the invariant (60 R205). -/
theorem Accounted.raise_inv {s : State} (h : Accounted s) (w : CmdWord) (c : FaultCode) (info : Option BankId) :
    (raise w c info s).Inv := by
  have hr : Released (endRun (.fault c) s) := h.endRun_released rfl
  exact (hr.congr _ _).faulted_inv rfl (raise_pc w c info s).symm (endRun_getLast (.fault c) s)

/-- EXIT leaves a block that meets the invariant (44 R190). -/
theorem Accounted.exit_inv {s : State} (h : Accounted s) :
    (complete { endRun .exit s with phase := .exited }).Inv := by
  have hr : Released (endRun .exit s) := h.endRun_released rfl
  exact (hr.congr _ _).exited_inv rfl (endRun_getLast .exit s)

/-! ### What keeps a Running block's invariant -/

/-- The invariant reads neither `pc`, nor the driver, nor the host's words of a Running block. -/
theorem Live.congr {s : State} (h : Live s) (n : Nat) (d : Driver) (ws : List CmdWord) :
    Live { s with pc := n, drv := d, commands := ws } :=
  { h with floating := ⟨h.floating.clock, h.floating.latch⟩ }

theorem Live.complete {s : State} (h : Live s) : Live (complete s) := h.congr _ _ _

theorem Accounted.acquired {bs : List BankId} {s t : State} (h : Accounted s) (ha : Acquired bs s t) :
    Accounted t where
  mapped_open b hb := by
    rw [ha.map, Bool.or_eq_true] at hb
    rw [ha.fd, Bool.or_eq_true]
    exact hb.imp_left (h.mapped_open b)
  held b := by rw [ha.map, ha.trace, pageHeld_append_acqs, h.held]
  result := by rw [ha.quiet.res, ha.trace, lastRet_append _ (by simp), h.result]
  floating := ha.quiet.floating h.floating

theorem Live.acquired {bs : List BankId} {s t : State} (h : Live s) (ha : Acquired bs s t) : Live t where
  toAccounted := h.toAccounted.acquired ha
  running := ha.phase.trans h.running
  open_mapped b hb := by
    rw [ha.fd, Bool.or_eq_true] at hb
    rw [ha.map, Bool.or_eq_true]
    exact hb.imp_left (h.open_mapped b)
  going e he := by
    rw [ha.trace, List.mem_append, List.mem_map] at he
    rcases he with he | ⟨b, -, rfl⟩
    exacts [h.going e he, rfl]

theorem Accounted.setupFailed {b : BankId} {s u : State} {c : FaultCode} (h : Accounted s)
    (hf : SetupFailed b s c u) : Accounted u := by
  obtain ⟨htrace, hmap, -, hfd, -⟩ := hf.fields
  refine ⟨fun b' hb' => ?_, fun b' => ?_, ?_, hf.quiet.floating h.floating⟩
  · rw [hmap] at hb'
    rw [hfd, h.mapped_open b' hb', Bool.true_or]
  · rw [hmap, htrace, h.held]
  · rw [hf.quiet.res, htrace, h.result]

theorem Live.accessed {P : BankId → Prop} {R : OutReg → Prop} {s t : State} (h : Live s) (ha : AccessOn P R s t) :
    Live t := by
  obtain ⟨evs, htrace, hon, -⟩ := ha.trace
  have hacc : ∀ e ∈ evs, isAccess e = true := fun e he => (hon e he).elim fun b hb => hb.2.isAccess
  have hret : ∀ e ∈ evs, ∀ x, e ≠ .ret x := by rintro e he x rfl; cases hacc _ he
  have hmap := ha.control.map
  have hfd := ha.control.fd
  exact
    { mapped_open := by rw [hmap, hfd]; exact h.mapped_open
      held := fun b => by rw [hmap, htrace, pageHeld_append_accesses b _ hacc, h.held]
      result := by rw [ha.res, htrace, lastRet_append _ hret, h.result]
      floating := ha.floating h.floating
      running := ha.control.phase.trans h.running
      open_mapped := by rw [hmap, hfd]; exact h.open_mapped
      going := fun e he => by
        rw [htrace, List.mem_append] at he
        exact he.elim (h.going e) fun he => endsRun_of_isAccess (hacc e he) }

/-- Where one value of each bank implies the other, it still does once both are false of one bank. -/
theorem perBank_imp_set_false {f g : PerBank Bool} (h : ∀ b, f.get b = true → g.get b = true) (b b' : BankId)
    (hf : (f.set b false).get b' = true) : (g.set b false).get b' = true := by
  by_cases hb : b' = b
  · subst hb; simp at hf
  · rw [perBank_get_set_other _ _ hb] at hf ⊢
    exact h b' hf

theorem Live.released {s : State} (h : Live s) (b : BankId) : Live (bankRelease b s) where
  mapped_open := by
    rw [bankRelease_map, bankRelease_fd]
    exact perBank_imp_set_false h.mapped_open b
  held b' := by
    rw [bankRelease_map, bankRelease_trace, perBank_get_set, pageHeld_snoc, h.held]
    by_cases hb : b' = b <;> simp [hb, Ne.symm]
  result := by rw [(bankRelease_quiet b s).res, bankRelease_trace, lastRet_append _ (by simp), h.result]
  floating := (bankRelease_quiet b s).floating h.floating
  running := (bankRelease_phase b s).trans h.running
  open_mapped := by
    rw [bankRelease_map, bankRelease_fd]
    exact perBank_imp_set_false h.open_mapped b
  going e he := by
    rw [bankRelease_trace, List.mem_append, List.mem_singleton] at he
    rcases he with he | rfl
    exacts [h.going e he, rfl]

theorem Live.returned {s : State} (h : Live s) (x : Level) : Live (returnLevel x s) where
  mapped_open := by simpa [returnLevel] using h.mapped_open
  held b := by simp [returnLevel, pageHeld_snoc, h.held]
  result := by simp [returnLevel, lastRet]
  floating := (emit_quiet (.ret x) _).floating ⟨h.floating.clock, h.floating.latch⟩
  running := by simp [returnLevel, h.running]
  open_mapped := by simpa [returnLevel] using h.open_mapped
  going e he := by
    rw [returnLevel, emit_trace, List.mem_append, List.mem_singleton] at he
    rcases he with he | rfl
    exacts [h.going e he, rfl]

/-! ### Every answer of a command -/

theorem Live.completed_inv {i : Instr} {s t : State} (h : Live s) (hc : Completed i s t) : t.Inv := by
  cases hc with
  | opened f b hi hb hcl hu => exact (h.acquired hu).complete.inv
  | closed f b hi hb ho => exact (h.released b).complete.inv
  | accessed hk ho hu => exact (h.accessed hu).complete.inv
  | returned x hr ho hu => exact ((h.accessed hu).returned x).complete.inv
  | @constructed u v hi hd hcl hu hv =>
    have hdriver := (h.acquired hu).congr u.pc .constructed u.commands
    exact (hdriver.accessed hv).complete.inv
  | exited hi => exact h.exit_inv

theorem Live.result_inv {w : CmdWord} {i : Instr} {s t : State} (h : Live s) (hr : Result w i s t) : t.Inv := by
  cases hr with
  | misuse c info hc => exact h.raise_inv w c info
  | setup bs b c hi hd hs hu hv => exact ((h.toAccounted.acquired hu).setupFailed hv).raise_inv w c (some b)
  | completed hc => exact h.completed_inv hc

/-- Settles O13: a step waits, or takes a word whose command, or whose rejection, keeps the invariant. -/
theorem stepKeepsTheInvariant : Obligations.StepKeepsTheInvariant := by
  intro s t hinv hstep
  obtain ⟨hready, ⟨-, rfl⟩ | ⟨w, rest, -, hw⟩⟩ := step_next_result hstep
  · exact hinv
  have hlive : Live { s with commands := rest } := (Live.of_inv hinv hready.running).congr _ _ rest
  rcases hw with ⟨i, -, hexec⟩ | ⟨-, c, -, rfl⟩
  · exact hlive.result_inv (exec_next_result hexec).2
  · exact hlive.raise_inv w c none

end Sys2Proof.Machine
end

section
/-! SUPPORT. A word that decodes is the word of its command (30 R92 to R98, R103), format by format. -/

namespace Sys2Proof

/-- Two neighbouring fields of a word are one field. -/
theorem extract_join {n : Nat} (w : BitVec n) {hi lo a b : Nat} (h : hi = lo + b) :
    w.extractLsb' hi a ++ w.extractLsb' lo b = w.extractLsb' lo (a + b) := by
  subst h
  ext j hj
  simp only [BitVec.getElem_append, BitVec.getElem_extractLsb']
  split
  · rfl
  · congr 1; omega

/-- A field where a mask is all ones is 0 in a word whose masked value is 0. -/
theorem extract_of_mask_zero {w m : CmdWord} (h : w &&& m = 0) {lo len : Nat}
    (hm : m.extractLsb' lo len = BitVec.allOnes len) : w.extractLsb' lo len = 0#len := by
  have hand : w.extractLsb' lo len &&& m.extractLsb' lo len = (w &&& m).extractLsb' lo len := by
    ext j hj; simp
  rw [hm, BitVec.and_allOnes, h] at hand
  rw [hand]
  ext j hj; simp

/-- A field of one bit. -/
theorem extract_bit (w : CmdWord) (lo : Nat) : w.extractLsb' lo 1 = BitVec.ofBool (w.getLsbD lo) := by
  ext j hj
  obtain rfl : j = 0 := by omega
  simp

/-- What a decoded command's word is (30 R103). -/
theorem decode_cmd {w : CmdWord} {i : Instr} (h : decode w = .cmd i) :
    ∃ op : Opcode, byteAt w 56 = op.code ∧ w &&& op.reservedMask = 0 ∧ (op.bankFields w).any (fun f => f == 3#2) = false ∧
      i = op.operands w := by
  unfold decode at h
  split at h
  case h_1 => cases h
  case h_2 op hop =>
    split at h
    case isTrue => cases h
    case isFalse hmask =>
      split at h
      case isTrue => cases h
      case isFalse hbank =>
        exact ⟨op, (ofByte_some hop).symm, not_not.mp hmask, by rwa [← Bool.not_eq_true], (Decoded.cmd.inj h).symm⟩

/-! ### The formats of 30 R92 to R97 -/

section
variable {w : CmdWord} {c : Byte}

/-- Format N (30 R92): no operand. -/
theorem join_opcode (hc : byteAt w 56 = c) (h : w.extractLsb' 0 56 = 0#56) : c ++ 0#56 = w := by
  rw [← hc, ← h]
  simp only [byteAt, extract_join]
  exact extract_whole w

/-- Format B (30 R93): a bank. -/
theorem join_bank (hc : byteAt w 56 = c) (h : w.extractLsb' 2 54 = 0#54) :
    c ++ 0#54 ++ w.extractLsb' 0 2 = w := by
  rw [← hc, ← h]
  simp only [byteAt, extract_join]
  exact extract_whole w

/-- Format BB (30 R94): a bank, a bit index and an argument bit. -/
theorem join_bank_bit (hc : byteAt w 56 = c) (h : w.extractLsb' 8 48 = 0#48) {x : BitVec 1} (hx : w.extractLsb' 7 1 = x) :
    c ++ 0#48 ++ x ++ w.extractLsb' 2 5 ++ w.extractLsb' 0 2 = w := by
  rw [← hc, ← h, ← hx]
  simp only [byteAt, extract_join]
  exact extract_whole w

/-- Format P (30 R95): a pin and an argument bit. -/
theorem join_pin (hc : byteAt w 56 = c) (h : w.extractLsb' 9 47 = 0#47) {x : BitVec 1} (hx : w.extractLsb' 8 1 = x) :
    c ++ 0#47 ++ x ++ byteAt w 0 = w := by
  rw [← hc, ← h, ← hx]
  simp only [byteAt, extract_join]
  exact extract_whole w

/-- Format S (30 R96): two pins, a bit order and a byte. -/
theorem join_shift (hc : byteAt w 56 = c) (h : w.extractLsb' 32 24 = 0#24) (h' : w.extractLsb' 17 7 = 0#7) :
    c ++ 0#24 ++ byteAt w 24 ++ 0#7 ++ BitVec.ofBool (w.getLsbD 16) ++ byteAt w 8 ++ byteAt w 0 = w := by
  rw [← hc, ← h, ← h', ← extract_bit]
  simp only [byteAt, extract_join]
  exact extract_whole w

/-- Format D (30 R97): five bytes. -/
theorem join_bytes (hc : byteAt w 56 = c) (h : w.extractLsb' 40 16 = 0#16) :
    c ++ 0#16 ++ byteAt w 32 ++ byteAt w 24 ++ byteAt w 16 ++ byteAt w 8 ++ byteAt w 0 = w := by
  rw [← hc, ← h]
  simp only [byteAt, extract_join]
  exact extract_whole w

end

/-- The command a word's operands give encodes to the word, when the word's reserved bits are 0. -/
theorem encode_operands {w : CmdWord} {op : Opcode} (hc : byteAt w 56 = op.code) (hm : w &&& op.reservedMask = 0) :
    encode (op.operands w) = w := by
  have hz : ∀ {lo len : Nat}, op.reservedMask.extractLsb' lo len = BitVec.allOnes len → w.extractLsb' lo len = 0#len :=
    extract_of_mask_zero hm
  cases op <;>
    simp only [Opcode.operands, encode, mode_toBit_ofBit, order_toBit_ofBit, pinOp_toByte_ofByte]
  case openBank | closeBank => exact join_bank hc (hz (by decide))
  case setdir | wrbit => exact join_bank_bit hc (hz (by decide)) (extract_bit w 7)
  case rdbit => exact join_bank_bit hc (hz (by decide)) (hz (by decide))
  case pmode | pwrite => exact join_pin hc (hz (by decide)) (extract_bit w 8)
  case pread => exact join_pin hc (hz (by decide)) (hz (by decide))
  case shiftout => exact join_shift hc (hz (by decide)) (hz (by decide))
  case lset => exact join_bytes hc (hz (by decide))
  case lnew | lenable | ldisable | exit => exact join_opcode hc (hz (by decide))

theorem encode_of_decode {w : CmdWord} {i : Instr} (h : decode w = .cmd i) : encode i = w := by
  obtain ⟨op, hc, hm, -, rfl⟩ := decode_cmd h
  exact encode_operands hc hm

end Sys2Proof
end

section
/-! SUPPORT. What every step does to the parameters, `pc`, the registers, `res` and the driver, from the inversion
lemmas of commands and steps; and the settled statements of 10_state.md. -/

namespace Sys2Proof.Machine

/-! ### Steps of a block that takes none -/

/-- Every step is a command of the block, whatever words it keeps (30 R108). -/
theorem step_is_command (s : State) : ∃ ws t, step s = command { s with commands := ws } t := by
  unfold step takeWord
  cases hc : s.commands with
  | nil => exact ⟨[], s, by simp only [← hc]; rfl⟩
  | cons w rest =>
    refine ⟨rest, ?_⟩
    cases hd : decode w with
    | illegal => exact ⟨_, by simp only [hd]; rfl⟩
    | badBank => exact ⟨_, by simp only [hd]; rfl⟩
    | cmd i => simpa only [hd] using exec_is_command i { s with commands := rest }

/-- Settles O8: exec and step both answer by `command`, which answers a fault in an ended block. -/
theorem endedBlockTakesNoStep : Obligations.EndedBlockTakesNoStep := by
  intro s i hl
  obtain ⟨t, hexec⟩ := exec_is_command i s
  obtain ⟨ws, u, hstep⟩ := step_is_command s
  rw [hexec, hstep]
  exact ⟨fun hp => ⟨command_exited hl hp t, command_exited (s := { s with commands := ws }) hl hp u⟩,
    fun r hp => ⟨command_faulted hl hp t, command_faulted (s := { s with commands := ws }) hl hp u⟩⟩

/-! ### Completions and faults -/

/-- A command raises a fault after setups at most, or completes. -/
theorem Result.raised_or_completed {w : CmdWord} {i : Instr} {s t : State} (h : Result w i s t) :
    (∃ c info u, Quiet s u ∧ t = raise w c info u) ∨ Completed i s t := by
  cases h with
  | misuse c info hc => exact .inl ⟨c, info, s, .refl s, rfl⟩
  | setup bs b c hi hd hs hu hv => exact .inl ⟨c, some b, _, hu.quiet.trans hv.quiet, rfl⟩
  | completed h => exact .inr h

theorem raise_ended (w : CmdWord) (c : FaultCode) (info : Option BankId) (s : State) : (raise w c info s).Ended := by
  simp [State.Ended]

@[simp] theorem returnLevel_cfg (x : Level) (s : State) : (returnLevel x s).cfg = s.cfg := by simp [returnLevel]
@[simp] theorem returnLevel_pc (x : Level) (s : State) : (returnLevel x s).pc = s.pc := by simp [returnLevel]
@[simp] theorem returnLevel_res (x : Level) (s : State) : (returnLevel x s).res = some x := by simp [returnLevel]
@[simp] theorem returnLevel_drv (x : Level) (s : State) : (returnLevel x s).drv = s.drv := by simp [returnLevel]
@[simp] theorem returnLevel_phase (x : Level) (s : State) : (returnLevel x s).phase = s.phase := by simp [returnLevel]

theorem returnLevel_registers (x : Level) {s : State} (hs : s.SoleWriter) : s.KeepsRegisters (returnLevel x s) := by
  obtain ⟨hdir, hout, hsr, hlatch⟩ := (emit_quiet (.ret x) { s with res := some x }).registers hs
  exact ⟨hdir, hout, hsr, hlatch⟩

/-- Every completion ends with `complete`, of a state with the parameters and `pc` of the command's start, Running
or ended by EXIT (10 R27). -/
theorem Completed.completes {i : Instr} {s t : State} (h : Completed i s t) :
    ∃ u, t = complete u ∧ u.cfg = s.cfg ∧ u.pc = s.pc ∧ (u.phase = s.phase ∨ u.phase = .exited) := by
  cases h with
  | opened f b hi hb hc hu => exact ⟨_, rfl, hu.quiet.cfg, hu.quiet.pc, .inl hu.phase⟩
  | closed f b hi hb ho =>
    exact ⟨_, rfl, (bankRelease_quiet b s).cfg, (bankRelease_quiet b s).pc, .inl (bankRelease_phase b s)⟩
  | accessed hk ho hu => exact ⟨_, rfl, hu.control.cfg, hu.pc, .inl hu.control.phase⟩
  | returned x hr ho hu =>
    exact ⟨_, rfl, by simp [hu.control.cfg], by simp [hu.pc], .inl (by simp [hu.control.phase])⟩
  | constructed hi hd hc hu hv =>
    exact ⟨_, rfl, hv.control.cfg.trans hu.quiet.cfg, hv.pc.trans hu.quiet.pc, .inl (hv.control.phase.trans hu.phase)⟩
  | exited hi => exact ⟨_, rfl, (endRun_quiet .exit s).cfg, (endRun_quiet .exit s).pc, .inr rfl⟩

theorem Result.cfg {w : CmdWord} {i : Instr} {s t : State} (h : Result w i s t) : t.cfg = s.cfg := by
  obtain ⟨c, info, u, hu, rfl⟩ | hc := h.raised_or_completed
  · rw [raise_cfg, hu.cfg]
  · obtain ⟨u, rfl, hcfg, -, -⟩ := hc.completes
    exact hcfg

/-- `pc` counts completions; a fault's record holds it and the word (10 R27, 60 R202). -/
theorem Result.counts {w : CmdWord} {i : Instr} {s t : State} (h : Result w i s t) (hs : s.phase = .running) :
    ((∀ r, t.phase ≠ .faulted r) ∧ t.pc = s.pc + 1) ∨
      ∃ r, t.phase = .faulted r ∧ t.pc = s.pc ∧ r.pc = s.pc ∧ r.word = w := by
  obtain ⟨c, info, u, hu, rfl⟩ | hc := h.raised_or_completed
  · exact .inr ⟨_, raise_phase w c info u, by rw [raise_pc, hu.pc], hu.pc, rfl⟩
  · obtain ⟨u, rfl, -, hpc, hphase⟩ := hc.completes
    refine .inl ⟨fun r hr => ?_, by rw [complete_pc, hpc]⟩
    rw [complete_phase] at hr
    rcases hphase with hp | hp <;> rw [hp] at hr
    · rw [hs] at hr; cases hr
    · cases hr

/-! ### Parameters and `pc` over a step -/

theorem step_cfg {s t : State} (h : step s = .next t) : t.cfg = s.cfg := by
  obtain ⟨-, ⟨-, rfl⟩ | ⟨w, rest, -, ⟨i, -, hexec⟩ | ⟨-, c, -, rfl⟩⟩⟩ := step_next_result h
  · rfl
  · exact (exec_next_result hexec).2.cfg
  · exact raise_cfg w c none _

/-- A legal wiring names four different (bank, bit) pairs (10 R35). -/
theorem wiringLegal_nodup {w : Wiring} (h : wiringLegal w = true) :
    ((driverPins w).map fun p => (p.bank, p.bit)).Nodup := by
  have hpair : ∀ {p q : Pin}, pinsApart p q = true → (p.bank, p.bit) ≠ (q.bank, q.bit) := by
    intro p q hpq heq
    obtain ⟨hbank, hbit⟩ := Prod.ext_iff.mp heq
    exact (pinsApart_iff p q).mp hpq ⟨hbank, congrArg BitVec.toNat hbit⟩
  obtain ⟨⟨h1, h2, h3⟩, ⟨h4, h5⟩, h6⟩ := (wiringLegal_iff w).mp h
  simp [driverPins, hpair h1, hpair h2, hpair h3, hpair h4, hpair h5, hpair h6]

/-- Settles O9: every answer keeps the parameters, and a legal configuration's pins are four lines. -/
theorem wiringIsFixedAndSharedLinesAreRefused : Obligations.WiringIsFixedAndSharedLinesAreRefused := by
  refine ⟨fun s t h => step_cfg h, fun s i hshared => ?_⟩
  have hl : configLegal s.cfg = false := by
    rw [← Bool.not_eq_true, configLegal_iff]
    rintro ⟨-, hw, -, -⟩
    exact hshared (wiringLegal_nodup hw)
  obtain ⟨t, hexec⟩ := exec_is_command i s
  obtain ⟨ws, u, hstep⟩ := step_is_command s
  rw [hexec, hstep]
  exact ⟨command_illegal hl t, command_illegal (s := { s with commands := ws }) hl u⟩

/-- Settles O10: a Ready block's step answers, and its answer is a completion or a fault of the word. -/
theorem pcCountsCompletedCommands : Obligations.PcCountsCompletedCommands := by
  intro s w rest hready hw
  obtain ⟨ws, t, hstep⟩ := step_is_command s
  rw [command_ready (s := { s with commands := ws }) ⟨hready.legal, hready.running⟩] at hstep
  refine ⟨t, hstep, ?_⟩
  obtain ⟨-, ⟨hempty, -⟩ | ⟨w', rest', hw', hcase⟩⟩ := step_next_result hstep
  · simp [hw] at hempty
  obtain ⟨rfl, rfl⟩ : w' = w ∧ rest' = rest := by simpa [hw] using hw'.symm
  have hresult : ∃ i, Result w' i { s with commands := rest' } t := by
    rcases hcase with ⟨i, hd, hexec⟩ | ⟨-, c, hc, rfl⟩
    · exact ⟨i, encode_of_decode hd ▸ (exec_next_result hexec).2⟩
    · exact ⟨.exit, .misuse c none hc⟩
  obtain ⟨i, hres⟩ := hresult
  rcases hres.counts hready.running with ⟨hnot, hpc⟩ | ⟨r, hr, hpc, hrpc, hword⟩
  · exact ⟨fun _ => hpc, fun r hr => absurd hr (hnot r)⟩
  · exact ⟨fun hnot => absurd hr (hnot r), fun r' hr' => by cases hr.symm.trans hr'; exact ⟨hpc, hrpc, hword⟩⟩

/-! ### Which commands change which state -/

theorem not_writtenKind_dir {i : Instr} (h : Spec.writesDir i = false) : ¬ writtenKind i .dir := by
  cases i <;> simp_all [Spec.writesDir, writtenKind]

theorem not_writtenKind_out {i : Instr} (h : Spec.writesOut i = false) : ¬ writtenKind i .out := by
  cases i <;> simp_all [Spec.writesOut, writtenKind]

/-- With no other writer a completion changes the registers its command writes only (10 R23, R24). -/
theorem Completed.registers {i : Instr} {s t : State} (h : Completed i s t) (hs : s.SoleWriter) :
    (¬ writtenKind i .dir → t.dir = s.dir) ∧ (¬ writtenKind i .out → t.out = s.out) := by
  cases h with
  | opened f b hi hb hc hu =>
    have hkeep := hu.quiet.registers hs
    exact ⟨fun _ => hkeep.dir, fun _ => hkeep.out⟩
  | closed f b hi hb ho =>
    have hkeep := (bankRelease_quiet b s).registers hs
    exact ⟨fun _ => hkeep.dir, fun _ => hkeep.out⟩
  | accessed hk ho hu => exact hu.other_kind hs
  | returned x hr ho hu =>
    have hret := returnLevel_registers x ((soleWriter_of_cfg hu.control.cfg).mpr hs)
    exact ⟨fun hn => hret.dir.trans ((hu.other_kind hs).1 hn), fun hn => hret.out.trans ((hu.other_kind hs).2 hn)⟩
  | constructed hi hd hc hu hv => subst hi; exact ⟨fun hn => absurd trivial hn, fun hn => absurd trivial hn⟩
  | exited hi =>
    have hkeep := (endRun_quiet .exit s).registers hs
    exact ⟨fun _ => hkeep.dir, fun _ => hkeep.out⟩

/-- A completion changes `res` if its command returns a level only (10 R28). -/
theorem Completed.res {i : Instr} {s t : State} (h : Completed i s t) (hi : Spec.returnsLevel i = false) :
    t.res = s.res := by
  cases h with
  | opened f b hi hb hc hu => exact hu.quiet.res
  | closed f b hi hb ho => exact (bankRelease_quiet b s).res
  | accessed hk ho hu => exact hu.res
  | returned x hr ho hu => rcases hr with ⟨f, k, rfl⟩ | ⟨p, rfl⟩ <;> cases hi
  | constructed hi hd hc hu hv => exact hv.res.trans hu.quiet.res
  | exited hi => exact (endRun_quiet .exit s).res

/-- A completion keeps the driver, or is LNEW's, or ends the run (10 R29). -/
theorem Completed.drv {i : Instr} {s t : State} (h : Completed i s t) :
    t.drv = s.drv ∨ (i = .lnew ∧ t.drv = .constructed) ∨ (t.Ended ∧ t.drv = .unconstructed) := by
  cases h with
  | opened f b hi hb hc hu => exact .inl hu.drv
  | closed f b hi hb ho => exact .inl (bankRelease_drv b s)
  | accessed hk ho hu => exact .inl hu.control.drv
  | returned x hr ho hu => exact .inl (by simp [hu.control.drv])
  | constructed hi hd hc hu hv => exact .inr (.inl ⟨hi, hv.control.drv⟩)
  | exited hi => exact .inr (.inr ⟨by simp [State.Ended], by simp⟩)

/-- Settles O26: a fault keeps the registers and `res` and drops the driver, and each completion changes what its
command lists. -/
theorem stateChangesOnlyByTheListedCommands : Obligations.StateChangesOnlyByTheListedCommands := by
  refine ⟨fun s t i hexec => ?_, fun s hres => by simp [observeRes, hres]⟩
  obtain ⟨c, info, u, hu, rfl⟩ | hc := (exec_next_result hexec).2.raised_or_completed
  · have hq := hu.trans (raise_quiet (encode i) c info u)
    exact ⟨fun hs => ⟨fun _ => (hq.registers hs).dir, fun _ => (hq.registers hs).out⟩, fun _ => hq.res,
      fun _ => .inr ⟨raise_ended _ c info u, raise_drv _ c info u⟩⟩
  · exact ⟨fun hs => ⟨fun hi => (hc.registers hs).1 (not_writtenKind_dir hi),
        fun hi => (hc.registers hs).2 (not_writtenKind_out hi)⟩,
      hc.res, fun hne => hc.drv.resolve_left hne⟩

/-! ### What a read returns -/

/-- A bank check that does not end the run passes on to the rest of the command. -/
theorem needOpen_of_not_ended {w : CmdWord} {b : BankId} {s t : State} (h : ¬ (needOpen w b s t).Ended) :
    needOpen w b s t = t := by
  unfold needOpen at h ⊢
  split at h
  case isTrue ho => rw [if_pos ho]
  case isFalse => exact absurd (raise_ended w _ _ s) h

theorem withBank_of_not_ended {w : CmdWord} {f : BankField} {s : State} {next : BankId → State}
    (h : ¬ (withBank w f s next).Ended) : ∃ b, bankOfField f = some b ∧ withBank w f s next = next b := by
  unfold withBank at h ⊢
  split at h
  case h_1 b hb => exact ⟨b, hb, rfl⟩
  case h_2 => exact absurd (raise_ended w _ _ s) h

theorem withPin_of_not_ended {w : CmdWord} {p : PinOp} {s : State} {next : Pin → State}
    (h : ¬ (withPin w p s next).Ended) : ∃ q, pinOfOp p = some q ∧ withPin w p s next = next q := by
  unfold withPin at h ⊢
  split at h
  case h_1 q hq => exact ⟨q, hq, rfl⟩
  case h_2 => exact absurd (raise_ended w _ _ s) h

/-- A read of IN returns its bit of the next listed draw, whatever happens in the gap before it (20 R54). -/
theorem bankReadBit_listed {s : State} {u : Word} {rest : List Word} (h : s.env.inDraws = u :: rest) (b : BankId)
    (k : BitVec 5) : (bankReadBit b k s).1 = u.getLsbD k.toNat := by
  have hgap : (gap s).env.inDraws = u :: rest := (gap_inDraws s).trans h
  simp [bankReadBit, vRead, drawIn_listed hgap]

/-- A pin read returns the bank's bit through the pin's inversion flag (41 R142). -/
theorem pinRead_level (p : Pin) (s : State) : (pinRead p s).1 = ((bankReadBit p.bank p.bit s).1 ^^ p.inv) := rfl

theorem rdbit_res {s t : State} {f : BankField} {k : BitIx} {u : Word} {rest : List Word}
    (hu : s.env.inDraws = u :: rest) (h : exec (.rdbit f k) s = .next t) (hrun : ¬ t.Ended) :
    t.res = some (u.getLsbD k.toNat) := by
  obtain ⟨-, rfl⟩ := command_next h
  obtain ⟨b, -, hb⟩ := withBank_of_not_ended hrun
  rw [hb] at hrun ⊢
  rw [needOpen_of_not_ended hrun, complete_res, returnLevel_res, bankReadBit_listed hu]

theorem pread_res {s t : State} {p : PinOp} {u : Word} {rest : List Word}
    (hu : s.env.inDraws = u :: rest) (h : exec (.pread p) s = .next t) (hrun : ¬ t.Ended) :
    t.res = some (u.getLsbD p.bit.toNat ^^ p.inv) := by
  obtain ⟨-, rfl⟩ := command_next h
  obtain ⟨q, hq, hnext⟩ := withPin_of_not_ended hrun
  obtain ⟨-, hbit, hinv⟩ := bankOfPin hq
  rw [hnext] at hrun ⊢
  rw [needOpen_of_not_ended hrun, complete_res, returnLevel_res, pinRead_level, bankReadBit_listed hu, hbit, hinv]

/-- Settles O36: both runs return the same bit of the same draw. -/
theorem readResultIgnoresTheRegisters : Obligations.ReadResultIgnoresTheRegisters := by
  intro s s' t t' i u rest rest' _ _ hi hu hu' h h' hrun hrun'
  cases i
  case rdbit f k => rw [rdbit_res hu h hrun, rdbit_res hu' h' hrun']
  case pread p => rw [pread_res hu h hrun, pread_res hu' h' hrun']
  all_goals cases hi

/-! ### Reset -/

theorem boot_inv (c : Config) (dir out : PerBank Word) (cmds : List CmdWord) (env : Env) :
    (State.boot c dir out cmds env).Inv := by
  have hlive : Live (State.boot c dir out cmds env) :=
    { mapped_open := fun b hb => by simp [State.boot] at hb
      held := fun b => by simp [State.boot, pageHeld]
      result := rfl
      floating := ⟨fun _ => rfl, fun _ => rfl⟩
      running := rfl
      open_mapped := fun b hb => by simp [State.boot] at hb
      going := fun e he => by simp [State.boot] at he }
  exact hlive.inv

/-- Settles O12: a boot state holds no bank, has an empty trace and Unknown cells. -/
theorem resetMeetsTheInvariant : Obligations.ResetMeetsTheInvariant :=
  ⟨boot_inv, boot_inv _ _ _ _ _⟩

/-- Settles O11: boot's fields, and a new run as a boot that keeps the registers. -/
theorem resetStateIsAsTheSpecSays : Obligations.ResetStateIsAsTheSpecSays := by
  refine ⟨fun c dir out cmds env => ?_, ⟨.atReset, .const 0, .const 0, ⟨[], [], [], 0⟩, by decide, rfl⟩,
    fun s cmds env => ⟨rfl, rfl, rfl, rfl, rfl, boot_inv _ _ _ _ _⟩⟩
  exact ⟨fun b => by simp [State.boot], rfl, rfl, rfl, rfl, rfl, fun j _ => by simp [State.boot], rfl, rfl⟩

end Sys2Proof.Machine
end

section
/-! SUPPORT. The events of one step: events that are no accesses, then accesses of held pages, then events that are
no accesses. The statements about register accesses in the trace follow from it. -/

namespace Sys2Proof.Machine

/-- The bank whose register an event accesses. -/
def accessedBank : Event → Option BankId
  | .rd b _ _ => some b
  | .wr b _ _ => some b
  | _ => none

theorem AccessOf.bank_eq {R : OutReg → Prop} {b : BankId} {e : Event} (h : AccessOf R b e) :
    accessedBank e = some b := by
  cases h <;> rfl

theorem isAccess_of_accessedBank {b : BankId} {e : Event} (h : accessedBank e = some b) : isAccess e = true := by
  cases e <;> simp_all [accessedBank, isAccess]

/-- No access of the model writes IN (20 R55). -/
theorem AccessOf.ne_write_inp {R : OutReg → Prop} {b b' : BankId} {e : Event} {v : Word} (h : AccessOf R b e) :
    e ≠ .wr b' .inp v := by
  cases h with
  | rd r v => nofun
  | wr r v hr => cases r <;> nofun

/-- The events with which a step from `s` to `t` extends the trace. -/
structure StepEvents (s t : State) (before accesses after : List Event) : Prop where
  trace : t.trace = s.trace ++ (before ++ accesses ++ after)
  before_quiet : ∀ e ∈ before, isAccess e = false
  after_quiet : ∀ e ∈ after, isAccess e = false
  /-- each access is of a page held since before the first access, if the mapped pages are the held ones at first -/
  held : ∀ e ∈ accesses, ∃ R b, AccessOf R b e ∧
    ((∀ b, s.map.get b = pageHeld b s.trace) → pageHeld b (s.trace ++ before) = true)
  replayed : s.SoleWriter → replay (s.dir, s.out) accesses = some (t.dir, t.out)

/-- Counting a command adds no event and changes no register. -/
theorem StepEvents.complete {s t : State} {before accesses after : List Event}
    (h : StepEvents s t before accesses after) : StepEvents s (complete t) before accesses after :=
  ⟨h.trace, h.before_quiet, h.after_quiet, h.held, h.replayed⟩

/-- A step that makes no access. -/
theorem stepEvents_of_quiet {s t : State} {evs : List Event} (ht : t.trace = s.trace ++ evs)
    (hq : ∀ e ∈ evs, isAccess e = false) (hk : s.SoleWriter → s.KeepsRegisters t) : StepEvents s t evs [] [] where
  trace := by simpa using ht
  before_quiet := hq
  after_quiet := by simp
  held := by simp
  replayed hs := by simp [replay, (hk hs).dir, (hk hs).out]

/-- A step that accesses banks held in `u`, which it reaches without accesses, and then makes no access from `v`. -/
theorem AccessOn.stepEvents {P : BankId → Prop} {R : OutReg → Prop} {s u v t : State} {before after : List Event}
    (hacc : AccessOn P R u v) (hsu : Quiet s u) (hu : u.trace = s.trace ++ before)
    (hb : ∀ e ∈ before, isAccess e = false) (hvt : v.SoleWriter → v.KeepsRegisters t)
    (ht : t.trace = v.trace ++ after) (ha : ∀ e ∈ after, isAccess e = false)
    (hP : (∀ b, s.map.get b = pageHeld b s.trace) → ∀ b, P b → pageHeld b u.trace = true) :
    ∃ accesses, StepEvents s t before accesses after := by
  obtain ⟨evs, hv, hon, hreplay⟩ := hacc.trace
  refine ⟨evs, by rw [ht, hv, hu]; simp, hb, ha, fun e he => ?_, fun hs => ?_⟩
  · obtain ⟨b, hPb, hof⟩ := hon e he
    exact ⟨R, b, hof, fun hmap => hu ▸ hP hmap b hPb⟩
  · have hus : u.SoleWriter := (soleWriter_of_cfg hsu.cfg).mpr hs
    have hkeep := hvt ((soleWriter_of_cfg hacc.control.cfg).mpr hus)
    rw [hkeep.dir, hkeep.out, ← (hsu.registers hs).dir, ← (hsu.registers hs).out]
    exact hreplay hus

/-- Taking a fault after setups at most makes no access (60 R205). -/
theorem raise_stepEvents {bs : List BankId} {s u : State} (hq : Quiet s u) (hu : u.trace = s.trace ++ bs.map .acq)
    (w : CmdWord) (c : FaultCode) (info : Option BankId) :
    ∃ before, StepEvents s (raise w c info u) before [] [] := by
  refine ⟨bs.map .acq ++ (banks.filter fun b => u.fd.get b).map .rel ++ [.fault c], stepEvents_of_quiet ?_ ?_
    (hq.trans (raise_quiet w c info u)).registers⟩
  · simp [raise_trace, hu]
  · simp only [List.mem_append, List.mem_map, List.mem_singleton]
    rintro e ((⟨b, -, rfl⟩ | ⟨b, -, rfl⟩) | rfl) <;> rfl

theorem pageHeld_of_bankOpen {s : State} (hmap : ∀ b, s.map.get b = pageHeld b s.trace) {b : BankId}
    (ho : bankOpen s b = true) : pageHeld b s.trace = true := by
  simp only [bankOpen, Bool.and_eq_true] at ho
  exact hmap b ▸ ho.2

theorem isAccess_of_mem_acqs {bs : List BankId} {e : Event} (h : e ∈ bs.map Event.acq) : isAccess e = false := by
  obtain ⟨b, -, rfl⟩ := List.mem_map.mp h
  rfl

theorem Completed.stepEvents {i : Instr} {s t : State} (h : Completed i s t) :
    ∃ before accesses after, StepEvents s t before accesses after := by
  cases h with
  | opened f b hi hb hc hu =>
    have hev := stepEvents_of_quiet hu.trace (fun _ => isAccess_of_mem_acqs) hu.quiet.registers
    exact ⟨_, _, _, hev.complete⟩
  | closed f b hi hb ho =>
    have hev := stepEvents_of_quiet (bankRelease_trace b s) (by simp [isAccess]) (bankRelease_quiet b s).registers
    exact ⟨_, _, _, hev.complete⟩
  | accessed hk ho hu =>
    obtain ⟨accesses, hev⟩ := hu.stepEvents (before := []) (after := []) (.refl s) (by simp) (by simp)
      (fun _ => .refl _) (by simp) (by simp) fun hmap b hb => pageHeld_of_bankOpen hmap (ho b hb)
    exact ⟨_, _, _, hev.complete⟩
  | returned x hr ho hu =>
    obtain ⟨accesses, hev⟩ := hu.stepEvents (before := []) (.refl s) (by simp) (by simp) (returnLevel_registers x)
      (emit_trace (.ret x) _) (by simp [isAccess]) fun hmap b hb => pageHeld_of_bankOpen hmap (ho b hb)
    exact ⟨_, _, _, hev.complete⟩
  | @constructed u v hi hd hc hu hv =>
    have hdriver : Quiet u { u with drv := .constructed } := quiet_of_eq rfl rfl rfl rfl ⟨rfl, rfl, rfl, rfl⟩
    have hheld : ∀ b, pageHeld b u.trace = true := fun b => by
      have hb : b ∈ banks := by cases b <;> decide
      simp [hu.trace, pageHeld_append_acqs, hb]
    obtain ⟨accesses, hev⟩ := hv.stepEvents (after := []) (hu.quiet.trans hdriver) hu.trace
      (fun _ => isAccess_of_mem_acqs) (fun _ => .refl _) (by simp) (by simp) fun _ b _ => hheld b
    exact ⟨_, _, _, hev.complete⟩
  | exited hi =>
    have hquiet : ∀ e ∈ (banks.filter fun b => s.fd.get b).map Event.rel ++ [.exit], isAccess e = false := by
      simp only [List.mem_append, List.mem_map, List.mem_singleton]
      rintro e (⟨b, -, rfl⟩ | rfl) <;> rfl
    have hev := stepEvents_of_quiet ((endRun_trace .exit s).trans (List.append_assoc _ _ _)) hquiet
      (endRun_quiet .exit s).registers
    exact ⟨_, _, _, hev.trace, hev.before_quiet, hev.after_quiet, hev.held, hev.replayed⟩

theorem Result.stepEvents {w : CmdWord} {i : Instr} {s t : State} (h : Result w i s t) :
    ∃ before accesses after, StepEvents s t before accesses after := by
  cases h with
  | misuse c info hc => exact (raise_stepEvents (bs := []) (.refl s) (by simp) w c info).imp fun _ h => ⟨[], [], h⟩
  | setup bs b c hi hd hs hu hv =>
    exact (raise_stepEvents (hu.quiet.trans hv.quiet) (hv.fields.1.trans hu.trace) w c (some b)).imp
      fun _ h => ⟨[], [], h⟩
  | completed hc => exact hc.stepEvents

/-- A step waits, or answers what a command can answer: a word that is rejected raises a misuse code. -/
theorem step_result {s t : State} (h : step s = .next t) :
    t = s ∨ ∃ w i rest, Result w i { s with commands := rest } t := by
  obtain ⟨-, ⟨-, rfl⟩ | ⟨w, rest, -, ⟨i, -, hexec⟩ | ⟨-, c, hc, rfl⟩⟩⟩ := step_next_result h
  · exact .inl rfl
  · exact .inr ⟨_, i, rest, (exec_next_result hexec).2⟩
  · exact .inr ⟨w, .exit, rest, .misuse c none hc⟩

theorem step_stepEvents {s t : State} (h : step s = .next t) :
    ∃ before accesses after, StepEvents s t before accesses after := by
  obtain rfl | ⟨w, i, rest, hres⟩ := step_result h
  · exact ⟨[], [], [], stepEvents_of_quiet (by simp) (by simp) fun _ => .refl _⟩
  · obtain ⟨before, accesses, after, hev⟩ := hres.stepEvents
    exact ⟨before, accesses, after, hev.trace, hev.before_quiet, hev.after_quiet, hev.held, hev.replayed⟩

/-- Settles O20: a step's accesses replay to its registers, and its other events change no register. -/
theorem readsReturnTheLatestWrite : Obligations.ReadsReturnTheLatestWrite := by
  intro s t hs hstep
  obtain ⟨before, accesses, after, h⟩ := step_stepEvents hstep
  refine ⟨_, h.trace, ?_⟩
  calc replay (s.dir, s.out) (before ++ accesses ++ after)
      = (replay (s.dir, s.out) accesses).bind (replay · after) := by
        rw [replay_append, replay_append, replay_of_quiet _ _ h.before_quiet]; rfl
    _ = some (t.dir, t.out) := by rw [h.replayed hs]; exact replay_of_quiet _ _ h.after_quiet

/-- An element of two joined lists stands in the one or in the other. -/
theorem append_eq_append_cons_cases {α : Type} {xs ys pre post : List α} {e : α} (h : xs ++ ys = pre ++ e :: post) :
    (∃ rest, xs = pre ++ e :: rest) ∨ ∃ mid, pre = xs ++ mid ∧ ys = mid ++ e :: post := by
  obtain ⟨mid, rfl, hys⟩ | ⟨mid, rfl, hcons⟩ := List.append_eq_append_iff.mp h
  · exact .inr ⟨mid, rfl, hys⟩
  · obtain ⟨rfl, rfl⟩ | ⟨rest, rfl, -⟩ := List.cons_eq_append_iff.mp hcons
    · exact .inr ⟨[], by simp, rfl⟩
    · exact .inl ⟨rest, rfl⟩

/-- An access of a step is one of its accesses, and only accesses stand between `before` and it. -/
theorem StepEvents.position {s t : State} {before accesses after pre post : List Event} {e : Event}
    (h : StepEvents s t before accesses after) (heq : before ++ accesses ++ after = pre ++ e :: post)
    (he : isAccess e = true) : ∃ earlier later, pre = before ++ earlier ∧ accesses = earlier ++ e :: later := by
  have hnot : ∀ {es : List Event}, (∀ x ∈ es, isAccess x = false) → e ∉ es := fun hq hmem => by
    simp [hq e hmem] at he
  rw [List.append_assoc] at heq
  obtain ⟨rest, rfl⟩ | ⟨earlier, rfl, hrest⟩ := append_eq_append_cons_cases heq
  · exact absurd (by simp) (hnot h.before_quiet)
  obtain ⟨later, hacc⟩ | ⟨more, -, rfl⟩ := append_eq_append_cons_cases hrest
  · exact ⟨earlier, later, rfl, hacc⟩
  · exact absurd (by simp) (hnot h.after_quiet)

theorem StepEvents.isAccess_of_mem {s t : State} {before accesses after : List Event}
    (h : StepEvents s t before accesses after) {e : Event} (he : e ∈ accesses) : isAccess e = true := by
  obtain ⟨R, b, hof, -⟩ := h.held e he
  exact hof.isAccess

/-- The page of an access is held at the access: nothing was acquired or released since the first access. -/
theorem StepEvents.pageHeld_at {s t : State} {before accesses after pre post : List Event} {b : BankId} {e : Event}
    (h : StepEvents s t before accesses after) (hmap : ∀ b, s.map.get b = pageHeld b s.trace)
    (heq : before ++ accesses ++ after = pre ++ e :: post) (he : accessedBank e = some b) :
    pageHeld b (s.trace ++ pre) = true := by
  obtain ⟨earlier, later, rfl, rfl⟩ := h.position heq (isAccess_of_accessedBank he)
  obtain ⟨R, b', hof, hheld⟩ := h.held e (by simp)
  obtain rfl : b' = b := Option.some.inj (hof.bank_eq.symm.trans he)
  have hearlier : ∀ x ∈ earlier, isAccess x = true := fun x hx => h.isAccess_of_mem (by simp [hx])
  rw [← List.append_assoc, pageHeld_append_accesses _ _ hearlier]
  exact hheld hmap

/-- Settles O21: a step's accesses are of pages held since before the first of them, and none writes IN. -/
theorem everyAccessIsToAHeldPage : Obligations.EveryAccessIsToAHeldPage := by
  intro s t hinv hstep
  obtain ⟨before, accesses, after, h⟩ := step_stepEvents hstep
  refine ⟨_, h.trace, fun b v hmem => ?_, fun pre post b r v heq => ?_⟩
  · obtain ⟨pre, post, heq⟩ := List.append_of_mem hmem
    obtain ⟨earlier, later, -, hacc⟩ := h.position heq rfl
    obtain ⟨R, b', hof, -⟩ := h.held (.wr b .inp v) (by simp [hacc])
    exact hof.ne_write_inp rfl
  · rcases heq with heq | heq
    · exact h.pageHeld_at hinv.held heq rfl
    · exact h.pageHeld_at hinv.held heq rfl

end Sys2Proof.Machine
end

section
/-! SUPPORT. What one ChainUpdate and one register write do to the chain and to the display; and the settled
statements about the chain (20 R73 to R80). -/

namespace Sys2Proof.Machine

/-! ### One ChainUpdate -/

/-- Shifting known bits in leaves the k-th bit from the last in cell `k` (20 R74). -/
theorem cellAt_shiftIns (bits : List Bool) (sr : Cells) {k : Nat} (hk : k < 40) (hl : k < bits.length) :
    cellAt (bits.foldl (fun sr x => shiftIn (.known x) sr) sr) k = .known (bits.reverse.getD k false) := by
  induction bits using List.reverseRecOn generalizing k with
  | nil => cases hl
  | append_singleton bits x ih =>
    rw [List.foldl_concat, List.reverse_concat]
    cases k with
    | zero => simp
    | succ k =>
      rw [cellAt_shiftIn_succ _ _ hk, ih (by omega) (by simpa using hl)]
      rfl

/-- Settles O51: a rising edge shifts, no edge keeps SR, and 40 shifts replace every cell. -/
theorem risingEdgeShiftsTheChain : Obligations.RisingEdgeShiftsTheChain := by
  refine ⟨fun s a b hn ha hb => ?_, fun s a b x y hn ha hb h => chainUpdate_no_edge s hn ha hb h,
    fun bits sr hl k hk => cellAt_shiftIns bits sr hk (hl ▸ hk)⟩
  intro t
  have hsr : t.sr = shiftIn (sampled s.cfg a.data) s.sr := chainUpdate_edge s hn ha hb
  rw [hsr]
  refine ⟨cellAt_shiftIn_zero _ _, fun j h1 hj => ?_⟩
  obtain ⟨k, rfl⟩ := Nat.exists_eq_add_of_le' h1
  exact cellAt_shiftIn_succ _ _ hj

/-- LATCH is Unknown once LE has floated before a ChainUpdate or after it (20 R76). -/
theorem latchRule_undriven {m : LatchMode} {x y : LineLevel} (sr latch : Cells) (h : x = .undriven ∨ y = .undriven) :
    latchRule m x y sr latch = .unknown := by
  rcases h with rfl | rfl
  · rfl
  · cases x <;> rfl

/-- Settles O52: LatchRule of a floating and of a driven latch-enable. -/
theorem latchCommitsByMode : Obligations.LatchCommitsByMode := by
  intro s a b hn
  have hlatch := chainUpdate_latch s hn
  refine ⟨fun h => hlatch.trans (latchRule_undriven _ _ h), fun x y hx hy => ?_⟩
  rw [hx, hy] at hlatch
  refine ⟨fun hm => ?_, fun hm => ?_, fun hm => ?_⟩ <;> simp [hlatch, hm, latchRule]

theorem chainUpdate_two_changes {a b : Lines} (s : State) (h : 2 ≤ changedLines a b) :
    (chainUpdate a b s).sr = .unknown ∧ (chainUpdate a b s).latch = .unknown := by
  unfold chainUpdate
  rw [if_pos h]
  exact ⟨rfl, rfl⟩

/-- SR is Unknown once the clock has floated before a ChainUpdate (20 R75). -/
theorem chainUpdate_clock_was_undriven {a b : Lines} (s : State) (h : a.clk = .undriven) :
    (chainUpdate a b s).sr = .unknown := by
  unfold chainUpdate
  split
  · rfl
  · simp only [h, clockRule]

/-! ### One register write -/

/-- A register write that replaces bit `k` of bank `b` leaves the level of every other pin. -/
theorem level_setReg_withBit (s : State) {b : BankId} {k : BitVec 5} (r : OutReg) (x : Bool) {p : Pin}
    (hp : ¬ IsLine p b k.toNat) :
    level (setReg b r (withBit (match r with | .dir => s.dir.get b | .out => s.out.get b) k x) s) p = level s p := by
  have hne : ¬ (p.bank = b ∧ p.bit.toNat = k.toNat) := hp
  cases r with
  | dir => exact level_congr rfl ((dirBit_set s b p.bank k x p.bit.toNat).trans (if_neg hne)) rfl
  | out => exact level_congr rfl rfl ((outBit_set s b p.bank k x p.bit.toNat).trans (if_neg hne))

/-- Two pins of a legal wiring do not name one line (10 R35). -/
theorem not_isLine_of_pinsApart {p q : Pin} (h : pinsApart p q = true) {b : BankId} {j : Nat} (hp : IsLine p b j) :
    ¬ IsLine q b j := fun hq =>
  (pinsApart_iff p q).mp h ⟨hp.1.trans hq.1.symm, hp.2.trans hq.2.symm⟩

/-- Lines that differ on the pin of one line only differ in one line at most (20 R73). -/
theorem changedLines_le_one {s t : State} (hw : wiringLegal s.cfg.wiring = true) (hc : t.cfg = s.cfg) {b : BankId}
    {j : Nat} (h : ∀ p, ¬ IsLine p b j → level t p = level s p) : changedLines s.lines t.lines ≤ 1 := by
  obtain ⟨⟨hdc, -, hdl⟩, ⟨-, hcl⟩, -⟩ := (wiringLegal_iff _).mp hw
  have hone : ∀ x y : LineLevel, (if x = y then 0 else 1) ≤ 1 := fun x y => by split <;> simp
  simp only [lines_eq, hc, changedLines]
  by_cases hd : IsLine s.cfg.wiring.data b j
  · rw [h _ (not_isLine_of_pinsApart hdc hd), h _ (not_isLine_of_pinsApart hdl hd)]
    simpa using hone _ _
  · by_cases hk : IsLine s.cfg.wiring.clk b j
    · rw [h _ hd, h _ (not_isLine_of_pinsApart hcl hk)]
      simpa using hone _ _
    · rw [h _ hd, h _ hk]
      simpa using hone _ _

/-- Settles O53: a write of one bit reaches one line's pin, and two changes or a floating clock lose the cells. -/
theorem oneWriteChangesOneLine : Obligations.OneWriteChangesOneLine := by
  refine ⟨fun s b k x r hl => ?_, fun s a b => ⟨chainUpdate_two_changes s, fun h => ?_⟩⟩
  · obtain ⟨-, hw, -, -⟩ := (configLegal_iff _).mp hl
    exact changedLines_le_one hw (by cases r <;> rfl) fun p => level_setReg_withBit s r x
  · exact h.elim (chainUpdate_clock_was_undriven s) (chainUpdate_clock_undriven s)

/-! ### The chain at rest -/

theorem changedLines_self (a : Lines) : changedLines a a = 0 := by simp [changedLines]

/-- ChainUpdate of unchanged lines keeps SR, where a floating clock has Unknown cells (20 R75). -/
theorem chainUpdate_self_sr {s : State} (h : Floating s) : (chainUpdate s.lines s.lines s).sr = s.sr := by
  rcases hk : s.lines.clk with x | _
  · exact chainUpdate_no_edge s (by simp [changedLines_self]) hk hk (by cases x <;> simp)
  · exact (chainUpdate_clock_undriven s hk).trans (h.clock hk).symm

/-- ChainUpdate of unchanged lines sets LATCH to SR under an open transparent latch, and else keeps it (20 R76). -/
theorem chainUpdate_self_latch {s : State} (h : Floating s) : (chainUpdate s.lines s.lines s).latch =
    if s.cfg.latchMode = .transparent ∧ level s s.cfg.wiring.le = .driven true then s.sr else s.latch := by
  rw [chainUpdate_latch s (by simp [changedLines_self]), chainUpdate_self_sr h]
  change latchRule _ (level s s.cfg.wiring.le) (level s s.cfg.wiring.le) _ _ = _
  rcases hle : level s s.cfg.wiring.le with y | _
  · cases s.cfg.latchMode <;> cases y <;> simp [latchRule]
  · simp [latchRule, h.latch hle]

theorem chainAtRest_iff (s : State) : s.ChainAtRest ↔
    (chainUpdate s.lines s.lines s).sr = s.sr ∧ (chainUpdate s.lines s.lines s).latch = s.latch := by
  have h : chainUpdate s.lines s.lines s =
      { s with sr := (chainUpdate s.lines s.lines s).sr, latch := (chainUpdate s.lines s.lines s).latch } := by
    unfold chainUpdate
    split <;> rfl
  constructor
  · intro hrest
    rw [chainUpdate_same hrest]
    exact ⟨rfl, rfl⟩
  · rintro ⟨hsr, hlatch⟩
    rw [hsr, hlatch] at h
    exact h

/-- Settles O54: only the copy of SR by an open transparent latch can change a cell. -/
theorem chainRestsBetweenWrites : Obligations.ChainRestsBetweenWrites := by
  intro s hinv
  have hf := Inv_floating hinv
  rw [chainAtRest_iff, chainUpdate_self_latch hf, eq_true (chainUpdate_self_sr hf), true_and]
  split
  case isTrue h => simp [h, eq_comm]
  case isFalse h => exact ⟨fun _ hopen => h ⟨hopen.1, hopen.2.1⟩, fun _ => rfl⟩

/-! ### Shifting and the display -/

/-- LE is driven and strobes nothing while it stays as it is: it is Low, or the latch is not transparent (20 R76). -/
def State.LatchShut (s : State) : Prop :=
  ∃ y, level s s.cfg.wiring.le = .driven y ∧ (s.cfg.latchMode = .transparent → y = false)

/-- What the display shows depends on the parameters, LATCH and OE, and they are as before; so is LE. -/
structure State.KeepsDisplay (s t : State) : Prop where
  cfg : t.cfg = s.cfg
  latch : t.latch = s.latch
  oe : level t s.cfg.wiring.oe = level s s.cfg.wiring.oe
  le : level t s.cfg.wiring.le = level s s.cfg.wiring.le

theorem State.KeepsDisplay.refl (s : State) : s.KeepsDisplay s := ⟨rfl, rfl, rfl, rfl⟩

theorem State.KeepsDisplay.trans {s t u : State} (h : s.KeepsDisplay t) (h' : t.KeepsDisplay u) : s.KeepsDisplay u where
  cfg := h'.cfg.trans h.cfg
  latch := h'.latch.trans h.latch
  oe := (h.cfg ▸ h'.oe).trans h.oe
  le := (h.cfg ▸ h'.le).trans h.le

theorem State.KeepsDisplay.displayState {s t : State} (h : s.KeepsDisplay t) : displayState t = displayState s := by
  simp only [Machine.displayState, h.cfg, h.oe]

theorem State.KeepsDisplay.glow {s t : State} (h : s.KeepsDisplay t) (k : Fin 5) (g : Segment) :
    glow t k g = glow s k g := by
  simp only [Machine.glow, h.displayState, dispBit, h.cfg, h.latch]

/-- A latch that is shut keeps its cells while LE keeps its level (20 R76). -/
theorem latchRule_shut {m : LatchMode} {y : Level} (sr latch : Cells) (h : m = .transparent → y = false) :
    latchRule m (.driven y) (.driven y) sr latch = latch := by
  cases m with
  | risingEdge => cases y <;> rfl
  | fallingEdge => cases y <;> rfl
  | transparent => rw [h rfl]; rfl

/-- A pin write leaves the level of a pin of another line. -/
theorem pinWrite_level_apart {s : State} (hs : s.SoleWriter) {p q : Pin} (y : Level) (h : ¬ IsLine q p.bank p.bit.toNat) :
    level (pinWrite p y s) q = level s q := by
  rw [pinWrite_level hs, if_neg fun hq => h ⟨hq.1, hq.2.1⟩]

/-- A write of a pin that is neither LE's nor OE's line changes nothing of what is shown while the latch is shut. -/
theorem pinWrite_keepsDisplay {s : State} (hs : s.SoleWriter) (hw : wiringLegal s.cfg.wiring = true)
    (hshut : s.LatchShut) {p : Pin} (hle : pinsApart p s.cfg.wiring.le = true)
    (hoe : pinsApart p s.cfg.wiring.oe = true) (y : Level) : s.KeepsDisplay (pinWrite p y s) := by
  have hcfg : (pinWrite p y s).cfg = s.cfg := bankWriteBit_cfg _ _ _ _
  have hkeep : ∀ q, ¬ IsLine q p.bank p.bit.toNat → level (pinWrite p y s) q = level s q :=
    fun q => pinWrite_level_apart hs y
  have hlelevel := hkeep _ (not_isLine_of_pinsApart hle ⟨rfl, rfl⟩)
  refine ⟨hcfg, ?_, hkeep _ (not_isLine_of_pinsApart hoe ⟨rfl, rfl⟩), hlelevel⟩
  obtain ⟨x, hx, hlow⟩ := hshut
  have hbefore : s.lines.le = .driven x := hx
  have hafter : (pinWrite p y s).lines.le = .driven x := by rw [lines_eq, hcfg, hlelevel, hx]
  rw [(pinWrite_chain hs p y).2, chainUpdate_latch s (changedLines_le_one hw hcfg hkeep), hbefore, hafter]
  exact latchRule_shut _ _ hlow

theorem State.LatchShut.kept {s t : State} (h : s.LatchShut) (hk : s.KeepsDisplay t) : t.LatchShut := by
  obtain ⟨y, hy, hlow⟩ := h
  exact ⟨y, by rw [hk.cfg, hk.le, hy], by rwa [hk.cfg]⟩

/-- Writes of pins that are neither LE's nor OE's line, one after another. -/
theorem pinWrites_keepsDisplay (ws : List (Pin × Level)) {s : State} (hs : s.SoleWriter)
    (hw : wiringLegal s.cfg.wiring = true) (hshut : s.LatchShut)
    (h : ∀ w ∈ ws, pinsApart w.1 s.cfg.wiring.le = true ∧ pinsApart w.1 s.cfg.wiring.oe = true) :
    s.KeepsDisplay (pinWrites ws s) := by
  induction ws generalizing s with
  | nil => exact .refl s
  | cons w ws ih =>
    obtain ⟨hle, hoe⟩ := h w (by simp)
    have hfirst := pinWrite_keepsDisplay hs hw hshut hle hoe w.2
    exact hfirst.trans (ih ((soleWriter_of_cfg hfirst.cfg).mpr hs) (by rwa [hfirst.cfg]) (hshut.kept hfirst)
      fun x hx => by rw [hfirst.cfg]; exact h x (by simp [hx]))

/-- Settles O55: DATA and CLK are lines apart from LE and OE, so no write of ShiftOut strobes or shows anything. -/
theorem shiftingLeavesTheDisplay : Obligations.ShiftingLeavesTheDisplay := by
  intro s o x hl hs hshut
  obtain ⟨-, hw, -, -⟩ := (configLegal_iff _).mp hl
  obtain ⟨⟨-, hdo, hdl⟩, ⟨hco, hcl⟩, -⟩ := (wiringLegal_iff _).mp hw
  have hkeep : s.KeepsDisplay (shiftOut s.cfg.wiring.data s.cfg.wiring.clk o x s) :=
    pinWrites_keepsDisplay _ hs hw hshut fun w hmem => by
      rcases mem_shiftOutWrites hmem with h | h <;> rw [h]
      exacts [⟨hdl, hdo⟩, ⟨hcl, hco⟩]
  exact ⟨hkeep.latch, hkeep.displayState, hkeep.glow⟩

end Sys2Proof.Machine
end

section
/-! SUPPORT. Reads of IN, other writers in a gap, physical addresses and what the display shows; and the settled
statements about them. -/

namespace Sys2Proof.Machine

/-! ### Another writer in a gap -/

/-- With other writers a gap after the first event makes the listed replacements (20 R64; log 6). -/
theorem gap_listed {s : State} {ws : List EnvWrite} {rest : List (List EnvWrite)} (hx : s.cfg.externalWriters = true)
    (ht : s.trace ≠ []) (hw : s.env.writerDraws = ws :: rest) :
    gap s = ws.foldl envReplace { s with env := { s.env with writerDraws := rest } } := by
  simp [gap, hx, ht, drawWrites_listed hw]

/-- OUT of a bank after a replacement (20 R64). -/
theorem envReplace_out_get (s : State) (w : EnvWrite) (b : BankId) :
    (envReplace s w).out.get b = replaced (·.2) (s.out.get b) (w.get b) := by
  simp only [envReplace, chainUpdate_out]
  cases b <;> rfl

/-- OUT after a gap with one replacement. -/
theorem gap_out_get_of_one_write {s : State} {w : EnvWrite} {rest : List (List EnvWrite)}
    (hx : s.cfg.externalWriters = true) (ht : s.trace ≠ []) (hw : s.env.writerDraws = [w] :: rest) (b : BankId) :
    (gap s).out.get b = replaced (·.2) (s.out.get b) (w.get b) := by
  rw [gap_listed hx ht hw, List.foldl_cons, List.foldl_nil, envReplace_out_get]

/-- A bit write's write keeps what the gap before it left in the other banks, and writes the word the read gave. -/
theorem bankWriteBit_out_eq (b : BankId) (k : BitVec 5) (x : Level) (s : State) :
    (bankWriteBit b k x s).out = (gap (vRead b .out s).2).out.set b (withBit (vRead b .out s).1 k x) := by
  simp [bankWriteBit, vWrite]

/-- Settles O28: the read precedes the replacement, and the write puts the stale word back. -/
theorem otherWritersUpdateIsLost : Obligations.OtherWritersUpdateIsLost := by
  intro s b k x w rest hx ht hw
  have hread : vRead b .out s = (s.out.get b, record (.rd b .out (s.out.get b))
      { s with env := { s.env with writerDraws := [w] :: rest } }) := by
    simp only [vRead, gap_listed hx ht hw, List.foldl_nil]
  have hraced : ∀ b', (gap (vRead b .out s).2).out.get b' = replaced (·.2) (s.out.get b') (w.get b') := fun b' => by
    have htrace : (vRead b .out s).2.trace ≠ [] := by simp [hread]
    rw [gap_out_get_of_one_write (rest := rest) (by rw [hread]; exact hx) htrace (by rw [hread]; rfl), hread]
    rfl
  rw [bankWriteBit_out_eq]
  refine ⟨by rw [perBank_get_set_self, hread], fun b' hb => ?_⟩
  rw [perBank_get_set_other _ _ hb, hraced]
  cases w.get b' <;> rfl

/-! ### Reading a bit -/

/-- A read of a bit of IN: the value drawn after the gap, its bit, and its one event (20 R54). -/
theorem bankReadBit_draw (b : BankId) (k : BitVec 5) (s : State) :
    (bankReadBit b k s).1 = (drawIn (gap s)).1.getLsbD k.toNat ∧
    (bankReadBit b k s).2.trace = s.trace ++ [.rd b .inp (drawIn (gap s)).1] := by
  simp [bankReadBit, vRead]

/-- With no other writer a read of IN changes no register and no cell. -/
theorem bankReadBit_registers {s : State} (hs : s.SoleWriter) (b : BankId) (k : BitVec 5) :
    s.KeepsRegisters (bankReadBit b k s).2 := by
  constructor <;> simp [bankReadBit, vRead, gap_of_sole hs]

theorem bankReadBit_accessOn (b : BankId) (k : BitVec 5) (s : State) :
    AccessOn (· = b) (fun _ => False) s (bankReadBit b k s).2 :=
  vRead_accessOn (P := (· = b)) rfl .inp s

theorem returnLevel_control (x : Level) (s : State) : s.KeepsControl (returnLevel x s) := by
  constructor <;> simp [returnLevel]

/-- A command that reads a bit of an open bank, ready to take: both of them return the bit as their pin inverts it. -/
theorem readsLevel_exec {s : State} {b : BankId} {k : BitIx} {inv : Bool} {i : Instr} (hr : s.Ready)
    (ho : bankOpen s b = true) (hi : Spec.ReadsLevel b k inv i) :
    exec i s = .next (complete (returnLevel ((bankReadBit b k s).1 ^^ inv) (bankReadBit b k s).2)) := by
  cases hi with
  | rdbit f hf =>
    refine (command_ready hr _).trans ?_
    simp [withBank, hf, needOpen, ho]
  | pread p hb hk =>
    subst hk
    have hp : pinOfOp p = some ⟨b, p.bit, p.inv⟩ := by simp [pinOfOp, hb]
    refine (command_ready hr _).trans ?_
    simp [withPin, hp, needOpen, ho, pinRead]

/-- Settles O35: one read of IN, which draws, then Ret of the bit. -/
theorem rdbitAndPreadReturnTheDrawnBit : Obligations.RdbitAndPreadReturnTheDrawnBit := by
  intro s b k inv i hr ho hi
  obtain ⟨hbit, htrace⟩ := bankReadBit_draw b k s
  have hacc := bankReadBit_accessOn b k s
  refine ⟨_, (drawIn (gap s)).1, readsLevel_exec hr ho hi, ?_, ?_, ?_, ?_, fun u rest hu => ?_, fun hs => ?_⟩
  · obtain ⟨hcfg, hfd, hmap, hdrv, hphase, hcommands⟩ := hacc.control.trans (returnLevel_control _ _)
    exact ⟨hcfg, hfd, hmap, hdrv, hphase, hcommands⟩
  · rw [complete_pc, returnLevel_pc, hacc.pc]
  · rw [complete_res, returnLevel_res, hbit]
  · rw [complete_trace, returnLevel, emit_trace, htrace, hbit, List.append_assoc]; rfl
  · rw [drawIn_listed ((gap_inDraws s).trans hu)]
  · have hsole := (soleWriter_of_cfg hacc.control.cfg).mpr hs
    obtain ⟨hdir, hout, hsr, hlatch⟩ := (bankReadBit_registers hs b k).trans (returnLevel_registers _ hsole)
    exact ⟨hdir, hout, hsr, hlatch⟩

/-! ### Physical addresses -/

/-- A register found at an address is the one of that address (20 R58). -/
theorem addrOf_of_registerAt {c : Config} {a : Nat} {b : BankId} {r : Reg} (h : registerAt c a = some (b, r)) :
    addrOf c b r = a := by
  simpa using List.find?_some h

theorem registerAt_eq_none {c : Config} {a : Nat} (h : ∀ b r, a ≠ addrOf c b r) : registerAt c a = none :=
  Option.eq_none_iff_forall_ne_some.mpr fun ⟨b, r⟩ hr => h b r (addrOf_of_registerAt hr).symm

/-- Settles O58: the constraints of 20 R52 read at each register. -/
theorem registerAddresses : Obligations.RegisterAddresses := by
  intro c hl
  obtain ⟨ha, -, -, -⟩ := (configLegal_iff c).mp hl
  obtain ⟨hoff, -, hbase, -⟩ := (addressesLegal_iff c).mp ha
  refine ⟨fun b r => ⟨registerAt_addrOf ha b r, ?_, ?_⟩, fun a b r h => (addrOf_of_registerAt h).symm⟩
  · have h1 := (hoff r).1
    have h2 := hbase b
    simp only [addrOf]
    omega
  · have hin : offsetOf c r < c.pageSize := by have := (hoff r).2; omega
    simp [windowAddr, hin, addrOf]

/-- What a four-byte access at a register's address reaches (20 R53, R58). -/
theorem resolve_addrOf {s : State} (hl : configLegal s.cfg = true) (b : BankId) (r : Reg) :
    resolve s (addrOf s.cfg b r) 4 = if bankOpen s b then .ok (b, r) else .error .pageNotMapped := by
  simp [resolve, registerAt_addrOf ((configLegal_iff _).mp hl).1]

theorem resolve_outside {s : State} {a : Nat} (h : ∀ b r, a ≠ addrOf s.cfg b r) :
    resolve s a 4 = .error .outsideRegisters := by
  simp [resolve, registerAt_eq_none h]

theorem resolve_width (s : State) (a : Nat) {n : Nat} (h : n ≠ 4) : resolve s a n = .error .accessWidth := by
  simp [resolve, h]

theorem mem_refused {s : State} {a n : Nat} {e : Refusal} (h : resolve s a n = .error e) (v : Word) :
    memRead a n s = .refused e ∧ memWrite a n v s = .refused e := by
  simp [memRead, memWrite, h]

/-- Settles O59: a physical access is what `resolve` answers for it. -/
theorem physicalAccessReachesOnlyRegisters : Obligations.PhysicalAccessReachesOnlyRegisters := by
  intro s b v hl
  refine ⟨fun ho => ?_, fun hc r => ?_, fun a ha => mem_refused (resolve_outside ha) v,
    fun a n hn => mem_refused (resolve_width s a hn) v⟩
  · have hres : ∀ r, resolve s (addrOf s.cfg b r) 4 = .ok (b, r) := fun r => by rw [resolve_addrOf hl, if_pos ho]
    refine ⟨fun r => by simp [memRead, hres], fun r => ?_, by simp [memWrite, hres]⟩
    cases r <;> simp [memWrite, hres, OutReg.toReg]
  · exact mem_refused (by simp [resolve_addrOf hl, hc]) v

/-! ### What the display shows -/

theorem displayState_of_driven {s : State} {x : Level} (h : level s s.cfg.wiring.oe = .driven x) :
    displayState s = if x then .disabled else .enabled := by
  cases x <;> simp [displayState, h]

/-- The bit of a byte whose cells are known (20 R78). -/
theorem dispBit_of_dispByte {s : State} {k : Fin 5} {x : Byte} (h : dispByte s k = cellsOfByte x) (j : Fin 8) :
    dispBit s k j = .known (x.getLsbD j.val) :=
  congrFun (List.ofFn_injective h) j

theorem glowOf_known (x : Bool) : (glowOf (.known x) = .lit ↔ x = true) ∧ (glowOf (.known x) = .dark ↔ x = false) := by
  cases x <;> simp [glowOf]

/-- Enabled, a segment away from the colon position and each of the two dots at it shows its bit (20 R79, 43 R161). -/
theorem glow_of_shown {s : State} {k : Fin 5} {x : Byte} (he : displayState s = .enabled)
    (hx : dispByte s k = cellsOfByte x) {g : Segment} (hg : (atColon s.cfg k && !colonBit g) = false) :
    (glow s k g = .lit ↔ x.getLsbD (segBitOf s.cfg.segBit g).val = true) ∧
    (glow s k g = .dark ↔ x.getLsbD (segBitOf s.cfg.segBit g).val = false) := by
  have hglow : glow s k g = glowOf (.known (x.getLsbD (segBitOf s.cfg.segBit g).val)) := by
    simp [glow, he, hg, dispBit_of_dispByte hx]
  rw [hglow]
  exact glowOf_known _

/-- Settles O56: `glow` by the driver's state, and by whether the position is the colon's. -/
theorem displayShowsTheLatchedBytes : Obligations.DisplayShowsTheLatchedBytes := by
  intro s k x
  refine ⟨fun h g => by simp [glow, displayState_of_driven h], fun h hx => ?_⟩
  have he : displayState s = .enabled := displayState_of_driven h
  refine ⟨fun hne g => ?_, fun hat => ?_⟩
  · have hfar : atColon s.cfg k = false := beq_false_of_ne hne
    exact glow_of_shown he hx (by simp [hfar])
  have hcolon : atColon s.cfg k = true := by simp [atColon, hat]
  have hany : ∀ g, colonBit g = false → glow s k g = .any := fun g hg => by simp [glow, he, hcolon, hg]
  have htop := glow_of_shown he hx (g := .top) (by simp [colonBit])
  have htopRight := glow_of_shown he hx (g := .topRight) (by simp [colonBit])
  exact ⟨htop.1, htop.2, htopRight.1, htopRight.2, hany _ rfl, hany _ rfl, hany _ rfl, hany _ rfl, hany _ rfl,
    hany _ rfl⟩

end Sys2Proof.Machine
end

section
/-! SUPPORT. Decoding and encoding (30 R92 to R103): what `decode` answers, rows of the opcode table as opcodes, and
the operands a command's own word holds; and the settled statements of the round trip. -/

namespace Sys2Proof

open Spec

/-! ### What `decode` answers -/

theorem ofByte_eq_some_iff {b : Byte} {op : Opcode} : Opcode.ofByte b = some op ↔ b = op.code :=
  ⟨fun h => (ofByte_some h).symm, fun h => h ▸ ofByte_code op⟩

/-- An opcode's code names it alone (30 R99). -/
theorem code_injective {op op' : Opcode} (h : op.code = op'.code) : op = op' := by
  have hop := ofByte_code op
  rw [h, ofByte_code] at hop
  exact (Option.some.inj hop).symm

/-- The answers for a word with a listed opcode, in the order of the checks (30 R103). -/
theorem decode_of_code {w : CmdWord} {op : Opcode} (hc : byteAt w 56 = op.code) :
    decode w = if w &&& op.reservedMask ≠ 0 then .illegal
      else if (op.bankFields w).any (fun f => f == 3#2) then .badBank else .cmd (op.operands w) := by
  simp only [decode, ofByte_eq_some_iff.mpr hc]

theorem decode_of_fields {w : CmdWord} {op : Opcode} (hc : byteAt w 56 = op.code) (hm : w &&& op.reservedMask = 0)
    (hb : (op.bankFields w).any (fun f => f == 3#2) = false) : decode w = .cmd (op.operands w) := by
  simp [decode_of_code hc, hm, hb]

theorem decode_of_bank_three {w : CmdWord} {op : Opcode} (hc : byteAt w 56 = op.code)
    (hm : w &&& op.reservedMask = 0) (hb : 3#2 ∈ op.bankFields w) : decode w = .badBank := by
  have hany : (op.bankFields w).any (fun f => f == 3#2) = true := List.any_eq_true.mpr ⟨_, hb, beq_self_eq_true _⟩
  simp [decode_of_code hc, hm, hany]

/-- A word is illegal when no opcode has its code, or the one that has reserves a bit that is 1 (30 R100, R101). -/
theorem decode_illegal_iff {w : CmdWord} :
    decode w = .illegal ↔ ∀ op : Opcode, byteAt w 56 = op.code → w &&& op.reservedMask ≠ 0 := by
  cases hop : Opcode.ofByte (byteAt w 56) with
  | none =>
    have hnone : ∀ op : Opcode, byteAt w 56 ≠ op.code := fun op hc => by
      rw [ofByte_eq_some_iff.mpr hc] at hop; cases hop
    simp [decode, hop, hnone]
  | some op =>
    have hc := ofByte_eq_some_iff.mp hop
    rw [decode_of_code hc]
    constructor
    · intro h op' hc'
      obtain rfl := code_injective (hc.symm.trans hc')
      by_contra hm
      rw [if_neg (not_not.mpr hm)] at h
      split at h <;> cases h
    · exact fun h => if_pos (h op hc)

/-! ### Rows of the opcode table -/

/-- An opcode's row of spec/opcode_table.json: its code and 0 in the reserved bits. -/
def Opcode.row (op : Opcode) : CmdWord × CmdWord := (op.code ++ 0#56, 0xFF#8 ++ op.reservedMask.extractLsb' 0 56)

theorem opcodeTable_eq : opcodeTable = Opcode.all.map Opcode.row := by decide

theorem mem_all (op : Opcode) : op ∈ Opcode.all := by cases op <;> decide

theorem mem_opcodeTable {r : CmdWord × CmdWord} : r ∈ opcodeTable ↔ ∃ op : Opcode, op.row = r := by
  simp [opcodeTable_eq, mem_all]

theorem reservedMask_split (op : Opcode) : 0#8 ++ op.reservedMask.extractLsb' 0 56 = op.reservedMask := by
  cases op <;> decide

/-- A word is its opcode byte and the 56 bits below it (30 R90). -/
theorem word_of_opcode (w : CmdWord) : byteAt w 56 ++ w.extractLsb' 0 56 = w :=
  BitVec.extractLsb'_append_extractLsb'

theorem append_eq_append_iff {m n : Nat} {x x' : BitVec m} {y y' : BitVec n} :
    x ++ y = x' ++ y' ↔ x = x' ∧ y = y' := by
  refine ⟨fun h => ⟨?_, ?_⟩, fun ⟨hx, hy⟩ => hx ▸ hy ▸ rfl⟩
  · simpa only [BitVec.extractLsb'_append_eq_left] using congrArg (BitVec.extractLsb' n m) h
  · simpa only [BitVec.extractLsb'_append_eq_right] using congrArg (BitVec.extractLsb' 0 n) h

/-- A word matches a row when it has the row's opcode and 0 in its reserved bits (30 R103). -/
theorem matches_row_iff (w : CmdWord) (op : Opcode) :
    w &&& op.row.2 = op.row.1 ↔ byteAt w 56 = op.code ∧ w &&& op.reservedMask = 0 := by
  have hrow : w &&& op.row.2 = byteAt w 56 ++ (w.extractLsb' 0 56 &&& op.reservedMask.extractLsb' 0 56) := by
    conv_lhs => rw [← word_of_opcode w, Opcode.row, append_and_append]
    rw [show (0xFF#8 : Byte) = BitVec.allOnes 8 from rfl, BitVec.and_allOnes]
  have hmask : w &&& op.reservedMask = 0#8 ++ (w.extractLsb' 0 56 &&& op.reservedMask.extractLsb' 0 56) := by
    conv_lhs => rw [← word_of_opcode w, ← reservedMask_split op, append_and_append]
    rw [BitVec.and_zero]
  have hzero : (0 : CmdWord) = 0#8 ++ 0#56 := by decide
  rw [hrow, hmask, hzero, Opcode.row, append_eq_append_iff, append_eq_append_iff]
  simp

/-- Settles O3: a row is an opcode's, and a word matches it when its code and reserved bits do. -/
theorem illegalWordsAreThoseOutsideTheTable : Obligations.IllegalWordsAreThoseOutsideTheTable := by
  refine ⟨fun w => ?_, fun w r r' hr hr' hmatch hmatch' => ?_⟩
  · simp only [decode_illegal_iff, mem_opcodeTable, forall_exists_index, forall_apply_eq_imp_iff, ne_eq,
      matches_row_iff, not_and]
  · obtain ⟨op, rfl⟩ := mem_opcodeTable.mp hr
    obtain ⟨op', rfl⟩ := mem_opcodeTable.mp hr'
    obtain ⟨hc, -⟩ := (matches_row_iff w op).mp hmatch
    obtain ⟨hc', -⟩ := (matches_row_iff w op').mp hmatch'
    rw [code_injective (hc.symm.trans hc')]

/-! ### Well-formedness of the operands -/

theorem extract_extract {n : Nat} (w : BitVec n) {lo len lo' len' : Nat} (h : lo' + len' ≤ len) :
    (w.extractLsb' lo len).extractLsb' lo' len' = w.extractLsb' (lo + lo') len' := by
  ext j hj
  simp only [BitVec.getElem_extractLsb', BitVec.getLsbD_extractLsb']
  rw [decide_eq_true (by omega), Bool.true_and, Nat.add_assoc]

/-- The command read from a word is well formed when no bank field of the word is 3 (30 R98). -/
theorem wf_operands (op : Opcode) (w : CmdWord) :
    (op.operands w).wf = !(op.bankFields w).any (fun f => f == 3#2) := by
  cases op <;>
    simp [Opcode.operands, Opcode.bankFields, Instr.wf, PinOp.wf, BankField.wf, PinOp.ofByte, byteAt,
      extract_extract, bne]

/-- Settles O2: `encode_of_decode`, the checks of bank fields, and the word as its eight bytes. -/
theorem decodedCommandEncodesToItsWord : Obligations.DecodedCommandEncodesToItsWord := by
  refine ⟨fun w i h => ⟨encode_of_decode h, ?_⟩, fun w rest => ?_⟩
  · obtain ⟨op, -, -, hb, rfl⟩ := decode_cmd h
    rw [wf_operands, hb, Bool.not_false]
  · change some (_, rest) = some (w, rest)
    rw [bytes_join]

/-! ### The operands of a command's own word -/

/-- The opcode of a command (30 R99). -/
def opcodeOf : Instr → Opcode
  | .openBank _ => .openBank
  | .closeBank _ => .closeBank
  | .setdir _ _ _ => .setdir
  | .wrbit _ _ _ => .wrbit
  | .rdbit _ _ => .rdbit
  | .pmode _ _ => .pmode
  | .pwrite _ _ => .pwrite
  | .pread _ => .pread
  | .shiftout _ _ _ _ => .shiftout
  | .lnew => .lnew
  | .lenable => .lenable
  | .ldisable => .ldisable
  | .lset _ _ _ _ _ => .lset
  | .exit => .exit

theorem row_opcodeOf (i : Instr) : (opcodeOf i).row = Laws.EncodeMatchesTable.row i := by
  cases i <;> simp only [opcodeOf, Laws.EncodeMatchesTable.row] <;> decide

/-- A command's word matches its opcode's row (spec/opcode_table.json). -/
theorem encode_matches_row (i : Instr) : encode i &&& (opcodeOf i).row.2 = (opcodeOf i).row.1 := by
  rw [row_opcodeOf]
  cases i with
  | openBank b => exact Laws.EncodeMatchesTable.openBank b
  | closeBank b => exact Laws.EncodeMatchesTable.closeBank b
  | setdir b k m => exact Laws.EncodeMatchesTable.setdir b k m
  | wrbit b k x => exact Laws.EncodeMatchesTable.wrbit b k x
  | rdbit b k => exact Laws.EncodeMatchesTable.rdbit b k
  | pmode p m => exact Laws.EncodeMatchesTable.pmode p m
  | pwrite p y => exact Laws.EncodeMatchesTable.pwrite p y
  | pread p => exact Laws.EncodeMatchesTable.pread p
  | shiftout dp cp o x => exact Laws.EncodeMatchesTable.shiftout dp cp o x
  | lnew => exact Laws.EncodeMatchesTable.lnew
  | lenable => exact Laws.EncodeMatchesTable.lenable
  | ldisable => exact Laws.EncodeMatchesTable.ldisable
  | lset a b c d e => exact Laws.EncodeMatchesTable.lset a b c d e
  | exit => exact Laws.EncodeMatchesTable.exit

/-- A field of one bit that holds `x`. -/
theorem bit_of_field {w : CmdWord} {lo : Nat} {x : Bool} (h : w.extractLsb' lo 1 = BitVec.ofBool x) :
    w.getLsbD lo = x :=
  BitVec.ofBool_eq_iff_eq.mp ((extract_bit w lo).symm.trans h)

/-- Format B (30 R93): a bank. -/
theorem fields_of_bank {w : CmdWord} {x : BitVec 62} {b : BankField} (hw : x ++ b = w) :
    w.extractLsb' 0 2 = b := by
  subst hw
  exact BitVec.extractLsb'_append_eq_right

/-- Format BB (30 R94): a bank, a bit index and an argument bit. -/
theorem fields_of_bank_bit {w : CmdWord} {z : BitVec 56} {x : Bool} {k : BitIx} {b : BankField}
    (hw : z ++ BitVec.ofBool x ++ k ++ b = w) :
    w.extractLsb' 0 2 = b ∧ w.extractLsb' 2 5 = k ∧ w.getLsbD 7 = x := by
  refine ⟨fields_of_bank hw, ?_, bit_of_field ?_⟩ <;> subst hw
  · rw [extract_high _ _ (by decide), BitVec.extractLsb'_append_eq_right]
  · rw [extract_high _ _ (by decide), extract_high _ _ (by decide), BitVec.extractLsb'_append_eq_right]

/-- Format P (30 R95): a pin and an argument bit. -/
theorem fields_of_pin {w : CmdWord} {z : BitVec 55} {x : Bool} {p : PinOp}
    (hw : z ++ BitVec.ofBool x ++ p.toByte = w) : PinOp.ofByte (byteAt w 0) = p ∧ w.getLsbD 8 = x := by
  refine ⟨?_, bit_of_field ?_⟩ <;> subst hw
  · rw [byteAt, BitVec.extractLsb'_append_eq_right, pinOp_ofByte_toByte]
  · rw [extract_high _ _ (by decide), BitVec.extractLsb'_append_eq_right]

/-- Format S (30 R96): two pins, a bit order and a byte. -/
theorem fields_of_shift {w : CmdWord} {z : BitVec 32} {x : Byte} {r : BitVec 7} {o : Bool} {cp dp : PinOp}
    (hw : z ++ x ++ r ++ BitVec.ofBool o ++ cp.toByte ++ dp.toByte = w) :
    PinOp.ofByte (byteAt w 0) = dp ∧ PinOp.ofByte (byteAt w 8) = cp ∧ w.getLsbD 16 = o ∧ byteAt w 24 = x := by
  refine ⟨?_, ?_, bit_of_field ?_, ?_⟩ <;> subst hw
  · rw [byteAt, BitVec.extractLsb'_append_eq_right, pinOp_ofByte_toByte]
  · rw [byteAt, extract_high _ _ (by decide), BitVec.extractLsb'_append_eq_right, pinOp_ofByte_toByte]
  · rw [extract_high _ _ (by decide), extract_high _ _ (by decide), BitVec.extractLsb'_append_eq_right]
  · rw [byteAt, extract_high _ _ (by decide), extract_high _ _ (by decide), extract_high _ _ (by decide),
      extract_high _ _ (by decide), BitVec.extractLsb'_append_eq_right]

/-- Format D (30 R97): five bytes. -/
theorem fields_of_bytes {w : CmdWord} {z : BitVec 24} {a b c d e : Byte} (hw : z ++ e ++ d ++ c ++ b ++ a = w) :
    byteAt w 0 = a ∧ byteAt w 8 = b ∧ byteAt w 16 = c ∧ byteAt w 24 = d ∧ byteAt w 32 = e := by
  refine ⟨?_, ?_, ?_, ?_, ?_⟩ <;> subst hw <;> rw [byteAt]
  · rw [BitVec.extractLsb'_append_eq_right]
  · rw [extract_high _ _ (by decide), BitVec.extractLsb'_append_eq_right]
  · rw [extract_high _ _ (by decide), extract_high _ _ (by decide), BitVec.extractLsb'_append_eq_right]
  · rw [extract_high _ _ (by decide), extract_high _ _ (by decide), extract_high _ _ (by decide),
      BitVec.extractLsb'_append_eq_right]
  · rw [extract_high _ _ (by decide), extract_high _ _ (by decide), extract_high _ _ (by decide),
      extract_high _ _ (by decide), BitVec.extractLsb'_append_eq_right]

/-- Every operand is read back from the place the encoder put it (30 R92 to R98). -/
theorem operands_encode (i : Instr) : (opcodeOf i).operands (encode i) = i := by
  cases i with
  | openBank b => exact congrArg Instr.openBank (fields_of_bank rfl)
  | closeBank b => exact congrArg Instr.closeBank (fields_of_bank rfl)
  | setdir b k m =>
    obtain ⟨hb, hk, hm⟩ := fields_of_bank_bit (w := encode (.setdir b k m)) rfl
    simp only [opcodeOf, Opcode.operands, hb, hk, hm, mode_ofBit_toBit]
  | wrbit b k x =>
    obtain ⟨hb, hk, hx⟩ := fields_of_bank_bit (w := encode (.wrbit b k x)) rfl
    simp only [opcodeOf, Opcode.operands, hb, hk, hx]
  | rdbit b k =>
    obtain ⟨hb, hk, -⟩ := fields_of_bank_bit (w := encode (.rdbit b k)) (x := false) rfl
    simp only [opcodeOf, Opcode.operands, hb, hk]
  | pmode p m =>
    obtain ⟨hp, hm⟩ := fields_of_pin (w := encode (.pmode p m)) rfl
    simp only [opcodeOf, Opcode.operands, hp, hm, mode_ofBit_toBit]
  | pwrite p y =>
    obtain ⟨hp, hy⟩ := fields_of_pin (w := encode (.pwrite p y)) rfl
    simp only [opcodeOf, Opcode.operands, hp, hy]
  | pread p =>
    obtain ⟨hp, -⟩ := fields_of_pin (w := encode (.pread p)) (x := false) rfl
    simp only [opcodeOf, Opcode.operands, hp]
  | shiftout dp cp o x =>
    obtain ⟨hd, hc, ho, hx⟩ := fields_of_shift (w := encode (.shiftout dp cp o x)) rfl
    simp only [opcodeOf, Opcode.operands, hd, hc, ho, hx, order_ofBit_toBit]
  | lset a b c d e =>
    obtain ⟨ha, hb, hc, hd, he⟩ := fields_of_bytes (w := encode (.lset a b c d e)) rfl
    simp only [opcodeOf, Opcode.operands, ha, hb, hc, hd, he]
  | lnew | lenable | ldisable | exit => rfl

/-- Settles O1: a command's word has its opcode and 0 in the reserved bits, and holds its operands, whose bank
fields name banks. -/
theorem encodedCommandDecodesToItself : Obligations.EncodedCommandDecodesToItself := by
  intro i hwf
  obtain ⟨hc, hm⟩ := (matches_row_iff _ _).mp (encode_matches_row i)
  have hb := wf_operands (opcodeOf i) (encode i)
  rw [operands_encode, hwf, eq_comm, Bool.not_eq_true'] at hb
  rw [decode_of_fields hc hm hb, operands_encode]

end Sys2Proof
end

section
/-! SUPPORT. What a step does with the host's next word, by what the word decodes to (30 R108); and the settled
statements about the words of a stream. -/

namespace Sys2Proof.Machine

open Spec

/-! ### A step by what its word decodes to -/

section
variable {s : State} {w : CmdWord} {rest : List CmdWord}

theorem step_of_cmd {i : Instr} (hc : s.commands = w :: rest) (hd : decode w = .cmd i) :
    step s = exec i { s with commands := rest } := by
  simp only [step, takeWord, hc, hd]

theorem step_of_illegal (hr : s.Ready) (hc : s.commands = w :: rest) (hd : decode w = .illegal) :
    step s = .next (raise w .illegalCommand none { s with commands := rest }) := by
  simp only [step, takeWord, hc, hd, rejectIllegal]
  exact command_ready ⟨hr.legal, hr.running⟩ _

theorem step_of_badBank (hr : s.Ready) (hc : s.commands = w :: rest) (hd : decode w = .badBank) :
    step s = .next (raise w .badBank none { s with commands := rest }) := by
  simp only [step, takeWord, hc, hd, rejectBadBank]
  exact command_ready ⟨hr.legal, hr.running⟩ _

theorem step_of_no_word (hr : s.Ready) (hc : s.commands = []) : step s = .next s := by
  simp only [step, takeWord, hc, waitForHost]
  exact command_ready hr s

end

/-- A whole word is placed as it is (log 7). -/
theorem tableWord_toNat (w : CmdWord) : tableWord 64 w.toNat = w := by
  rw [tableWord, Nat.mod_eq_of_lt w.isLt, BitVec.ofNat_toNat, BitVec.setWidth_eq]

/-- Settles O7: a step by its word, and a placed word as the next one. -/
theorem stepRunsTheDecodedCommand : Obligations.StepRunsTheDecodedCommand := by
  refine ⟨fun s w rest i hc hd => step_of_cmd hc hd, fun s w i hd => ?_, fun s hr hc => step_of_no_word hr hc⟩
  rw [State.withFetchWord, tableWord_toNat]
  exact step_of_cmd (placeWord_commands w s) hd

/-! ### Reserved encodings -/

/-- No listed opcode has a reserved code (30 R99, R100). -/
theorem not_reservedOpcode_code (op : Opcode) : ¬ reservedOpcode op.code.toNat := by
  cases op <;> simp [reservedOpcode, Opcode.code]

/-- The ranges of bits a format must keep 0 are the 1 bits of its opcode's mask (30 R92 to R97). -/
theorem reservedBits_mask (op : Opcode) : ∀ n : Fin 64, op.reservedMask.getLsbD n.val = true ↔
    ∃ row ∈ reservedBits, op.code.toNat = row.1 ∧ ∃ r ∈ row.2, r.2 ≤ n.val ∧ n.val ≤ r.1 := by
  cases op <;> decide

/-- A word with a listed opcode has a reserved bit set when its opcode's mask meets it (30 R101). -/
theorem reservedBitSet_iff {w : CmdWord} {op : Opcode} (hc : byteAt w 56 = op.code) :
    reservedBitSet w ↔ w &&& op.reservedMask ≠ 0 := by
  constructor
  · rintro ⟨row, hrow, hop, r, hr, n, hlo, hhi, hn⟩ hm
    have hlt : n < 64 := BitVec.lt_of_getLsbD hn
    have hmask : op.reservedMask.getLsbD n = true :=
      (reservedBits_mask op ⟨n, hlt⟩).mpr ⟨row, hrow, hc ▸ hop, r, hr, hlo, hhi⟩
    rw [bit_of_mask_zero hm hmask] at hn
    cases hn
  · intro hm
    obtain ⟨n, hn⟩ : ∃ n, (w &&& op.reservedMask).getLsbD n = true := by
      by_contra hnone
      exact hm (BitVec.eq_of_getLsbD_eq fun n _ => by simpa using fun h => hnone ⟨n, h⟩)
    rw [BitVec.getLsbD_and, Bool.and_eq_true] at hn
    obtain ⟨row, hrow, hop, r, hr, hlo, hhi⟩ :=
      (reservedBits_mask op ⟨n, BitVec.lt_of_getLsbD hn.1⟩).mp hn.2
    exact ⟨row, hrow, hc ▸ hop, r, hr, n, hlo, hhi, hn.1⟩

/-- Settles O5: no row has a reserved opcode, and a reserved bit set meets the mask, so the word is illegal. -/
theorem reservedEncodingsRaiseIllegalCommand : Obligations.ReservedEncodingsRaiseIllegalCommand := by
  intro s w rest hr hc hw
  refine step_of_illegal hr hc (decode_illegal_iff.mpr fun op hop => ?_)
  rcases hw with hcode | hbit
  · exact absurd (hop ▸ hcode) (not_reservedOpcode_code op)
  · exact (reservedBitSet_iff hop).mp hbit

/-! ### Bank fields of 3 -/

theorem field_three {w : CmdWord} {lo : Nat} (h0 : w.getLsbD lo = true) (h1 : w.getLsbD (lo + 1) = true) :
    w.extractLsb' lo 2 = 3#2 := by
  ext j hj
  obtain rfl | rfl : j = 0 ∨ j = 1 := by omega
  · simp [h0]
  · simp [h1]

/-- The opcodes 1 to 9 are the commands with a bank field at bit 0 (30 R99, R103). -/
theorem opcode_with_low_bank {n : Nat} (hlo : 1 ≤ n) (hhi : n ≤ 9) :
    ∃ op : Opcode, op.code.toNat = n ∧ ∀ w, w.extractLsb' 0 2 ∈ op.bankFields w := by
  interval_cases n
  exacts [⟨.openBank, rfl, fun _ => .head _⟩, ⟨.closeBank, rfl, fun _ => .head _⟩, ⟨.setdir, rfl, fun _ => .head _⟩,
    ⟨.wrbit, rfl, fun _ => .head _⟩, ⟨.rdbit, rfl, fun _ => .head _⟩, ⟨.pmode, rfl, fun _ => .head _⟩,
    ⟨.pwrite, rfl, fun _ => .head _⟩, ⟨.pread, rfl, fun _ => .head _⟩, ⟨.shiftout, rfl, fun _ => .head _⟩]

/-- A word of a legal shape with a bank field of 3 decodes to BAD_BANK (30 R103). -/
theorem decode_of_legalShape {w : CmdWord} {op : Opcode} (h : legalShape w op.code.toNat)
    (hb : 3#2 ∈ op.bankFields w) : decode w = .badBank := by
  obtain ⟨hcode, hbits⟩ := h
  have hc : byteAt w 56 = op.code := BitVec.eq_of_toNat_eq hcode
  exact decode_of_bank_three hc (not_not.mp fun hm => hbits ((reservedBitSet_iff hc).mpr hm)) hb

/-- Settles O6: the word's bank field at bit 0, or SHIFTOUT's at bit 8, is 3. -/
theorem bankFieldThreeRaisesBadBank : Obligations.BankFieldThreeRaisesBadBank := by
  intro s w rest n hr hc hshape hfield
  refine step_of_badBank hr hc ?_
  rcases hfield with ⟨hlo, hhi, h0, h1⟩ | ⟨rfl, h8, h9⟩
  · obtain ⟨op, rfl, hmem⟩ := opcode_with_low_bank hlo hhi
    exact decode_of_legalShape hshape (field_three h0 h1 ▸ hmem w)
  · have hmem : 3#2 ∈ Opcode.shiftout.bankFields w := by
      simp only [Opcode.bankFields, field_three h8 h9]
      exact .tail _ (.head _)
    exact decode_of_legalShape (op := .shiftout) hshape hmem

end Sys2Proof.Machine
end

section
/-! SUPPORT. When a command completes (60 R203, R207): each check and each setup of a command lets the run go on under
its own condition, and the conditions of a command together are those of `admitted`; and the settled statement. -/

namespace Sys2Proof.Machine

open Spec

/-! ### When a check or a setup lets the run go on -/

section
variable {w : CmdWord} {s : State}

theorem raise_not_running {c : FaultCode} {info : Option BankId} : (raise w c info s).phase ≠ .running := by
  rw [raise_phase]; nofun

theorem needOpen_running {b : BankId} {t : State} :
    (needOpen w b s t).phase = .running ↔ bankOpen s b = true ∧ t.phase = .running := by
  unfold needOpen
  split
  case isTrue ho => simp only [ho, true_and]
  case isFalse ho => simp only [ho, Bool.false_eq_true, false_and, raise_not_running]

theorem needDriver_running {t : State} :
    (needDriver w s t).phase = .running ↔ s.drv = .constructed ∧ t.phase = .running := by
  unfold needDriver
  split
  case isTrue hd => simp only [hd, true_and]
  case isFalse hd => simp only [hd, false_and, raise_not_running]

theorem withBank_running {f : BankField} {next : BankId → State} :
    (withBank w f s next).phase = .running ↔ ∃ b, bankOfField f = some b ∧ (next b).phase = .running := by
  unfold withBank
  cases hb : bankOfField f <;> simp

theorem withPin_running {p : PinOp} {next : Pin → State} :
    (withPin w p s next).phase = .running ↔
      ∃ b, bankOfField p.bank = some b ∧ (next ⟨b, p.bit, p.inv⟩).phase = .running := by
  unfold withPin pinOfOp
  cases hb : bankOfField p.bank <;> simp

theorem bankAcquire_running {b : BankId} {next : State → State} :
    (bankAcquire w b s next).phase = .running ↔
      (drawSetup s).1 = .ok ∧ (next (acquiredState b (drawSetup s).2)).phase = .running := by
  unfold bankAcquire
  cases ho : (drawSetup s).1 <;> simp [ho, acquiredState]

theorem firstOpenHandle_eq_none_iff : firstOpenHandle s = none ↔ ∀ b, s.fd.get b = false := by
  refine ⟨firstOpenHandle_none, fun h => ?_⟩
  simp [firstOpenHandle, h]

end

theorem drawSetup_outcome {s : State} {o : SetupOutcome} {rest : List SetupOutcome}
    (h : s.env.setupDraws = o :: rest) : (drawSetup s).1 = o := by
  rw [drawSetup_listed h]

/-- The listed setups stay as they are when a bank is acquired, but for the one drawn (log 5). -/
theorem acquiredState_setupDraws (b : BankId) {s : State} {o : SetupOutcome} {rest : List SetupOutcome}
    (h : s.env.setupDraws = o :: rest) : (acquiredState b (drawSetup s).2).env.setupDraws = rest := by
  rw [drawSetup_listed h, acquiredState, emit, record_env, gap_setupDraws]

/-! ### Accesses do not end the run -/

@[simp] theorem bankSetDir_phase (b : BankId) (k : BitVec 5) (m : Mode) (s : State) :
    (bankSetDir b k m s).phase = s.phase :=
  (bankSetDir_accessOn (P := fun _ => True) (R := fun _ => True) trivial trivial k m s).control.phase

@[simp] theorem bankWriteBit_phase (b : BankId) (k : BitVec 5) (x : Level) (s : State) :
    (bankWriteBit b k x s).phase = s.phase :=
  (bankWriteBit_accessOn (P := fun _ => True) (R := fun _ => True) trivial trivial k x s).control.phase

@[simp] theorem bankReadBit_phase (b : BankId) (k : BitVec 5) (s : State) : (bankReadBit b k s).2.phase = s.phase :=
  (bankReadBit_accessOn b k s).control.phase

@[simp] theorem pinSetMode_phase (s : State) (p : Pin) (m : Mode) : (pinSetMode s p m).phase = s.phase :=
  bankSetDir_phase p.bank p.bit m s

@[simp] theorem pinWrite_phase (p : Pin) (y : Level) (s : State) : (pinWrite p y s).phase = s.phase :=
  bankWriteBit_phase p.bank p.bit _ s

@[simp] theorem pinRead_phase (p : Pin) (s : State) : (pinRead p s).2.phase = s.phase :=
  bankReadBit_phase p.bank p.bit s

@[simp] theorem driveOE_phase (x : Level) (s : State) : (driveOE x s).phase = s.phase := pinWrite_phase _ _ s

@[simp] theorem pinWrites_phase (ws : List (Pin × Level)) (s : State) : (pinWrites ws s).phase = s.phase :=
  (pinWrites_accessOn (P := fun _ => True) (R := fun _ => True) ws trivial (fun _ _ => trivial) s).control.phase

@[simp] theorem shiftOut_phase (dp cp : Pin) (o : BitOrder) (x : Byte) (s : State) :
    (shiftOut dp cp o x s).phase = s.phase :=
  pinWrites_phase _ s

@[simp] theorem setOutputs_phase (ps : List Pin) (s : State) : (setOutputs ps s).phase = s.phase :=
  (setOutputs_accessOn (P := fun _ => True) (R := fun _ => True) ps trivial (fun _ _ => trivial) s).control.phase

@[simp] theorem constructDriver_phase (s : State) : (constructDriver s).phase = s.phase := by
  simp [constructDriver]

@[simp] theorem acquiredState_phase (b : BankId) (s : State) : (acquiredState b s).phase = s.phase := by
  simp [acquiredState]

/-! ### When a command lets the run go on -/

section
variable {w : CmdWord} {s : State} (hs : s.phase = .running)
include hs

/-- A command of one bank, or of one pin, needs the bank to be open (60 R203). -/
theorem bankCommand_running {f : BankField} {after : BankId → State} (ha : ∀ b, (after b).phase = s.phase) :
    (withBank w f s fun b => needOpen w b s (after b)).phase = .running ↔
      ∃ b, bankOfField f = some b ∧ bankOpen s b = true := by
  simp only [withBank_running, needOpen_running, ha, hs, and_true]

theorem pinCommand_running {p : PinOp} {after : Pin → State} (ha : ∀ q, (after q).phase = s.phase) :
    (withPin w p s fun q => needOpen w q.bank s (after q)).phase = .running ↔
      ∃ b, bankOfField p.bank = some b ∧ bankOpen s b = true := by
  simp only [withPin_running, needOpen_running, ha, hs, and_true]

end

/-- The setups a command draws when all of them succeed (40 R125, 43 R163). -/
def setupsDrawn : Instr → Nat
  | .openBank _ => 1
  | .lnew => 3
  | .closeBank _ | .setdir _ _ _ | .wrbit _ _ _ | .rdbit _ _ | .pmode _ _ | .pwrite _ _ | .pread _
  | .shiftout _ _ _ _ | .lenable | .ldisable | .lset _ _ _ _ _ | .exit => 0

theorem setupsDrawn_le_three (i : Instr) : setupsDrawn i ≤ 3 := by cases i <;> simp [setupsDrawn]

theorem setupsDrawn_of_admitted {s : State} {i : Instr} (h : admitted s i) :
    setupsDrawn i ≤ s.env.setupDraws.length := by
  cases i with
  | openBank f =>
    obtain ⟨b, rest, -, -, hdraws⟩ := h
    simp [setupsDrawn, hdraws]
  | lnew =>
    obtain ⟨-, -, rest, hdraws⟩ := h
    simp [setupsDrawn, hdraws]
  | _ => exact Nat.zero_le _

theorem openBank_running {s t : State} {f : BankField} (h : exec (.openBank f) s = .next t)
    (hn : setupsDrawn (.openBank f) ≤ s.env.setupDraws.length) :
    t.phase = .running ↔ admitted s (.openBank f) := by
  obtain ⟨hr, rfl⟩ := command_next h
  obtain ⟨o, rest, hdraws⟩ := List.exists_cons_of_length_pos hn
  rw [withBank_running]
  refine exists_congr fun b => ?_
  cases hc : s.fd.get b <;> simp [bankAcquire_running, drawSetup_outcome hdraws, hdraws, hr.running]

theorem lnew_running {s t : State} (h : exec .lnew s = .next t)
    (hn : setupsDrawn .lnew ≤ s.env.setupDraws.length) : t.phase = .running ↔ admitted s .lnew := by
  obtain ⟨hr, rfl⟩ := command_next h
  obtain ⟨o₁, o₂, o₃, rest, hdraws⟩ : ∃ o₁ o₂ o₃ rest, s.env.setupDraws = o₁ :: o₂ :: o₃ :: rest := by
    match hl : s.env.setupDraws with
    | o₁ :: o₂ :: o₃ :: rest => exact ⟨o₁, o₂, o₃, rest, rfl⟩
    | [] | [_] | [_, _] => simp [hl, setupsDrawn] at hn
  rw [admitted, ← firstOpenHandle_eq_none_iff]
  cases hd : s.drv <;> cases hf : firstOpenHandle s
  case unconstructed.none =>
    have hdraws₂ := acquiredState_setupDraws .b0 hdraws
    have hdraws₃ := acquiredState_setupDraws .b1 hdraws₂
    simp [bankAcquire_running, drawSetup_outcome hdraws, drawSetup_outcome hdraws₂, drawSetup_outcome hdraws₃,
      hdraws, hr.running]
  all_goals simp

/-- When enough setups are listed, a command other than EXIT leaves the block Running when it is admitted, and not
otherwise (60 R203, R207). -/
theorem exec_running_iff {i : Instr} {s t : State} (h : exec i s = .next t) (hi : i ≠ .exit)
    (hn : setupsDrawn i ≤ s.env.setupDraws.length) : t.phase = .running ↔ admitted s i := by
  cases i with
  | exit => exact absurd rfl hi
  | openBank f => exact openBank_running h hn
  | lnew => exact lnew_running h hn
  | closeBank | setdir | wrbit | rdbit =>
    obtain ⟨hr, rfl⟩ := command_next h
    exact bankCommand_running hr.running fun b => by simp
  | pmode | pwrite | pread =>
    obtain ⟨hr, rfl⟩ := command_next h
    exact pinCommand_running hr.running fun q => by simp
  | shiftout =>
    obtain ⟨hr, rfl⟩ := command_next h
    simp [withPin_running, needOpen_running, hr.running, admitted]
  | lenable | ldisable | lset =>
    obtain ⟨hr, rfl⟩ := command_next h
    simp [needDriver_running, needOpen_running, hr.running, admitted]

/-! ### What a completion keeps -/

theorem Completed.commands {i : Instr} {s t : State} (h : Completed i s t) : t.commands = s.commands := by
  cases h with
  | opened f b hi hb hc hu => exact hu.quiet.commands
  | closed f b hi hb ho => exact (bankRelease_quiet b s).commands
  | accessed hk ho hu => exact hu.control.commands
  | returned x hr ho hu => exact (returnLevel_control x _).commands.trans hu.control.commands
  | constructed hi hd hc hu hv => exact hv.control.commands.trans hu.quiet.commands
  | exited hi => exact (endRun_quiet .exit s).commands

/-- Only EXIT completes to an ended block (44 R191). -/
theorem Completed.phase {i : Instr} {s t : State} (h : Completed i s t) (hi : i ≠ .exit) : t.phase = s.phase := by
  cases h with
  | opened f b hi' hb hc hu => exact hu.phase
  | closed f b hi' hb ho => exact bankRelease_phase b s
  | accessed hk ho hu => exact hu.control.phase
  | returned x hr ho hu => exact (returnLevel_phase x _).trans hu.control.phase
  | constructed hi' hd hc hu hv => exact hv.control.phase.trans hu.phase
  | exited hi' => exact absurd hi' hi

/-- EXIT of a Ready block completes: no check of it can fail (44 R190). -/
theorem exec_exit {s : State} (hr : s.Ready) :
    ∃ t, exec .exit s = .next t ∧ Completed .exit s t ∧ t.phase = .exited :=
  ⟨_, command_ready hr _, .exited rfl, rfl⟩

/-- A command of a Ready block that is admitted completes, to a Running block unless it is EXIT. -/
theorem exec_of_admitted {s : State} {i : Instr} (hr : s.Ready) (ha : admitted s i) :
    ∃ t, exec i s = .next t ∧ Completed i s t ∧ t.phase = (if i = .exit then .exited else .running) := by
  by_cases hi : i = .exit
  · subst hi
    exact exec_exit hr
  obtain ⟨t, hexec⟩ := exec_is_command i s
  rw [command_ready hr] at hexec
  have hrun : t.phase = .running := (exec_running_iff hexec hi (setupsDrawn_of_admitted ha)).mpr ha
  obtain ⟨c, info, u, -, rfl⟩ | hc := (exec_next_result hexec).2.raised_or_completed
  · exact absurd hrun raise_not_running
  · exact ⟨t, hexec, hc, by rw [if_neg hi, hrun]⟩

/-- Settles O29: an admitted command completes, and a command that does not leave the block Running raised a fault. -/
theorem admittedCommandsComplete : Obligations.AdmittedCommandsComplete := by
  refine fun s i hr => ⟨fun ha => ?_, fun hlen hna => ?_⟩
  · obtain ⟨t, hexec, hc, hphase⟩ := exec_of_admitted hr ha
    obtain ⟨u, rfl, hcfg, hpc, -⟩ := hc.completes
    exact ⟨_, hexec, congrArg (· + 1) hpc, hcfg, hc.commands, hphase⟩
  · have hi : i ≠ .exit := by rintro rfl; exact hna trivial
    obtain ⟨t, hexec⟩ := exec_is_command i s
    rw [command_ready hr] at hexec
    have hstop : t.phase ≠ .running := fun hrun =>
      hna ((exec_running_iff hexec hi ((setupsDrawn_le_three i).trans hlen)).mp hrun)
    obtain ⟨c, info, u, -, rfl⟩ | hc := (exec_next_result hexec).2.raised_or_completed
    · exact ⟨_, _, hexec, raise_phase (encode i) c info u⟩
    · exact absurd ((hc.phase hi).trans hr.running) hstop

end Sys2Proof.Machine
end

section
/-! SUPPORT. Read/modify/write cycles of DIR and OUT (40 R122, R123, R130 to R132): the words they leave and the
events they make; and the settled statements about register accesses. -/

namespace Sys2Proof.Machine

/-! ### BankWriteBit -/

/-- The events of a bit write, whoever else writes: what the read returned, and that word with one bit replaced. -/
theorem bankWriteBit_trace_of_read (b : BankId) (k : BitVec 5) (x : Level) (s : State) :
    (bankWriteBit b k x s).trace =
      s.trace ++ [.rd b .out (vRead b .out s).1, .wr b .out (withBit (vRead b .out s).1 k x)] := by
  simp [bankWriteBit, vRead, vWrite, OutReg.toReg]

/-- A read of OUT when nobody else writes returns what OUT holds (20 R54). -/
theorem vRead_out_value {s : State} (hs : s.SoleWriter) (b : BankId) : (vRead b .out s).1 = s.out.get b := by
  simp [vRead, gap_of_sole hs]

/-- Settles O22: the write stores what the read returned with one bit replaced. -/
theorem writeBitReadsThenWritesWholeRegister : Obligations.WriteBitReadsThenWritesWholeRegister := by
  intro s b k x
  refine ⟨_, _, bankWriteBit_trace_of_read b k x s, ?_, getLsbD_withBit _ k x, fun hs => vRead_out_value hs b⟩
  rw [bankWriteBit_out_eq, perBank_get_set_self]

/-! ### BankSetDir as cycles of a read and a write -/

/-- One cycle of a read of DIR and a write of `v` to it, of which BankSetDir makes one or two (40 R122). -/
def dirCycle (b : BankId) (v : Word) (s : State) : State := vWrite b .dir v (vRead b .dir s).2

@[simp] theorem dirCycle_cfg (b : BankId) (v : Word) (s : State) : (dirCycle b v s).cfg = s.cfg := by
  simp [dirCycle, vRead, vWrite]

theorem dirCycle_soleWriter {s : State} (hs : s.SoleWriter) (b : BankId) (v : Word) : (dirCycle b v s).SoleWriter :=
  (soleWriter_of_cfg (dirCycle_cfg b v s)).mpr hs

theorem dirCycle_dir {s : State} (hs : s.SoleWriter) (b : BankId) (v : Word) :
    (dirCycle b v s).dir = s.dir.set b v := by
  have hread : State.SoleWriter (record (.rd b .dir (s.dir.get b)) s) := hs
  simp [dirCycle, vRead_dir_sole hs, vWrite_sole hread]

theorem dirCycle_trace {s : State} (hs : s.SoleWriter) (b : BankId) (v : Word) :
    (dirCycle b v s).trace = s.trace ++ [.rd b .dir (s.dir.get b), .wr b .dir v] := by
  simp [dirCycle, vRead_dir_sole hs, vWrite, OutReg.toReg]

/-- Without `DIR_TWO_PHASE` there is one cycle: clearing the bit before setting it makes no difference. -/
theorem bankSetDir_one_cycle {s : State} (hs : s.SoleWriter) (h : s.cfg.dirTwoPhase = false) (b : BankId)
    (k : BitVec 5) (m : Mode) : bankSetDir b k m s = dirCycle b (withBit (s.dir.get b) k m.toBit) s := by
  simp only [bankSetDir, h, Bool.false_eq_true, if_false, dirCycle, vRead_dir_sole hs]
  cases m with
  | input => rfl
  | output =>
    have hword : s.dir.get b &&& ~~~(mask k) ||| mask k = withBit (s.dir.get b) k Mode.output.toBit :=
      withBit_withBit (s.dir.get b) k false true
    simp only [hword]

/-- With `DIR_TWO_PHASE` there are two cycles, of which the first clears the bit. -/
theorem bankSetDir_two_cycles {s : State} (hs : s.SoleWriter) (h : s.cfg.dirTwoPhase = true) (b : BankId)
    (k : BitVec 5) (m : Mode) :
    bankSetDir b k m s =
      dirCycle b (withBit (s.dir.get b) k m.toBit) (dirCycle b (withBit (s.dir.get b) k false) s) := by
  have hmid := dirCycle_soleWriter hs b (withBit (s.dir.get b) k false)
  have hread : (vRead b .dir (dirCycle b (withBit (s.dir.get b) k false) s)).1 = withBit (s.dir.get b) k false := by
    rw [vRead_dir_sole hmid, dirCycle_dir hs, perBank_get_set_self]
  have hcycles : bankSetDir b k m s =
      dirCycle b (withBit (vRead b .dir (dirCycle b (withBit (s.dir.get b) k false) s)).1 k m.toBit)
        (dirCycle b (withBit (s.dir.get b) k false) s) := by
    simp only [bankSetDir, h, if_true, dirCycle, vRead_dir_sole hs]
  rw [hcycles, hread, withBit_withBit]

theorem bankSetDir_trace_one_cycle {s : State} (hs : s.SoleWriter) (h : s.cfg.dirTwoPhase = false) (b : BankId)
    (k : BitVec 5) (m : Mode) : (bankSetDir b k m s).trace =
      s.trace ++ [.rd b .dir (s.dir.get b), .wr b .dir (withBit (s.dir.get b) k m.toBit)] := by
  rw [bankSetDir_one_cycle hs h, dirCycle_trace hs]

theorem bankSetDir_trace_two_cycles {s : State} (hs : s.SoleWriter) (h : s.cfg.dirTwoPhase = true) (b : BankId)
    (k : BitVec 5) (m : Mode) :
    (bankSetDir b k m s).trace =
      s.trace ++ [.rd b .dir (s.dir.get b), .wr b .dir (withBit (s.dir.get b) k false),
        .rd b .dir (withBit (s.dir.get b) k false), .wr b .dir (withBit (s.dir.get b) k m.toBit)] := by
  have hmid := dirCycle_soleWriter hs b (withBit (s.dir.get b) k false)
  rw [bankSetDir_two_cycles hs h, dirCycle_trace hmid, dirCycle_trace hs, dirCycle_dir hs, perBank_get_set_self,
    List.append_assoc, List.cons_append, List.cons_append, List.nil_append]

theorem bankSetDir_control (b : BankId) (k : BitVec 5) (m : Mode) (s : State) : s.KeepsControl (bankSetDir b k m s) :=
  (bankSetDir_accessOn (P := fun _ => True) (R := fun _ => True) trivial trivial k m s).control

theorem bankSetDir_soleWriter {s : State} (hs : s.SoleWriter) (b : BankId) (k : BitVec 5) (m : Mode) :
    (bankSetDir b k m s).SoleWriter :=
  (soleWriter_of_cfg (bankSetDir_control b k m s).cfg).mpr hs

theorem bankSetDir_dirBit {s : State} (hs : s.SoleWriter) (b : BankId) (k : BitVec 5) (m : Mode) (b' : BankId)
    (j : Nat) :
    (bankSetDir b k m s).dirBit b' j = if b' = b ∧ j = k.toNat then m.toBit else s.dirBit b' j := by
  rw [State.dirBit, bankSetDir_dir hs, dirBit_set]

/-- Output is the mode encoded 1 (30 R98). -/
theorem toBit_eq_decide (m : Mode) : m.toBit = decide (m = .output) := by cases m <;> rfl

/-- Settles O23: one cycle or two, and the first of two clears the bit. -/
theorem setDirectionAccesses : Obligations.SetDirectionAccesses := by
  intro s b k m hs
  refine ⟨_, fun j => ?_, bankSetDir_dir hs b k m, fun h => bankSetDir_trace_one_cycle hs h b k m,
    fun h => ⟨_, getLsbD_withBit _ k false, bankSetDir_trace_two_cycles hs h b k m⟩⟩
  rw [getLsbD_withBit, toBit_eq_decide, State.dirBit]

/-- Replacing a bit forgets what it was: words that agree elsewhere become equal. -/
theorem withBit_eq_of_agree {v v' : Word} {k : BitVec 5} (x : Bool)
    (h : ∀ j, j ≠ k.toNat → v.getLsbD j = v'.getLsbD j) : withBit v k x = withBit v' k x := by
  apply BitVec.eq_of_getLsbD_eq
  intro j _
  rw [getLsbD_withBit, getLsbD_withBit]
  split
  case isTrue => rfl
  case isFalse hj => exact h j hj

/-- BankSetDir twice on one bit leaves the DIR of the second (40 R130). -/
theorem bankSetDir_bankSetDir_dir {s : State} (hs : s.SoleWriter) (b : BankId) (k : BitVec 5) (m m' : Mode) :
    (bankSetDir b k m' (bankSetDir b k m s)).dir = (bankSetDir b k m' s).dir := by
  rw [bankSetDir_dir (bankSetDir_soleWriter hs b k m), bankSetDir_dir hs, bankSetDir_dir hs, perBank_set_set,
    perBank_get_set_self, withBit_withBit]

/-- Settles O24: the last mode alone decides the bit, and Output is the OR with the mask. -/
theorem setDirectionIsIdempotentAndRoundTrips : Obligations.SetDirectionIsIdempotentAndRoundTrips := by
  intro s s' b k m hs hs'
  refine ⟨bankSetDir_bankSetDir_dir hs b k m m, fun hagree => ?_, ?_⟩
  · rw [bankSetDir_dir hs, bankSetDir_dir hs', perBank_get_set_self, perBank_get_set_self]
    exact withBit_eq_of_agree m.toBit hagree
  · rw [bankSetDir_bankSetDir_dir hs, bankSetDir_dir hs]
    rfl

/-! ### Isolation -/

/-- The formula of 40 R132 for a bit write. -/
theorem withBit_eq_formula (v : Word) (k : BitVec 5) (x : Bool) :
    withBit v k x = (v &&& ~~~(mask k)) ||| ((BitVec.ofBool x).setWidth 32 <<< k.toNat) := by
  cases x with
  | false => simp [withBit]
  | true => exact (withBit_withBit v k false true).symm

theorem accessedBanks_subset_namedBanks (c : Config) (i : Instr) : accessedBanks c i ⊆ Spec.namedBanks c i := by
  cases i with
  | openBank | closeBank | exit => exact List.nil_subset _
  | _ => exact List.Subset.refl _

/-- With no other writer a completion keeps the registers of a bank its command does not access. -/
theorem Completed.other_bank {i : Instr} {s t : State} (h : Completed i s t) (hs : s.SoleWriter) {b : BankId}
    (hb : b ∉ accessedBanks s.cfg i) : t.dir.get b = s.dir.get b ∧ t.out.get b = s.out.get b := by
  have hwrites_none : ¬ writtenKind i .dir → ¬ writtenKind i .out →
      t.dir.get b = s.dir.get b ∧ t.out.get b = s.out.get b := fun hdir hout => by
    rw [(h.registers hs).1 hdir, (h.registers hs).2 hout]
    exact ⟨rfl, rfl⟩
  cases h with
  | opened f b' hi hf hc hu => subst hi; exact hwrites_none id id
  | closed f b' hi hf ho => subst hi; exact hwrites_none id id
  | accessed hk ho hu => exact hu.other_bank hs hb
  | returned x hr ho hu => obtain ⟨f, k, rfl⟩ | ⟨p, rfl⟩ := hr <;> exact hwrites_none id id
  | constructed hi hd hc hu hv =>
    have hkept := hu.quiet.registers hs
    obtain ⟨hdir, hout⟩ := hv.other_bank ((soleWriter_of_cfg hu.quiet.cfg).mpr hs) hb
    exact ⟨hdir.trans (congrArg (·.get b) hkept.dir), hout.trans (congrArg (·.get b) hkept.out)⟩
  | exited hi => subst hi; exact hwrites_none id id

/-- Settles O25: the words left by one bit's writes; a fault keeps all registers, a completion those of other banks. -/
theorem bitWritesAreIsolated : Obligations.BitWritesAreIsolated := by
  refine ⟨fun s b k x m hs => ⟨?_, fun j hj => ?_⟩, fun s t i hs hexec b hb => ?_⟩
  · rw [bankWriteBit_out hs, perBank_get_set_self, withBit_eq_formula]
  · rw [bankSetDir_dirBit hs, if_neg fun h => hj h.2]
  · obtain ⟨c, info, u, hu, rfl⟩ | hc := (exec_next_result hexec).2.raised_or_completed
    · have hkept := (hu.trans (raise_quiet (encode i) c info u)).registers hs
      exact ⟨by rw [hkept.dir], by rw [hkept.out]⟩
    · exact hc.other_bank hs fun hmem => hb (accessedBanks_subset_namedBanks s.cfg i hmem)

end Sys2Proof.Machine
end

section
/-! SUPPORT. OPEN, CLOSE and the checks of the opening commands (40 R120, R121, R125, R126, 43 R163); and the settled
statements about them. -/

namespace Sys2Proof.Machine

/-! ### What the end of a command keeps -/

theorem State.KeepsRegisters.complete {s t : State} (h : s.KeepsRegisters t) : s.KeepsRegisters (complete t) :=
  ⟨h.dir, h.out, h.sr, h.latch⟩

theorem State.KeepsControl.complete {s t : State} (h : s.KeepsControl t) : s.KeepsControl (complete t) :=
  ⟨h.cfg, h.fd, h.map, h.drv, h.phase, h.commands⟩

/-! ### The checks of the opening commands -/

theorem withBank_of_some {w : CmdWord} {f : BankField} {b : BankId} (hf : bankOfField f = some b) (s : State)
    (next : BankId → State) : withBank w f s next = next b := by
  simp [withBank, hf]

/-- LNEW's check names the lowest bank whose handle is open (43 R163). -/
theorem firstOpenHandle_eq_some {s : State} {b : BankId} (ho : s.fd.get b = true)
    (hlow : ∀ b', fieldOfBank b' < fieldOfBank b → s.fd.get b' = false) : firstOpenHandle s = some b := by
  cases b with
  | b0 => simp [firstOpenHandle, banks, ho]
  | b1 => simp [firstOpenHandle, banks, ho, hlow .b0 (by decide)]
  | b2 => simp [firstOpenHandle, banks, ho, hlow .b0 (by decide), hlow .b1 (by decide)]

/-- Settles O17: each check as its command makes it. -/
theorem openingCommandsNeedClosedBanks : Obligations.OpeningCommandsNeedClosedBanks := by
  intro s b f hr hf
  refine ⟨fun ho => (command_ready hr _).trans ?_, fun hd => (command_ready hr _).trans ?_,
    fun hd ho hlow => (command_ready hr _).trans ?_⟩
  · rw [withBank_of_some hf, if_pos ho]
  · rw [if_pos hd]
  · simp [hd, firstOpenHandle_eq_some ho hlow]

/-! ### OPEN -/

/-- OPEN of a closed bank acquires it (40 R125). -/
theorem exec_open_of_closed {s : State} {f : BankField} {b : BankId} (hr : s.Ready) (hf : bankOfField f = some b)
    (hc : s.fd.get b = false) :
    exec (.openBank f) s = .next (bankAcquire (encode (.openBank f)) b s complete) := by
  refine (command_ready hr _).trans ?_
  simp [withBank_of_some hf, hc]

theorem bankAcquire_of_ok {s : State} (h : (drawSetup s).1 = .ok) (w : CmdWord) (b : BankId) (next : State → State) :
    bankAcquire w b s next = next (acquiredState b (drawSetup s).2) := by
  simp [bankAcquire, h, acquiredState]

/-- Settles O30: the state in which the bank is acquired, completed. -/
theorem openMapsTheBank : Obligations.OpenMapsTheBank := by
  intro s f b rest hr hf hc hdraws
  have hacq := acquiredState_acquired b s
  refine ⟨complete (acquiredState b (drawSetup s).2), ?_, by simp [acquiredState], by simp [acquiredState],
    hacq.trace, congrArg (· + 1) hacq.quiet.pc, hacq.quiet.res, hacq.drv, hacq.phase, hacq.quiet.cfg,
    hacq.quiet.commands, fun hs => (hacq.quiet.registers hs).complete⟩
  rw [exec_open_of_closed hr hf hc, bankAcquire_of_ok (drawSetup_outcome hdraws)]

/-- The fault code of a setup that did not succeed (60 R201, codes 1 and 2). -/
def setupFaultCode (o : SetupOutcome) : FaultCode := if o = .mapFailed then .mapFailed else .deviceOpenFailed

theorem setupFaultCode_is_mapFailed (o : SetupOutcome) : (setupFaultCode o == .mapFailed) = (o == .mapFailed) := by
  cases o <;> rfl

/-- A setup that fails raises the code of the outcome drawn (40 R120). -/
theorem bankAcquire_of_failed {s : State} {o : SetupOutcome} (h : (drawSetup s).1 = o) (hne : o ≠ .ok) (w : CmdWord)
    (b : BankId) (next : State → State) :
    ∃ u, SetupFailed b s (setupFaultCode o) u ∧ bankAcquire w b s next = raise w (setupFaultCode o) (some b) u := by
  cases o with
  | ok => exact absurd rfl hne
  | deviceOpenFailed => exact ⟨_, .device, by simp [bankAcquire, h, setupFaultCode]⟩
  | mapFailed => exact ⟨_, .mapping, by simp [bankAcquire, h, setupFaultCode]⟩

/-- Settles O31: the fault tears down the handles open before, and the failing bank's own after a failed mapping. -/
theorem openFailureReleasesEveryBank : Obligations.OpenFailureReleasesEveryBank := by
  intro s f b o rest hr hf hc hmapped hdraws hne
  obtain ⟨u, hfailed, hacquire⟩ :=
    bankAcquire_of_failed (drawSetup_outcome hdraws) hne (encode (.openBank f)) b complete
  obtain ⟨htrace, hmap, -, hfd, -⟩ := hfailed.fields
  have hmapped' : ∀ b', u.map.get b' = true → u.fd.get b' = true := fun b' hb' => by
    rw [hfd, hmapped b' (hmap ▸ hb'), Bool.true_or]
  refine ⟨_, (exec_open_of_closed hr hf hc).trans (congrArg _ hacquire), fun b' => ⟨?_, ?_⟩, ?_, ?_, ?_⟩
  · rw [raise_fd, perBank_get_const]
  · rw [raise_map, releaseAll_unmaps hmapped']
  · rw [raise_pc, hfailed.quiet.pc]
  · rw [raise_phase, hfailed.quiet.pc]
    rfl
  · rw [raise_trace, htrace]
    simp only [hfd, setupFaultCode_is_mapFailed]
    rfl

/-! ### CLOSE -/

/-- A command of one bank that is open has its effect (60 R203). -/
theorem bankCommand_of_open {w : CmdWord} {f : BankField} {s : State} {b : BankId} (hf : bankOfField f = some b)
    (ho : bankOpen s b = true) (after : BankId → State) :
    (withBank w f s fun b => needOpen w b s (after b)) = after b := by
  rw [withBank_of_some hf, needOpen, if_pos ho]

/-- Settles O32: BankRelease, completed. -/
theorem closeReleasesTheBank : Obligations.CloseReleasesTheBank := by
  intro s f b hr hf ho
  have hquiet := bankRelease_quiet b s
  refine ⟨complete (bankRelease b s), (command_ready hr _).trans ?_, bankRelease_fd b s, bankRelease_map b s,
    bankRelease_trace b s, congrArg (· + 1) hquiet.pc, hquiet.res, bankRelease_drv b s, bankRelease_phase b s,
    hquiet.cfg, hquiet.commands, fun hs => (hquiet.registers hs).complete⟩
  rw [bankCommand_of_open hf ho]

end Sys2Proof.Machine
end

section
/-! SUPPORT. One bit of DIR or OUT written by a command (40 R127, R128, 41 R143, R144), and the chain's inputs, on which
ChainUpdate depends (20 R73); and the settled statements about these commands. -/

namespace Sys2Proof.Machine

open Spec

/-! ### The inputs of the chain -/

/-- Two readings of the lines agree on the inputs of the chain, DATA, CLK and LE (20 R73). -/
structure SameInputs (a b : Lines) : Prop where
  data : a.data = b.data
  clk : a.clk = b.clk
  le : a.le = b.le

theorem SameInputs.refl (a : Lines) : SameInputs a a := ⟨rfl, rfl, rfl⟩

/-- ChainUpdate reads the inputs of the chain only. -/
theorem chainUpdate_of_sameInputs {a a' b b' : Lines} (ha : SameInputs a a') (hb : SameInputs b b') (s : State) :
    chainUpdate a b s = chainUpdate a' b' s := by
  obtain ⟨data, clk, le, oe⟩ := a
  obtain ⟨data', clk', le', oe'⟩ := b
  obtain ⟨rfl, rfl, rfl⟩ := ha
  obtain ⟨rfl, rfl, rfl⟩ := hb
  rfl

/-- A chain at rest stays as it is when its inputs do. -/
theorem State.ChainAtRest.update_eq {s : State} (h : s.ChainAtRest) {a b : Lines} (ha : SameInputs a s.lines)
    (hb : SameInputs b s.lines) : chainUpdate a b s = s := by
  rw [chainUpdate_of_sameInputs ha hb, chainUpdate_same h]

/-- A state whose levels differ on one line, which is no input of the chain, has the same inputs. -/
theorem sameInputs_of_level {s t : State} (hc : t.cfg = s.cfg) {b : BankId} {j : Nat}
    (h : ∀ p, ¬ IsLine p b j → level t p = level s p) (hn : ¬ chainLine s.cfg b j) :
    SameInputs t.lines s.lines := by
  simp only [chainLine, not_or] at hn
  obtain ⟨hdata, hclk, hle⟩ := hn
  simp only [lines_eq, hc]
  exact ⟨h _ hdata, h _ hclk, h _ hle⟩

/-! ### SETDIR and PMODE -/

theorem pinCommand_of_open {w : CmdWord} {p : PinOp} {s : State} {b : BankId} (hb : bankOfField p.bank = some b)
    (ho : bankOpen s b = true) (after : Pin → State) :
    (withPin w p s fun q => needOpen w q.bank s (after q)) = after ⟨b, p.bit, p.inv⟩ := by
  simp [withPin, pinOfOp, hb, needOpen, ho]

/-- SETDIR and PMODE of an open bank are BankSetDir (40 R127, 41 R143). -/
theorem exec_of_setsMode {s : State} {b : BankId} {k : BitIx} {m : Mode} {i : Instr} (hr : s.Ready)
    (ho : bankOpen s b = true) (hi : SetsMode b k m i) : exec i s = .next (complete (bankSetDir b k m s)) := by
  cases hi with
  | setdir f hf =>
    refine (command_ready hr _).trans ?_
    rw [bankCommand_of_open hf ho]
  | pmode p hb hk =>
    subst hk
    refine (command_ready hr _).trans ?_
    rw [pinCommand_of_open hb ho]
    rfl

theorem bankSetDir_trace_length {s : State} (hs : s.SoleWriter) (b : BankId) (k : BitVec 5) (m : Mode) :
    (bankSetDir b k m s).trace.length = s.trace.length + if s.cfg.dirTwoPhase then 4 else 2 := by
  cases h : s.cfg.dirTwoPhase
  · simp [bankSetDir_trace_one_cycle hs h]
  · simp [bankSetDir_trace_two_cycles hs h]

/-- The lines after a direction change when nobody else writes are those of the one DIR bit replaced. -/
theorem bankSetDir_lines {s : State} (hs : s.SoleWriter) (b : BankId) (k : BitVec 5) (m : Mode) :
    (bankSetDir b k m s).lines = (setReg b .dir (withBit (s.dir.get b) k m.toBit) s).lines := by
  simp only [State.lines, (bankSetDir_control b k m s).cfg, bankSetDir_dir hs, bankSetDir_out hs, setDir_cfg,
    setDir_dir, setDir_out]

/-- A DIR bit of a line that is no input of the chain leaves its inputs. -/
theorem setDir_sameInputs {s : State} {b : BankId} {k : BitVec 5} (hn : ¬ chainLine s.cfg b k.toNat) (x : Bool) :
    SameInputs (setReg b .dir (withBit (s.dir.get b) k x) s).lines s.lines :=
  sameInputs_of_level (setDir_cfg _ _ _) (fun _ => level_setReg_withBit s .dir x) hn

/-- A direction change of a line that is no input leaves a chain at rest, in both forms of 40 R122. -/
theorem bankSetDir_chain_at_rest {s : State} (hs : s.SoleWriter) (hrest : s.ChainAtRest) {b : BankId} {k : BitVec 5}
    (hn : ¬ chainLine s.cfg b k.toNat) (m : Mode) :
    (bankSetDir b k m s).sr = s.sr ∧ (bankSetDir b k m s).latch = s.latch := by
  have hafter : SameInputs (bankSetDir b k m s).lines s.lines :=
    bankSetDir_lines hs b k m ▸ setDir_sameInputs hn m.toBit
  cases h : s.cfg.dirTwoPhase with
  | false =>
    obtain ⟨hsr, hlatch⟩ := bankSetDir_chain_one_cycle hs h b k m
    rw [hrest.update_eq (.refl _) hafter] at hsr hlatch
    exact ⟨hsr, hlatch⟩
  | true =>
    have hbetween : SameInputs (linesOf s.cfg (s.dir.set b (s.dir.get b &&& ~~~(mask k))) s.out) s.lines :=
      setDir_sameInputs hn false
    obtain ⟨hsr, hlatch⟩ := bankSetDir_chain_two_cycle hs h b k m
    rw [hrest.update_eq (.refl _) hbetween, hrest.update_eq hbetween hafter] at hsr hlatch
    exact ⟨hsr, hlatch⟩

/-- Settles O33: BankSetDir, completed. -/
theorem setdirAndPmodeSetOneDirectionBit : Obligations.SetdirAndPmodeSetOneDirectionBit := by
  intro s b k m i hr hs ho hi
  have hacc := bankSetDir_accessOn (P := fun _ => True) (R := fun _ => True) (b := b) trivial trivial k m s
  refine ⟨_, exec_of_setsMode hr ho hi, hacc.control.complete, hacc.res,
    congrArg (· + 1) hacc.pc, bankSetDir_out hs b k m, fun b' j => ?_, bankSetDir_trace_length hs b k m,
    fun h => bankSetDir_chain_one_cycle hs h b k m, fun h => bankSetDir_chain_two_cycle hs h b k m,
    fun hn hrest => bankSetDir_chain_at_rest hs hrest hn m⟩
  rw [← toBit_eq_decide]
  exact bankSetDir_dirBit hs b k m b' j

/-! ### WRBIT and PWRITE -/

/-- WRBIT and PWRITE of an open bank are BankWriteBit of the raw level (40 R128, 41 R144). -/
theorem exec_of_writesLevel {s : State} {b : BankId} {k : BitIx} {x : Level} {i : Instr} (hr : s.Ready)
    (ho : bankOpen s b = true) (hi : WritesLevel b k x i) : exec i s = .next (complete (bankWriteBit b k x s)) := by
  have hpin : ∀ (p : PinOp) (y : Level), bankOfField p.bank = some b → p.bit = k → (y ^^ p.inv) = x →
      exec (.pwrite p y) s = .next (complete (bankWriteBit b k x s)) := by
    rintro p y hb rfl rfl
    refine (command_ready hr _).trans ?_
    rw [pinCommand_of_open hb ho]
    rfl
  cases hi with
  | wrbit f hf =>
    refine (command_ready hr _).trans ?_
    rw [bankCommand_of_open hf ho]
  | straight p hb hk hinv => exact hpin p x hb hk (by rw [hinv, Bool.xor_false])
  | inverted p hb hk hinv => exact hpin p (!x) hb hk (by rw [hinv, Bool.xor_true, Bool.not_not])

/-- The chain's reaction to a bit write when nobody else writes (20 R73). -/
theorem bankWriteBit_chain {s : State} (hs : s.SoleWriter) (b : BankId) (k : BitVec 5) (x : Level) :
    let t := bankWriteBit b k x s
    t.sr = (chainUpdate s.lines t.lines s).sr ∧ t.latch = (chainUpdate s.lines t.lines s).latch := by
  have h := pinWrite_chain hs ⟨b, k, false⟩ x
  rwa [pinWrite, Bool.xor_false] at h

/-- A bit write of a line that is no input of the chain leaves its inputs. -/
theorem bankWriteBit_sameInputs {s : State} (hs : s.SoleWriter) {b : BankId} {k : BitVec 5}
    (hn : ¬ chainLine s.cfg b k.toNat) (x : Level) : SameInputs (bankWriteBit b k x s).lines s.lines :=
  sameInputs_of_level (bankWriteBit_cfg b k x s)
    (fun p hp => level_congr (bankWriteBit_cfg b k x s) (by rw [State.dirBit, bankWriteBit_dir hs, State.dirBit])
      ((bankWriteBit_outBit hs b k x p.bank p.bit.toNat).trans (if_neg hp))) hn

/-- Settles O34: BankWriteBit, completed. -/
theorem wrbitAndPwriteWriteOneDataBit : Obligations.WrbitAndPwriteWriteOneDataBit := by
  intro s b k x i hr hs ho hi
  have hacc := bankWriteBit_accessOn (P := fun _ => True) (R := fun _ => True) (b := b) trivial trivial k x s
  obtain ⟨hsr, hlatch⟩ := bankWriteBit_chain hs b k x
  refine ⟨_, exec_of_writesLevel hr ho hi, hacc.control.complete, hacc.res,
    congrArg (· + 1) hacc.pc, bankWriteBit_dir hs b k x, fun b' j => bankWriteBit_outBit hs b k x b' j, ?_, hsr,
    hlatch, fun hn hrest => ?_⟩
  · rw [complete_trace, complete_out, bankWriteBit_trace hs, bankWriteBit_out hs, perBank_get_set_self]
  · rw [hrest.update_eq (.refl _) (bankWriteBit_sameInputs hs hn x)] at hsr hlatch
    exact ⟨hsr, hlatch⟩

end Sys2Proof.Machine
end

section
/-! SUPPORT. Inversion of a pin's level, and the settled statement about it. -/

namespace Sys2Proof.Machine

/-- The inversion flag complements a level or passes it (41 R141, R142). -/
theorem xor_inv_eq (y : Level) (inv : Bool) : (y ^^ inv) = if inv then !y else y := by
  cases inv
  · exact Bool.xor_false y
  · exact Bool.xor_true y

/-- The bit a bit write names holds the level written, whatever other writers did before the write (40 R123). -/
theorem bankWriteBit_outBit_self (b : BankId) (k : BitVec 5) (x : Level) (s : State) :
    (bankWriteBit b k x s).outBit b k.toNat = x := by
  rw [State.outBit, bankWriteBit_out_eq, perBank_get_set_self, getLsbD_withBit, if_pos rfl]

/-- Settles O27: a write and a read each put the level through the same exclusive or with the inversion flag. -/
theorem inversionIsSymmetric : Obligations.InversionIsSymmetric := by
  intro s p y
  obtain ⟨hbit, htrace⟩ := bankReadBit_draw p.bank p.bit s
  refine ⟨?_, (drawIn (gap s)).1, htrace, ?_⟩
  · rw [pinWrite, bankWriteBit_outBit_self, xor_inv_eq]
  · rw [pinRead_level, hbit, xor_inv_eq]

end Sys2Proof.Machine
end

section
/-! SUPPORT. Pin writes one after another (00 R11): the events they make, the bits and the chain they leave; SHIFTOUT
as 24 of them (42 R150 to R153); and the settled statements about its events and its two lines. -/

namespace Sys2Proof.Machine

open Spec

/-! ### The events of pin writes -/

/-- The two accesses of a pin write whose read of OUT returns `v` (40 R123, 41 R141). -/
def pinWriteEvents (w : Pin × Level) (v : Word) : List Event :=
  [.rd w.1.bank .out v, .wr w.1.bank .out (withBit v w.1.bit (w.2 ^^ w.1.inv))]

/-- The events of pin writes from `s`, each with what its own read returns. -/
def pinWritesEvents : List (Pin × Level) → State → List Event
  | [], _ => []
  | w :: ws, s => pinWriteEvents w (vRead w.1.bank .out s).1 ++ pinWritesEvents ws (pinWrite w.1 w.2 s)

theorem pinWrites_append (ws ws' : List (Pin × Level)) (s : State) :
    pinWrites (ws ++ ws') s = pinWrites ws' (pinWrites ws s) := List.foldl_append

theorem pinWritesEvents_append (ws ws' : List (Pin × Level)) (s : State) :
    pinWritesEvents (ws ++ ws') s = pinWritesEvents ws s ++ pinWritesEvents ws' (pinWrites ws s) := by
  induction ws generalizing s with
  | nil => rfl
  | cons w ws ih =>
    rw [List.cons_append, pinWritesEvents, ih, ← List.append_assoc]
    rfl

theorem pinWritesEvents_length (ws : List (Pin × Level)) (s : State) :
    (pinWritesEvents ws s).length = 2 * ws.length := by
  induction ws generalizing s with
  | nil => rfl
  | cons w ws ih =>
    rw [pinWritesEvents, List.length_append, ih, List.length_cons, Nat.mul_add, Nat.add_comm]
    rfl

/-- Pin writes append their events to the trace and no others, whoever else writes. -/
theorem pinWrites_trace (ws : List (Pin × Level)) (s : State) :
    (pinWrites ws s).trace = s.trace ++ pinWritesEvents ws s := by
  induction ws generalizing s with
  | nil => exact (List.append_nil _).symm
  | cons w ws ih =>
    calc (pinWrites ws (pinWrite w.1 w.2 s)).trace
        = (pinWrite w.1 w.2 s).trace ++ pinWritesEvents ws (pinWrite w.1 w.2 s) := ih _
      _ = s.trace ++ pinWritesEvents (w :: ws) s := by
        rw [pinWrite, bankWriteBit_trace_of_read, List.append_assoc]
        rfl

/-! ### The iterations of ShiftOut -/

theorem sentBits_length (o : BitOrder) (x : Byte) : (sentBits o x).length = 8 := by simp [sentBits]

theorem getElem_sentBits (o : BitOrder) (x : Byte) {i : Nat} (hi : i < (sentBits o x).length) :
    (sentBits o x)[i] = sentBit o x i := by simp [sentBits]

/-- The writes of some iterations, three each. -/
theorem length_flatMap_shiftBitWrites (d c : Pin) (bits : List Bool) :
    (bits.flatMap (shiftBitWrites d c)).length = 3 * bits.length := by
  simp [List.length_flatMap, shiftBitWrites, Nat.mul_comm]

/-- The writes of ShiftOut are those before iteration `i`, its own three, and those after it (42 R150). -/
theorem shiftOutWrites_split (d c : Pin) (o : BitOrder) (x : Byte) {i : Nat} (hi : i < 8) :
    shiftOutWrites d c o x = ((sentBits o x).take i).flatMap (shiftBitWrites d c) ++
      (shiftBitWrites d c (sentBit o x i) ++ ((sentBits o x).drop (i + 1)).flatMap (shiftBitWrites d c)) := by
  have hlen : i < (sentBits o x).length := by rwa [sentBits_length]
  have hbits : sentBits o x = (sentBits o x).take i ++ sentBit o x i :: (sentBits o x).drop (i + 1) := by
    rw [← getElem_sentBits o x hlen, ← List.drop_eq_getElem_cons hlen, List.take_append_drop]
  rw [shiftOutWrites, ← List.flatMap_cons, ← List.flatMap_append, ← hbits]

/-- From event `6i` on stand the events of iteration `i`, made from the state it starts in (42 R153). -/
theorem shiftOutEvents_drop (d c : Pin) (o : BitOrder) (x : Byte) (s : State) {i : Nat} (hi : i < 8) :
    ∃ u later, (pinWritesEvents (shiftOutWrites d c o x) s).drop (6 * i) =
      pinWritesEvents (shiftBitWrites d c (sentBit o x i)) u ++ later := by
  have hlen : 6 * i = (pinWritesEvents (((sentBits o x).take i).flatMap (shiftBitWrites d c)) s).length := by
    rw [pinWritesEvents_length, length_flatMap_shiftBitWrites, List.length_take, sentBits_length,
      Nat.min_eq_left hi.le]
    omega
  rw [shiftOutWrites_split d c o x hi, pinWritesEvents_append, pinWritesEvents_append, hlen, List.drop_left]
  exact ⟨_, _, rfl⟩

theorem shiftOutEvents_length (d c : Pin) (o : BitOrder) (x : Byte) (s : State) :
    (pinWritesEvents (shiftOutWrites d c o x) s).length = 48 := by
  rw [pinWritesEvents_length, shiftOutWrites, length_flatMap_shiftBitWrites, sentBits_length]

/-- Settles O38: the events of the 24 pin writes, of which each iteration makes six. -/
theorem shiftOutEventShape : Obligations.ShiftOutEventShape := by
  refine fun s d c o x => ⟨_, pinWrites_trace _ s, shiftOutEvents_length d c o x s, fun i hi => ?_⟩
  obtain ⟨u, later, hdrop⟩ := shiftOutEvents_drop d c o x s hi
  rw [hdrop]
  exact ⟨_, _, _, _, _, _, rfl⟩

/-- Settles O39: each write of an iteration replaces the pin's bit in the word its read returned. -/
theorem shiftOutBitSelection : Obligations.ShiftOutBitSelection := by
  refine ⟨fun s d c o x i hi => ?_, by decide, by decide, by decide⟩
  obtain ⟨u, later, hdrop⟩ := shiftOutEvents_drop d c o x s hi
  rw [shiftOut, pinWrites_trace, List.drop_length_add_append, hdrop]
  refine ⟨_, _, _, rfl, rfl, rfl, ?_, ?_, ?_⟩ <;> rw [getLsbD_withBit, if_pos rfl]
  · cases o <;> rfl
  · exact Bool.true_xor _
  · exact Bool.false_xor _

/-! ### The bits pin writes leave -/

theorem pinWrite_outBit_self (p : Pin) (y : Level) (s : State) :
    (pinWrite p y s).outBit p.bank p.bit.toNat = (y ^^ p.inv) := bankWriteBit_outBit_self _ _ _ _

/-- A pin write leaves the OUT bits of other lines. -/
theorem pinWrite_outBit_other {s : State} (hs : s.SoleWriter) {p : Pin} (y : Level) {b : BankId} {j : Nat}
    (h : ¬ IsLine p b j) : (pinWrite p y s).outBit b j = s.outBit b j := by
  rw [pinWrite, bankWriteBit_outBit hs, if_neg fun hbj => h ⟨hbj.1.symm, hbj.2.symm⟩]

@[simp] theorem pinWrite_cfg (p : Pin) (y : Level) (s : State) : (pinWrite p y s).cfg = s.cfg :=
  bankWriteBit_cfg _ _ _ _

@[simp] theorem pinWrites_cfg (ws : List (Pin × Level)) (s : State) : (pinWrites ws s).cfg = s.cfg := by
  induction ws generalizing s with
  | nil => rfl
  | cons w ws ih => exact (ih _).trans (pinWrite_cfg _ _ _)

theorem pinWrite_soleWriter {s : State} (hs : s.SoleWriter) (p : Pin) (y : Level) : (pinWrite p y s).SoleWriter :=
  (soleWriter_of_cfg (pinWrite_cfg p y s)).mpr hs

theorem pinWrites_soleWriter {s : State} (hs : s.SoleWriter) (ws : List (Pin × Level)) : (pinWrites ws s).SoleWriter :=
  (soleWriter_of_cfg (pinWrites_cfg ws s)).mpr hs

/-- Pin writes leave the OUT bits of the lines none of them names. -/
theorem pinWrites_outBit_other {s : State} (hs : s.SoleWriter) (ws : List (Pin × Level)) {b : BankId} {j : Nat}
    (h : ∀ w ∈ ws, ¬ IsLine w.1 b j) : (pinWrites ws s).outBit b j = s.outBit b j := by
  induction ws generalizing s with
  | nil => rfl
  | cons w ws ih =>
    obtain ⟨hw, hws⟩ := List.forall_mem_cons.mp h
    exact (ih (pinWrite_soleWriter hs _ _) hws).trans (pinWrite_outBit_other hs w.2 hw)

/-- ShiftOut ends with its last iteration: data the last bit sent, clock High, clock Low (42 R150). -/
theorem shiftOut_last_iteration (d c : Pin) (o : BitOrder) (x : Byte) (s : State) :
    ∃ ws, shiftOut d c o x s =
      pinWrite c false (pinWrite c true (pinWrite d (sentBit o x 7) (pinWrites ws s))) := by
  refine ⟨((sentBits o x).take 7).flatMap (shiftBitWrites d c), ?_⟩
  rw [shiftOut, shiftOutWrites_split d c o x (i := 7) (by decide), pinWrites_append,
    List.drop_eq_nil_of_le (sentBits_length o x).le]
  rfl

theorem shiftOut_clock_bit (d c : Pin) (o : BitOrder) (x : Byte) (s : State) :
    (shiftOut d c o x s).outBit c.bank c.bit.toNat = c.inv := by
  obtain ⟨ws, hend⟩ := shiftOut_last_iteration d c o x s
  rw [hend, pinWrite_outBit_self, Bool.false_xor]

theorem shiftOut_data_bit {s : State} (hs : s.SoleWriter) {d c : Pin} (h : ¬ IsLine c d.bank d.bit.toNat)
    (o : BitOrder) (x : Byte) :
    (shiftOut d c o x s).outBit d.bank d.bit.toNat = (sentBit o x 7 ^^ d.inv) := by
  obtain ⟨ws, hend⟩ := shiftOut_last_iteration d c o x s
  have hdata := pinWrite_soleWriter (pinWrites_soleWriter hs ws) d (sentBit o x 7)
  rw [hend, pinWrite_outBit_other (pinWrite_soleWriter hdata c true) _ h, pinWrite_outBit_other hdata _ h,
    pinWrite_outBit_self]

/-! ### Pin writes off the chain -/

/-- The parameters, the inputs of the chain and its cells are as before. -/
structure State.KeepsChain (s t : State) : Prop where
  cfg : t.cfg = s.cfg
  inputs : SameInputs t.lines s.lines
  sr : t.sr = s.sr
  latch : t.latch = s.latch

theorem State.KeepsChain.refl (s : State) : s.KeepsChain s := ⟨rfl, .refl _, rfl, rfl⟩

theorem State.KeepsChain.trans {s t u : State} (h : s.KeepsChain t) (h' : t.KeepsChain u) : s.KeepsChain u where
  cfg := h'.cfg.trans h.cfg
  inputs := ⟨h'.inputs.data.trans h.inputs.data, h'.inputs.clk.trans h.inputs.clk, h'.inputs.le.trans h.inputs.le⟩
  sr := h'.sr.trans h.sr
  latch := h'.latch.trans h.latch

/-- A chain stays at rest while its inputs and cells are kept (20 R73). -/
theorem State.ChainAtRest.kept {s t : State} (h : s.ChainAtRest) (hk : s.KeepsChain t) : t.ChainAtRest := by
  obtain ⟨hsr, hlatch⟩ := chainUpdate_congr t.lines t.lines hk.cfg hk.sr hk.latch
  rw [h.update_eq hk.inputs hk.inputs] at hsr hlatch
  exact (chainAtRest_iff t).mpr ⟨hsr.trans hk.sr.symm, hlatch.trans hk.latch.symm⟩

theorem pinWrite_keepsChain {s : State} (hs : s.SoleWriter) (hrest : s.ChainAtRest) {p : Pin}
    (hn : ¬ chainLine s.cfg p.bank p.bit.toNat) (y : Level) : s.KeepsChain (pinWrite p y s) := by
  have hinputs : SameInputs (pinWrite p y s).lines s.lines := bankWriteBit_sameInputs hs hn _
  obtain ⟨hsr, hlatch⟩ := pinWrite_chain hs p y
  rw [hrest.update_eq (.refl _) hinputs] at hsr hlatch
  exact ⟨pinWrite_cfg p y s, hinputs, hsr, hlatch⟩

/-- Pin writes of lines that are no inputs of the chain leave a chain at rest. -/
theorem pinWrites_keepsChain {s : State} (hs : s.SoleWriter) (hrest : s.ChainAtRest) (ws : List (Pin × Level))
    (h : ∀ w ∈ ws, ¬ chainLine s.cfg w.1.bank w.1.bit.toNat) : s.KeepsChain (pinWrites ws s) := by
  induction ws generalizing s with
  | nil => exact .refl s
  | cons w ws ih =>
    obtain ⟨hw, hws⟩ := List.forall_mem_cons.mp h
    have hfirst := pinWrite_keepsChain hs hrest hw w.2
    exact hfirst.trans (ih (pinWrite_soleWriter hs _ _) (hrest.kept hfirst) (by rwa [hfirst.cfg]))

/-! ### SHIFTOUT -/

theorem withPin_of_some {w : CmdWord} {p : PinOp} {q : Pin} (hp : pinOfOp p = some q) (s : State)
    (next : Pin → State) : withPin w p s next = next q := by
  simp [withPin, hp]

theorem needOpen_of_open {w : CmdWord} {b : BankId} {s : State} (ho : bankOpen s b = true) (next : State) :
    needOpen w b s next = next := by
  rw [needOpen, if_pos ho]

/-- SHIFTOUT of two pins whose banks are open is ShiftOut (42 R151). -/
theorem exec_shiftout_of_open {s : State} {dp cp : PinOp} {d c : Pin} (hr : s.Ready) (hd : pinOfOp dp = some d)
    (hc : pinOfOp cp = some c) (hdo : bankOpen s d.bank = true) (hco : bankOpen s c.bank = true) (o : BitOrder)
    (x : Byte) : exec (.shiftout dp cp o x) s = .next (complete (shiftOut d c o x s)) := by
  refine (command_ready hr _).trans ?_
  rw [withPin_of_some hd, withPin_of_some hc, needOpen_of_open hdo, needOpen_of_open hco]

/-- What holds of both pins of ShiftOut holds of the pin of each of its writes. -/
theorem forall_mem_shiftOutWrites {P : Pin → Prop} {d c : Pin} (hd : P d) (hc : P c) (o : BitOrder) (x : Byte) :
    ∀ w ∈ shiftOutWrites d c o x, P w.1 := by
  intro w hw
  rcases mem_shiftOutWrites hw with h | h <;> rw [h] <;> assumption

/-- Settles O37: ShiftOut, completed. -/
theorem shiftoutDrivesItsTwoPins : Obligations.ShiftoutDrivesItsTwoPins := by
  intro s dp cp d c o x hr hs hd hc hdo hco
  have hacc := shiftOut_accessOn (P := fun _ => True) (R := (· = .out)) (dp := d) (cp := c) rfl trivial trivial o x s
  refine ⟨_, exec_shiftout_of_open hr hd hc hdo hco o x, rfl, hacc.control.complete, hacc.res,
    congrArg (· + 1) hacc.pc, (hacc.other_kind hs).1 nofun, ?_, fun b j hnd hnc => ?_, shiftOut_clock_bit d c o x s,
    fun hapart => ?_, fun hnd hnc hrest => ?_⟩
  · rw [complete_trace, shiftOut, pinWrites_trace, List.length_append, shiftOutEvents_length]
  · exact pinWrites_outBit_other hs _ (forall_mem_shiftOutWrites (P := fun p => ¬ IsLine p b j) hnd hnc o x)
  · refine (shiftOut_data_bit hs (fun h => hapart ⟨h.1.symm, h.2.symm⟩) o x).trans ?_
    cases o <;> rfl
  · have hkeep := pinWrites_keepsChain hs hrest _ (forall_mem_shiftOutWrites
      (P := fun p => ¬ chainLine s.cfg p.bank p.bit.toNat) hnd hnc o x)
    exact ⟨hkeep.sr, hkeep.latch⟩

end Sys2Proof.Machine
end

section
/-! SUPPORT. What the chain takes in while pin writes clock it (20 R72 to R74): the data levels at the rising edges of
the clock line, which the trace shows; and the settled statement about ShiftOut on the wired DATA and CLK (42 R154). -/

namespace Sys2Proof.Machine

/-! ### Levels at clock edges -/

theorem clockedLevels_append (c : Config) (regs : PerBank Word × PerBank Word) (xs ys : List Event) :
    clockedLevels c regs (xs ++ ys) = clockedLevels c regs xs ++ clockedLevels c (xs.foldl applyEvent regs) ys := by
  induction xs generalizing regs with
  | nil => rfl
  | cons e es ih =>
    simp only [List.cons_append, clockedLevels, List.foldl_cons, ih]
    split <;> rfl

/-- The data level before a change from `s` to `t` that is a rising edge of the clock line; none for another change. -/
def edgeLevels (w : Wiring) (s t : State) : List LineLevel :=
  if level s w.clk = .driven false ∧ level t w.clk = .driven true then [level s w.data] else []

/-- The data levels at the rising clock edges that pin writes from `s` make. -/
def pinWritesEdges (w : Wiring) : List (Pin × Level) → State → List LineLevel
  | [], _ => []
  | x :: ws, s => edgeLevels w s (pinWrite x.1 x.2 s) ++ pinWritesEdges w ws (pinWrite x.1 x.2 s)

section
variable {w : Wiring} {s t : State}

theorem edgeLevels_of_edge (hs : level s w.clk = .driven false) (ht : level t w.clk = .driven true) :
    edgeLevels w s t = [level s w.data] := if_pos ⟨hs, ht⟩

theorem edgeLevels_of_high (h : level s w.clk = .driven true) : edgeLevels w s t = [] :=
  if_neg fun he => by rw [h] at he; exact nomatch he.1

theorem edgeLevels_of_low (h : level t w.clk = .driven false) : edgeLevels w s t = [] :=
  if_neg fun he => by rw [h] at he; exact nomatch he.2

theorem edgeLevels_of_same (h : level t w.clk = level s w.clk) : edgeLevels w s t = [] :=
  if_neg fun he => by rw [h, he.1] at he; exact nomatch he.2

theorem pinWritesEdges_append (ws ws' : List (Pin × Level)) :
    pinWritesEdges w (ws ++ ws') s = pinWritesEdges w ws s ++ pinWritesEdges w ws' (pinWrites ws s) := by
  induction ws generalizing s with
  | nil => rfl
  | cons x ws ih =>
    rw [List.cons_append, pinWritesEdges, ih, ← List.append_assoc]
    rfl

end

/-- The events of a pin write take the registers to those it leaves, when nobody else writes. -/
theorem foldl_pinWriteEvents {s : State} (hs : s.SoleWriter) (x : Pin × Level) :
    (pinWriteEvents x (s.out.get x.1.bank)).foldl applyEvent (s.dir, s.out) =
      ((pinWrite x.1 x.2 s).dir, (pinWrite x.1 x.2 s).out) := by
  rw [pinWrite, bankWriteBit_dir hs, bankWriteBit_out hs]
  rfl

/-- A read changes no line, so the write of a pin write alone can be an edge. -/
theorem clockedLevels_pinWriteEvents {s : State} (hs : s.SoleWriter) (x : Pin × Level) :
    clockedLevels s.cfg (s.dir, s.out) (pinWriteEvents x (s.out.get x.1.bank)) =
      edgeLevels s.cfg.wiring s (pinWrite x.1 x.2 s) := by
  have hread : ∀ l : LineLevel, ¬ (l = .driven false ∧ l = .driven true) := by rintro _ ⟨rfl, h⟩; cases h
  have hregs := foldl_pinWriteEvents hs x
  simp only [pinWriteEvents, List.foldl_cons, List.foldl_nil, applyEvent] at hregs
  simp only [pinWriteEvents, clockedLevels, applyEvent, hread, if_false, hregs]
  simp only [edgeLevels, level, pinWrite_cfg]

/-- The events of pin writes show the levels at the edges they make, when nobody else writes. -/
theorem clockedLevels_pinWritesEvents (ws : List (Pin × Level)) {s : State} (hs : s.SoleWriter) :
    clockedLevels s.cfg (s.dir, s.out) (pinWritesEvents ws s) = pinWritesEdges s.cfg.wiring ws s := by
  induction ws generalizing s with
  | nil => rfl
  | cons x ws ih =>
    have hrest := ih (pinWrite_soleWriter hs x.1 x.2)
    rw [pinWrite_cfg] at hrest
    rw [pinWritesEvents, vRead_out_value hs, clockedLevels_append, foldl_pinWriteEvents hs,
      clockedLevels_pinWriteEvents hs, hrest, pinWritesEdges]

/-! ### What the chain takes in -/

theorem pinWrite_drives {s : State} (hs : s.SoleWriter) {p q : Pin} {y : Level} :
    (pinWrite p y s).Drives q ↔ s.Drives q := by
  rw [State.Drives, State.Drives, pinWrite_cfg, pinWrite, bankWriteBit_dir hs]

theorem pinWrite_level_self {s : State} (hs : s.SoleWriter) {p : Pin} (hp : s.Drives p) (y : Level) :
    level (pinWrite p y s) p = .driven (y ^^ p.inv) := by
  rw [pinWrite_level hs, if_pos ⟨rfl, rfl, hp⟩]

/-- One pin write shifts the chain at a rising edge of a driven clock and else not (20 R73, R74). -/
theorem pinWrite_sr {s : State} (hs : s.SoleWriter) (hw : wiringLegal s.cfg.wiring = true)
    (hclk : s.Drives s.cfg.wiring.clk) (p : Pin) (y : Level) : (pinWrite p y s).sr =
      (edgeLevels s.cfg.wiring s (pinWrite p y s)).foldl (fun sr l => shiftIn (sampled s.cfg l) sr) s.sr := by
  have hone : changedLines s.lines (pinWrite p y s).lines ≤ 1 :=
    changedLines_le_one hw (pinWrite_cfg p y s) fun q => pinWrite_level_apart hs y
  have hlines : (pinWrite p y s).lines.clk = level (pinWrite p y s) s.cfg.wiring.clk := by
    rw [lines_eq, pinWrite_cfg]
  have hbefore := level_driven hclk
  have hafter := level_driven ((pinWrite_drives (y := y) (p := p) hs).mpr hclk)
  rw [(pinWrite_chain hs p y).1]
  by_cases hedge : s.outBit s.cfg.wiring.clk.bank s.cfg.wiring.clk.bit.toNat = false ∧
      (pinWrite p y s).outBit s.cfg.wiring.clk.bank s.cfg.wiring.clk.bit.toNat = true
  · rw [hedge.1] at hbefore
    rw [hedge.2] at hafter
    rw [edgeLevels_of_edge hbefore hafter, chainUpdate_edge s hone hbefore (hlines.trans hafter)]
    rfl
  · have hnone : edgeLevels s.cfg.wiring s (pinWrite p y s) = [] :=
      if_neg fun h => hedge ⟨by simpa [hbefore] using h.1, by simpa [hafter] using h.2⟩
    rw [hnone, List.foldl_nil]
    refine chainUpdate_no_edge s hone hbefore (hlines.trans hafter) ?_
    simpa only [Bool.not_eq_true, Bool.not_eq_false, not_and_or] using hedge

/-- Pin writes that leave the clock driven shift into the chain what it samples at the edges they make. -/
theorem pinWrites_sr (ws : List (Pin × Level)) {s : State} (hs : s.SoleWriter) (hw : wiringLegal s.cfg.wiring = true)
    (hclk : s.Drives s.cfg.wiring.clk) : (pinWrites ws s).sr =
      (pinWritesEdges s.cfg.wiring ws s).foldl (fun sr l => shiftIn (sampled s.cfg l) sr) s.sr := by
  induction ws generalizing s with
  | nil => rfl
  | cons x ws ih =>
    have hrest := ih (pinWrite_soleWriter hs x.1 x.2) (by rwa [pinWrite_cfg])
      ((pinWrite_drives hs).mpr (by rwa [pinWrite_cfg]))
    rw [pinWrite_cfg, pinWrite_sr hs hw hclk, ← List.foldl_append] at hrest
    exact hrest

/-- The cells a chain held before known bits were shifted in move up by their number (20 R74). -/
theorem cellAt_shiftIns_of_le (bits : List Bool) (sr : Cells) {j : Nat} (hl : bits.length ≤ j) (hj : j < 40) :
    cellAt (bits.foldl (fun sr x => shiftIn (.known x) sr) sr) j = cellAt sr (j - bits.length) := by
  induction bits generalizing sr with
  | nil => rfl
  | cons x bits ih =>
    rw [List.length_cons] at hl ⊢
    rw [List.foldl_cons, ih _ (by omega), show j - bits.length = j - (bits.length + 1) + 1 by omega,
      cellAt_shiftIn_succ _ _ (by omega)]

/-- Of known bits shifted in, the bit at place `i` lies as deep in the chain as bits came after it (20 R74). -/
theorem cellAt_shiftIns_getElem (bits : List Bool) (sr : Cells) {i k : Nat} (hi : i < bits.length)
    (hk : k + i + 1 = bits.length) (hdepth : k < 40) :
    cellAt (bits.foldl (fun sr x => shiftIn (.known x) sr) sr) k = .known bits[i] := by
  have hplace : bits.length - 1 - k = i := by omega
  rw [cellAt_shiftIns bits sr hdepth (by omega), List.getD_eq_getElem _ _ (by rw [List.length_reverse]; omega),
    List.getElem_reverse]
  simp only [hplace]

/-! ### ShiftOut on the wired lines -/

/-- ShiftOut on DATA and CLK of `w` clocks what it sends: nobody else writes, DATA and CLK are two driven lines, and CLK
is Low unless it is inverted (42 R154). -/
structure State.ClocksData (w : Wiring) (s : State) : Prop where
  sole : s.SoleWriter
  apart : pinsApart w.data w.clk = true
  data : s.Drives w.data
  clk : s.Drives w.clk
  low : w.clk.inv = false → level s w.clk = .driven false

section
variable {w : Wiring} {s : State}

theorem State.ClocksData.dataWrite_clock (h : s.ClocksData w) (y : Level) :
    level (pinWrite w.data y s) w.clk = level s w.clk :=
  pinWrite_level_apart h.sole y (not_isLine_of_pinsApart h.apart ⟨rfl, rfl⟩)

theorem State.ClocksData.clockWrite_data (h : s.ClocksData w) (y : Level) :
    level (pinWrite w.clk y s) w.data = level s w.data :=
  pinWrite_level_apart h.sole y fun hd => not_isLine_of_pinsApart h.apart hd ⟨rfl, rfl⟩

theorem State.ClocksData.dataWrite (h : s.ClocksData w) (y : Level) : (pinWrite w.data y s).ClocksData w where
  sole := pinWrite_soleWriter h.sole _ _
  apart := h.apart
  data := (pinWrite_drives h.sole).mpr h.data
  clk := (pinWrite_drives h.sole).mpr h.clk
  low hinv := (h.dataWrite_clock y).trans (h.low hinv)

/-- A clock pulse makes one rising edge: the write of High, or of an inverted clock the write of Low. -/
theorem State.ClocksData.pulse_edges (h : s.ClocksData w) :
    pinWritesEdges w [(w.clk, true), (w.clk, false)] s = [level s w.data] := by
  have hsole := pinWrite_soleWriter h.sole w.clk true
  have hhigh := pinWrite_level_self h.sole h.clk true
  have hlow := pinWrite_level_self hsole ((pinWrite_drives h.sole).mpr h.clk) false
  simp only [pinWritesEdges]
  cases hinv : w.clk.inv with
  | false =>
    rw [hinv] at hhigh
    rw [edgeLevels_of_edge (h.low hinv) hhigh, edgeLevels_of_high hhigh]
    rfl
  | true =>
    rw [hinv] at hhigh hlow
    rw [edgeLevels_of_low hhigh, edgeLevels_of_edge hhigh hlow, h.clockWrite_data]
    rfl

theorem State.ClocksData.pulse (h : s.ClocksData w) :
    (pinWrites [(w.clk, true), (w.clk, false)] s).ClocksData w := by
  have hsole := pinWrite_soleWriter h.sole w.clk true
  have hclk : (pinWrite w.clk true s).Drives w.clk := (pinWrite_drives h.sole).mpr h.clk
  refine ⟨pinWrite_soleWriter hsole _ _, h.apart, (pinWrite_drives hsole).mpr ((pinWrite_drives h.sole).mpr h.data),
    (pinWrite_drives hsole).mpr hclk, fun hinv => (pinWrite_level_self hsole hclk false).trans ?_⟩
  rw [hinv]
  rfl

/-- Iterations of ShiftOut make one rising clock edge each, with the data line at the bit sent. -/
theorem State.ClocksData.iterations_edges (h : s.ClocksData w) (bits : List Bool) :
    pinWritesEdges w (bits.flatMap (shiftBitWrites w.data w.clk)) s =
      bits.map fun y => .driven (y ^^ w.data.inv) := by
  induction bits generalizing s with
  | nil => rfl
  | cons y bits ih =>
    have hdata := h.dataWrite y
    calc pinWritesEdges w
          ((w.data, y) :: ([(w.clk, true), (w.clk, false)] ++ bits.flatMap (shiftBitWrites w.data w.clk))) s
        = [] ++ ([level (pinWrite w.data y s) w.data] ++ bits.map fun y => .driven (y ^^ w.data.inv)) := by
          rw [pinWritesEdges, edgeLevels_of_same (h.dataWrite_clock y), pinWritesEdges_append, hdata.pulse_edges,
            ih hdata.pulse]
      _ = (y :: bits).map fun y => .driven (y ^^ w.data.inv) := by
          rw [pinWrite_level_self h.sole h.data]
          rfl

end

/-- Settles O40: the levels at the eight edges are the bits sent, and they are what the chain samples. -/
theorem shiftOutLoadsTheChain : Obligations.ShiftOutLoadsTheChain := by
  intro s o x hw hs hmet hdata hclk hlow
  obtain ⟨⟨hapart, -, -⟩, -, -⟩ := (wiringLegal_iff _).mp hw
  have hready : s.ClocksData s.cfg.wiring :=
    ⟨hs, hapart, hdata, hclk, fun hinv => by rw [level_driven hclk, hlow hinv]⟩
  have hedges := hready.iterations_edges (sentBits o x)
  let sent := (sentBits o x).map (· ^^ s.cfg.wiring.data.inv)
  have hlen : sent.length = 8 := (List.length_map _).trans (sentBits_length o x)
  intro t
  have hsr : t.sr = sent.foldl (fun sr x => shiftIn (.known x) sr) s.sr := by
    refine (pinWrites_sr _ hs hw hclk).trans ?_
    rw [shiftOutWrites, hedges, List.foldl_map, List.foldl_map]
    simp only [sampled, hmet, if_true]
  refine ⟨fun i hi => ?_, fun j hlo hj => ?_, ?_⟩
  · rw [hsr, cellAt_shiftIns_getElem sent s.sr (i := i) (by omega) (by omega) (by omega), List.getElem_map,
      getElem_sentBits]
    cases o <;> rfl
  · rw [hsr, cellAt_shiftIns_of_le sent s.sr (by omega) hj, hlen]
  · rw [show t.trace = s.trace ++ _ from pinWrites_trace _ s, List.drop_left, clockedLevels_pinWritesEvents _ hs]
    exact hedges

end Sys2Proof.Machine
end

section
/-! SUPPORT. The checks of the driver commands (43 R164 to R166, 60 R203), LENABLE and LDISABLE, which write OE's bit
(43 R163 to R165), and the segment map with digit 0 (43 R160, R162); and the settled statements about them. -/

namespace Sys2Proof.Machine

open Spec

/-! ### The checks of the driver commands -/

theorem needOpen_of_closed {w : CmdWord} {b : BankId} {s : State} (hc : bankOpen s b = false) (next : State) :
    needOpen w b s next = raise w .bankNotOpen (some b) s := by
  simp [needOpen, hc]

theorem needDriver_of_constructed {w : CmdWord} {s : State} (hd : s.drv = .constructed) (next : State) :
    needDriver w s next = next := if_pos hd

theorem needDriver_of_unconstructed {w : CmdWord} {s : State} (hd : s.drv = .unconstructed) (next : State) :
    needDriver w s next = raise w .driverNotConstructed none s := by
  simp [needDriver, hd]

/-- Bank checks of a list of pins, in order, before the rest of a command (60 R203 check 5). -/
def needPins (w : CmdWord) (ps : List Pin) (s next : State) : State :=
  ps.foldr (fun p t => needOpen w p.bank s t) next

/-- The bank that bank checks name is that of the first pin whose bank is closed. -/
theorem needPins_of_first_closed {w : CmdWord} {ps : List Pin} {s : State} {p : Pin}
    (h : ps.find? (fun p => !bankOpen s p.bank) = some p) (next : State) :
    needPins w ps s next = raise w .bankNotOpen (some p.bank) s := by
  induction ps with
  | nil => cases h
  | cons q ps ih =>
    change needOpen w q.bank s (needPins w ps s next) = _
    cases ho : bankOpen s q.bank with
    | true => rw [needOpen_of_open ho, ih (by simpa [ho] using h)]
    | false =>
      obtain rfl : q = p := by simpa [ho] using h
      exact needOpen_of_closed ho _

/-- A driver command is the check of the driver, then those of its pins' banks, then its effect. -/
theorem exec_lenable_eq (s : State) : exec .lenable s = command s (needDriver (encode .lenable) s
    (needPins (encode .lenable) [s.cfg.wiring.oe] s (complete (driveOE false s)))) := rfl

theorem exec_ldisable_eq (s : State) : exec .ldisable s = command s (needDriver (encode .ldisable) s
    (needPins (encode .ldisable) [s.cfg.wiring.oe] s (complete (driveOE true s)))) := rfl

theorem exec_lset_eq (a b c d e : Byte) (s : State) : exec (.lset a b c d e) s =
    command s (needDriver (encode (.lset a b c d e)) s
      (needPins (encode (.lset a b c d e)) [s.cfg.wiring.data, s.cfg.wiring.clk, s.cfg.wiring.le] s
        (complete (pinWrites (lsetWrites s.cfg.wiring [a, b, c, d, e]) s)))) := rfl

/-- Settles O16: the driver's check comes first, then those of the banks in the order of the pins. -/
theorem driverCommandsNeedDriverThenBanks : Obligations.DriverCommandsNeedDriverThenBanks := by
  intro s a b c d e hr
  refine ⟨fun hd => ?_, fun hd hc => ?_, fun hd p hp => ?_⟩
  · simp only [List.forall_mem_cons, exec_lenable_eq, exec_ldisable_eq, exec_lset_eq, command_ready hr,
      needDriver_of_unconstructed hd]
    simp
  · have hfirst : [s.cfg.wiring.oe].find? (fun p => !bankOpen s p.bank) = some s.cfg.wiring.oe := by simp [hc]
    simp only [List.forall_mem_cons, exec_lenable_eq, exec_ldisable_eq, command_ready hr,
      needDriver_of_constructed hd, needPins_of_first_closed hfirst]
    simp
  · rw [exec_lset_eq, command_ready hr, needDriver_of_constructed hd, needPins_of_first_closed hp]

/-! ### LENABLE and LDISABLE -/

/-- DriveOE writes the raw level, whatever OE's inversion flag (43 R163; 90 C7). -/
theorem driveOE_eq (x : Level) (s : State) :
    driveOE x s = bankWriteBit s.cfg.wiring.oe.bank s.cfg.wiring.oe.bit x s := by
  simp [driveOE, pinWrite]

/-- LENABLE and LDISABLE with the driver constructed and OE's bank open are DriveOE (43 R164, R165). -/
theorem exec_of_drivesOE {s : State} {i : Instr} {x : Level} (hr : s.Ready) (hd : s.drv = .constructed)
    (ho : bankOpen s s.cfg.wiring.oe.bank = true) (hi : i = .lenable ∧ x = false ∨ i = .ldisable ∧ x = true) :
    exec i s = .next (complete (bankWriteBit s.cfg.wiring.oe.bank s.cfg.wiring.oe.bit x s)) := by
  rw [← driveOE_eq]
  rcases hi with ⟨rfl, rfl⟩ | ⟨rfl, rfl⟩
  · rw [exec_lenable_eq, command_ready hr, needDriver_of_constructed hd]
    exact congrArg _ (needOpen_of_open ho _)
  · rw [exec_ldisable_eq, command_ready hr, needDriver_of_constructed hd]
    exact congrArg _ (needOpen_of_open ho _)

/-- OE's line is no input of the chain (10 R35, 20 R73). -/
theorem not_chainLine_oe {c : Config} (hw : wiringLegal c.wiring = true) {b : BankId} {j : Nat}
    (hoe : IsLine c.wiring.oe b j) : ¬ chainLine c b j := by
  obtain ⟨⟨-, hdo, -⟩, ⟨hco, -⟩, hol⟩ := (wiringLegal_iff _).mp hw
  rintro (h | h | h)
  · exact not_isLine_of_pinsApart hdo h hoe
  · exact not_isLine_of_pinsApart hco h hoe
  · exact not_isLine_of_pinsApart hol hoe h

/-- Settles O45: one bit write of OE's OUT bit, completed. -/
theorem lenableAndLdisableDriveOutputEnable : Obligations.LenableAndLdisableDriveOutputEnable := by
  intro s i x hr hs hd ho hi
  obtain ⟨-, hw, -, -⟩ := (configLegal_iff _).mp hr.legal
  let oe := s.cfg.wiring.oe
  have hacc := bankWriteBit_accessOn (P := fun _ => True) (R := fun _ => True) (b := oe.bank) trivial trivial oe.bit x s
  have hbit := bankWriteBit_outBit hs oe.bank oe.bit x
  refine ⟨_, exec_of_drivesOE hr hd ho hi, hacc.control.complete, hacc.res, congrArg (· + 1) hacc.pc,
    bankWriteBit_dir hs _ _ _, fun b j => ⟨?_, fun hne => ?_⟩, ⟨_, _, bankWriteBit_trace hs _ _ _⟩,
    fun hrest => ?_, fun hdrives => ?_⟩
  · rintro ⟨rfl, rfl⟩
    exact (hbit _ _).trans (if_pos ⟨rfl, rfl⟩)
  · exact (hbit b j).trans (if_neg fun h => hne ⟨h.1.symm, h.2.symm⟩)
  · obtain ⟨hsr, hlatch⟩ := bankWriteBit_chain hs oe.bank oe.bit x
    rw [hrest.update_eq (.refl _) (bankWriteBit_sameInputs hs (not_chainLine_oe hw ⟨rfl, rfl⟩) x)] at hsr hlatch
    exact ⟨hsr, hlatch⟩
  · have hlevel := pinWrite_level_self hs hdrives (x ^^ oe.inv)
    rw [Bool.xor_assoc, Bool.xor_self, Bool.xor_false] at hlevel
    refine displayState_of_driven (s := complete _) ?_
    rw [complete_cfg, bankWriteBit_cfg, ← driveOE_eq]
    exact hlevel

/-! ### The segment map and digit 0 -/

/-- Every bit of a pattern byte is that of exactly one segment (43 R160). -/
theorem segBitOf_bijective {m : SegBits} (h : segBitsLegal m = true) : Function.Bijective (segBitOf m) := by
  have hnodup : (segments.map (segBitOf m)).Nodup := of_decide_eq_true h
  have hmem : ∀ g, g ∈ segments := fun g => by cases g <;> decide
  refine ⟨fun g g' he => List.inj_on_of_nodup_map hnodup (hmem g) (hmem g') he, fun j => ?_⟩
  have huniv : (segments.map (segBitOf m)).toFinset = Finset.univ :=
    Finset.eq_univ_of_card _ (List.toFinset_card_of_nodup hnodup)
  have hj : j ∈ (segments.map (segBitOf m)).toFinset := huniv ▸ Finset.mem_univ j
  obtain ⟨g, -, hg⟩ := List.mem_map.mp (List.mem_toFinset.mp hj)
  exact ⟨g, hg⟩

theorem getLsbD_one_shiftLeft : ∀ i j : Fin 8, (1#8 <<< i.val).getLsbD j.val = decide (i = j) := by decide

/-- A pattern byte has the bits of its segments and no others. -/
theorem getLsbD_patternOf (m : SegBits) (lit : List Segment) (j : Fin 8) :
    (patternOf m lit).getLsbD j.val = decide (∃ g ∈ lit, segBitOf m g = j) := by
  have hor : ∀ acc : Byte, (lit.foldl (fun acc g => acc ||| (1#8 <<< (segBitOf m g).val)) acc).getLsbD j.val =
      (acc.getLsbD j.val || decide (∃ g ∈ lit, segBitOf m g = j)) := by
    induction lit with
    | nil => simp
    | cons g lit ih =>
      intro acc
      rw [List.foldl_cons, ih, BitVec.getLsbD_or, getLsbD_one_shiftLeft, Bool.or_assoc]
      simp
  exact (hor 0).trans (by simp)

/-- Settles O57: eight different bits are all of them, and digit 0 is the pattern of its six segments. -/
theorem digitZeroLightsItsSegments : Obligations.DigitZeroLightsItsSegments := by
  intro c hl
  obtain ⟨-, -, hm, hdigits⟩ := (configLegal_iff c).mp hl
  have hbij := segBitOf_bijective hm
  have hzero : c.digits[0] = patternOf c.segBit digitZeroSegments := eq_of_beq hdigits
  refine ⟨hbij.existsUnique, fun g => ?_⟩
  rw [hzero, getLsbD_patternOf]
  simp only [hbij.injective.eq_iff, exists_eq_right]
  cases g <;> decide

end Sys2Proof.Machine
end

section
/-! SUPPORT. LNEW's setups (43 R163, 40 R120): three banks acquired one after another, or the first that fails; and the
settled statement about a setup that fails. -/

namespace Sys2Proof.Machine

/-- BankAcquire of each listed bank, in order, before `next` (43 R163). -/
def acquireBanks (w : CmdWord) : List BankId → (State → State) → State → State
  | [], next, s => next s
  | b :: bs, next, s => bankAcquire w b s (acquireBanks w bs next)

/-- LNEW on a block without driver or open handle is its three setups, then the driver's construction. -/
theorem exec_lnew_of_closed {s : State} (hr : s.Ready) (hd : s.drv = .unconstructed) (hc : ∀ b, s.fd.get b = false) :
    exec .lnew s = .next (acquireBanks (encode .lnew) banks constructDriver s) := by
  refine (command_ready hr _).trans ?_
  rw [if_neg (by simp [hd]), firstOpenHandle_eq_none_iff.mpr hc]
  rfl

/-- Setups listed as successes acquire their banks, and the next setup draws what is listed after them. -/
theorem acquireBanks_of_ok (w : CmdWord) (bs bs' : List BankId) (next : State → State) {s : State}
    {rest : List SetupOutcome} (h : s.env.setupDraws = bs.map (fun _ => .ok) ++ rest) :
    ∃ u, Acquired bs s u ∧ u.env.setupDraws = rest ∧ acquireBanks w (bs ++ bs') next s = acquireBanks w bs' next u := by
  induction bs generalizing s with
  | nil => exact ⟨s, .nil s, h, rfl⟩
  | cons b bs ih =>
    obtain ⟨u, hacq, hrest, heq⟩ := ih (acquiredState_setupDraws b h)
    refine ⟨u, (acquiredState_acquired b s).append hacq, hrest, ?_⟩
    rw [← heq]
    exact bankAcquire_of_ok (drawSetup_outcome h) w b _

/-- The handles a failed setup of `b` leaves open: those of the banks below, and its own after a failed mapping. -/
theorem filter_banks_upTo {below above : List BankId} {b : BankId} (h : banks = below ++ b :: above) (x : Bool) :
    (banks.filter fun b' => below.contains b' || (b' == b && x)) = below ++ if x then [b] else [] := by
  have hnodup : (below ++ b :: above).Nodup := h ▸ (by decide)
  rw [List.nodup_middle, List.nodup_cons, List.mem_append, not_or, List.nodup_append] at hnodup
  obtain ⟨⟨hbelow, habove⟩, -, -, hapart⟩ := hnodup
  have hall : (below.filter fun b' => below.contains b' || (b' == b && x)) = below :=
    List.filter_eq_self.mpr fun b' hb' => by simp [hb']
  have hnone : (above.filter fun b' => below.contains b' || (b' == b && x)) = [] :=
    List.filter_eq_nil_iff.mpr fun b' hb' => by
      have hne : b' ≠ b := by rintro rfl; exact habove hb'
      have hnot : b' ∉ below := fun hmem => hapart _ hmem _ hb' rfl
      simp [hne, hnot]
  rw [h, List.filter_append, hall, List.filter_cons, hnone]
  cases x <;> simp [hbelow]

/-- Settles O42: the setups below the failing one acquire their banks, and the fault releases them. -/
theorem lnewSetupFailureReleasesLowerBanks : Obligations.LnewSetupFailureReleasesLowerBanks := by
  intro s below b above o rest hr hd hclosed hbanks hne hdraws
  obtain ⟨u, hacq, hrest, hbelow⟩ := acquireBanks_of_ok (encode .lnew) below (b :: above) constructDriver hdraws
  obtain ⟨v, hfailed, hraise⟩ := bankAcquire_of_failed (drawSetup_outcome hrest) hne (encode .lnew) b
    (acquireBanks (encode .lnew) above constructDriver)
  obtain ⟨htrace, hmap, -, hfd, -⟩ := hfailed.fields
  have hquiet := hacq.quiet.trans hfailed.quiet
  have hexec : exec .lnew s = .next (raise (encode .lnew) (setupFaultCode o) (some b) v) := by
    rw [exec_lnew_of_closed hr hd fun b' => (hclosed b').1, hbanks, hbelow]
    exact congrArg _ hraise
  have hopen : ∀ b', v.fd.get b' = (below.contains b' || (b' == b && o == .mapFailed)) := fun b' => by
    rw [hfd, hacq.fd, (hclosed b').1, Bool.false_or, setupFaultCode_is_mapFailed]
  have hmapped : ∀ b', v.map.get b' = true → v.fd.get b' = true := fun b' hb' => by
    rw [hmap, hacq.map, (hclosed b').2, Bool.false_or] at hb'
    rw [hopen, hb', Bool.true_or]
  refine ⟨_, hexec, fun b' => ⟨?_, ?_⟩, raise_drv _ _ _ _, ?_, ?_, ?_⟩
  · rw [raise_fd, perBank_get_const]
  · rw [raise_map, releaseAll_unmaps hmapped]
  · rw [raise_pc, hquiet.pc]
  · rw [raise_phase, hquiet.pc]
    rfl
  · rw [raise_trace, htrace, hacq.trace]
    simp only [hopen, filter_banks_upTo hbanks, List.map_append, ← List.append_assoc]
    cases o <;> rfl

end Sys2Proof.Machine
end

section
/-! SUPPORT. Which cells of the chain a register write keeps (20 R73, R75, R76), and so PinSetMode to Output of pins one
after another, as LNEW makes it (43 R163). -/

namespace Sys2Proof.Machine

open Spec

/-! ### What one register write leaves of the cells -/

theorem level_undriven {s : State} {p : Pin} (h : ¬ s.Drives p) : level s p = .undriven := by
  have h' : ¬ s.dirBit p.bank p.bit.toNat = s.cfg.dirDriveValue := h
  rw [level_eq, if_neg h']

/-- Cells that are kept under a condition and else become Unknown. -/
def KeptIf (P : Prop) (before after : Cells) : Prop := (P → after = before) ∧ (¬ P → after = .unknown)

theorem KeptIf.trans {P Q : Prop} {a b c : Cells} (h : KeptIf P a b) (h' : KeptIf Q b c) : KeptIf (P ∧ Q) a c := by
  refine ⟨fun hpq => (h'.1 hpq.2).trans (h.1 hpq.1), fun hpq => ?_⟩
  by_cases hq : Q
  · exact (h'.1 hq).trans (h.2 fun hp => hpq ⟨hp, hq⟩)
  · exact h'.2 hq

/-- One register write that changes at most one line, and the chain's reaction to it (20 R73). -/
structure ChainStep (s t : State) : Prop where
  cfg : t.cfg = s.cfg
  one : changedLines s.lines t.lines ≤ 1
  sr : t.sr = (chainUpdate s.lines t.lines s).sr
  latch : t.latch = (chainUpdate s.lines t.lines s).latch

/-- A transparent latch whose strobe line is High, if it is driven (20 R76). -/
def State.LatchOpen (s : State) : Prop :=
  s.cfg.latchMode = .transparent ∧ s.outBit s.cfg.wiring.le.bank s.cfg.wiring.le.bit.toNat = true

section
variable {s t : State}

theorem ChainStep.clk_level (h : ChainStep s t) : t.lines.clk = level t s.cfg.wiring.clk := by rw [lines_eq, h.cfg]

theorem ChainStep.le_level (h : ChainStep s t) : t.lines.le = level t s.cfg.wiring.le := by rw [lines_eq, h.cfg]

/-- A write that leaves the clock's OUT bit keeps SR if the clock is driven before and after it (20 R74, R75). -/
theorem ChainStep.sr_keptIf (h : ChainStep s t)
    (hbit : t.outBit s.cfg.wiring.clk.bank s.cfg.wiring.clk.bit.toNat =
      s.outBit s.cfg.wiring.clk.bank s.cfg.wiring.clk.bit.toNat) :
    KeptIf (s.Drives s.cfg.wiring.clk ∧ t.Drives s.cfg.wiring.clk) s.sr t.sr := by
  rw [h.sr]
  refine ⟨fun ⟨hs, ht⟩ => ?_, fun hn => ?_⟩
  · have hafter := h.clk_level.trans (level_driven ht)
    rw [hbit] at hafter
    exact chainUpdate_no_edge s h.one (level_driven hs) hafter (by simp)
  · rcases not_and_or.mp hn with hs | ht
    · exact chainUpdate_clock_was_undriven s (level_undriven hs)
    · exact chainUpdate_clock_undriven s (h.clk_level.trans (level_undriven ht))

/-- A write before or after which LE floats leaves LATCH Unknown (20 R76). -/
theorem ChainStep.latch_unknown (h : ChainStep s t) (hn : ¬ (s.Drives s.cfg.wiring.le ∧ t.Drives s.cfg.wiring.le)) :
    t.latch = .unknown := by
  rw [h.latch, chainUpdate_latch s h.one]
  refine latchRule_undriven _ _ ((not_and_or.mp hn).imp level_undriven fun ht => ?_)
  exact h.le_level.trans (level_undriven ht)

/-- A write that leaves a driven LE as it is sets LATCH to SR under an open transparent latch, and else keeps it. -/
theorem ChainStep.latch_driven (h : ChainStep s t)
    (hbit : t.outBit s.cfg.wiring.le.bank s.cfg.wiring.le.bit.toNat =
      s.outBit s.cfg.wiring.le.bank s.cfg.wiring.le.bit.toNat)
    (hd : s.Drives s.cfg.wiring.le ∧ t.Drives s.cfg.wiring.le) :
    (s.LatchOpen → t.latch = t.sr) ∧ (¬ s.LatchOpen → t.latch = s.latch) := by
  have hbefore : s.lines.le = .driven _ := level_driven hd.1
  have hafter := h.le_level.trans (level_driven hd.2)
  rw [hbit] at hafter
  rw [h.latch, chainUpdate_latch s h.one, hbefore, hafter, ← h.sr]
  refine ⟨fun ⟨hm, hhigh⟩ => by rw [hm, hhigh]; rfl, fun hshut => latchRule_shut _ _ fun hm => ?_⟩
  exact Bool.eq_false_of_not_eq_true fun hhigh => hshut ⟨hm, hhigh⟩

theorem pinWrite_chainStep (hs : s.SoleWriter) (hw : wiringLegal s.cfg.wiring = true) (p : Pin) (y : Level) :
    ChainStep s (pinWrite p y s) :=
  ⟨pinWrite_cfg p y s, changedLines_le_one hw (pinWrite_cfg p y s) fun _ => pinWrite_level_apart hs y,
    (pinWrite_chain hs p y).1, (pinWrite_chain hs p y).2⟩

end

/-! ### Writes that leave the OUT bits of CLK and LE -/

/-- What writes that leave the parameters and the OUT bits of CLK and LE do to the cells: SR is kept if `clk` holds,
and LATCH, unless the latch is open, if `le` does; else they become Unknown. -/
structure CellsKeptIf (clk le : Prop) (s t : State) : Prop where
  cfg : t.cfg = s.cfg
  leBit : t.outBit s.cfg.wiring.le.bank s.cfg.wiring.le.bit.toNat =
    s.outBit s.cfg.wiring.le.bank s.cfg.wiring.le.bit.toNat
  sr : KeptIf clk s.sr t.sr
  latch : ¬ s.LatchOpen → KeptIf le s.latch t.latch

section
variable {s t u : State} {clk le clk' le' : Prop}

theorem CellsKeptIf.latchOpen (h : CellsKeptIf clk le s t) : t.LatchOpen ↔ s.LatchOpen := by
  rw [State.LatchOpen, State.LatchOpen, h.cfg, h.leBit]

theorem CellsKeptIf.trans (h : CellsKeptIf clk le s t) (h' : CellsKeptIf clk' le' t u) :
    CellsKeptIf (clk ∧ clk') (le ∧ le') s u where
  cfg := h'.cfg.trans h.cfg
  leBit := (h.cfg ▸ h'.leBit).trans h.leBit
  sr := h.sr.trans h'.sr
  latch hshut := (h.latch hshut).trans (h'.latch fun ho => hshut (h.latchOpen.mp ho))

theorem CellsKeptIf.congr (h : CellsKeptIf clk le s t) (hclk : clk ↔ clk') (hle : le ↔ le') :
    CellsKeptIf clk' le' s t := propext hclk ▸ propext hle ▸ h

theorem ChainStep.cellsKeptIf (h : ChainStep s t)
    (hclk : t.outBit s.cfg.wiring.clk.bank s.cfg.wiring.clk.bit.toNat =
      s.outBit s.cfg.wiring.clk.bank s.cfg.wiring.clk.bit.toNat)
    (hle : t.outBit s.cfg.wiring.le.bank s.cfg.wiring.le.bit.toNat =
      s.outBit s.cfg.wiring.le.bank s.cfg.wiring.le.bit.toNat) :
    CellsKeptIf (s.Drives s.cfg.wiring.clk ∧ t.Drives s.cfg.wiring.clk)
      (s.Drives s.cfg.wiring.le ∧ t.Drives s.cfg.wiring.le) s t where
  cfg := h.cfg
  leBit := hle
  sr := h.sr_keptIf hclk
  latch hshut := ⟨fun hd => (h.latch_driven hle hd).2 hshut, h.latch_unknown⟩

end

/-! ### PinSetMode to Output -/

/-- Which lines are driven once one pin's DIR bit is replaced (20 R70). -/
theorem drives_of_dir_set {s t : State} {p : Pin} {x : Bool} (hc : t.cfg = s.cfg)
    (hd : t.dir = s.dir.set p.bank (withBit (s.dir.get p.bank) p.bit x)) (q : Pin) :
    t.Drives q ↔ (IsLine p q.bank q.bit.toNat ∧ x = s.cfg.dirDriveValue) ∨
      (¬ IsLine p q.bank q.bit.toNat ∧ s.Drives q) := by
  rw [State.Drives, hc, hd, dirBit_set]
  by_cases h : IsLine p q.bank q.bit.toNat
  · rw [if_pos ⟨h.1.symm, h.2.symm⟩]
    simp [h]
  · rw [if_neg fun hq => h ⟨hq.1.symm, hq.2.symm⟩]
    simp [h, State.Drives, State.dirBit]

/-- One cycle of a read of DIR and a write of it with the pin's bit replaced (40 R122). -/
def dirBitCycle (p : Pin) (x : Bool) (s : State) : State :=
  dirCycle p.bank (withBit (s.dir.get p.bank) p.bit x) s

section
variable {s : State} {p : Pin} {x : Bool}

theorem dirBitCycle_cfg : (dirBitCycle p x s).cfg = s.cfg := dirCycle_cfg _ _ _

theorem dirBitCycle_soleWriter (hs : s.SoleWriter) : (dirBitCycle p x s).SoleWriter := dirCycle_soleWriter hs _ _

theorem dirBitCycle_out (hs : s.SoleWriter) : (dirBitCycle p x s).out = s.out :=
  (((vRead_accessOn (P := fun _ => True) (R := (· = .dir)) (b := p.bank) trivial .dir s).trans
    (vWrite_accessOn (R := (· = .dir)) (r := .dir) trivial rfl _ _)).other_kind hs).2 nofun

theorem dirBitCycle_drives (hs : s.SoleWriter) (q : Pin) : (dirBitCycle p x s).Drives q ↔
    (IsLine p q.bank q.bit.toNat ∧ x = s.cfg.dirDriveValue) ∨ (¬ IsLine p q.bank q.bit.toNat ∧ s.Drives q) :=
  drives_of_dir_set dirBitCycle_cfg (dirCycle_dir hs _ _) q

theorem dirBitCycle_chainStep (hs : s.SoleWriter) (hw : wiringLegal s.cfg.wiring = true) :
    ChainStep s (dirBitCycle p x s) := by
  have hchain := vWrite_chain hs (.rd p.bank .dir (s.dir.get p.bank)) p.bank .dir (withBit (s.dir.get p.bank) p.bit x)
  have heq : dirBitCycle p x s = vWrite p.bank .dir (withBit (s.dir.get p.bank) p.bit x)
      (record (.rd p.bank .dir (s.dir.get p.bank)) s) := by rw [dirBitCycle, dirCycle, vRead_dir_sole hs]
  have hlevel : ∀ q, ¬ IsLine q p.bank p.bit.toNat → level (dirBitCycle p x s) q = level s q := fun q hq => by
    simp only [level, dirBitCycle_cfg, dirBitCycle_out hs]
    exact (congrArg (fun d => lineLevel s.cfg d s.out q) (dirCycle_dir hs _ _)).trans (level_setReg_withBit s .dir x hq)
  exact ⟨dirBitCycle_cfg, changedLines_le_one hw dirBitCycle_cfg hlevel, heq ▸ hchain.1, heq ▸ hchain.2⟩

theorem dirBitCycle_cellsKeptIf (hs : s.SoleWriter) (hw : wiringLegal s.cfg.wiring = true) :
    CellsKeptIf (s.Drives s.cfg.wiring.clk ∧ (dirBitCycle p x s).Drives s.cfg.wiring.clk)
      (s.Drives s.cfg.wiring.le ∧ (dirBitCycle p x s).Drives s.cfg.wiring.le) s (dirBitCycle p x s) := by
  refine (dirBitCycle_chainStep hs hw).cellsKeptIf ?_ ?_ <;> simp only [State.outBit, dirBitCycle_out hs]

/-- PinSetMode is one cycle of DIR or, with `DIR_TWO_PHASE`, two, of which the first clears the bit (40 R122). -/
theorem pinSetMode_eq_cycles (hs : s.SoleWriter) (m : Mode) : pinSetMode s p m =
    if s.cfg.dirTwoPhase then dirBitCycle p m.toBit (dirBitCycle p false s) else dirBitCycle p m.toBit s := by
  cases h : s.cfg.dirTwoPhase with
  | false => exact bankSetDir_one_cycle hs h p.bank p.bit m
  | true =>
    have hread : (dirBitCycle p false s).dir.get p.bank = withBit (s.dir.get p.bank) p.bit false := by
      rw [dirBitCycle, dirCycle_dir hs, perBank_get_set_self]
    rw [if_pos rfl, dirBitCycle, hread, withBit_withBit]
    exact bankSetDir_two_cycles hs h p.bank p.bit m

end

/-- Pin `q`'s line is driven now and stays driven while the listed pins are set to Output: it is none of theirs, or DIR
bit 1 drives it and the bit is not cleared first (40 R122). -/
def State.StaysDriven (s : State) (ps : List Pin) (q : Pin) : Prop :=
  s.Drives q ∧ ((∃ p ∈ ps, IsLine p q.bank q.bit.toNat) → s.cfg.dirDriveValue = true ∧ s.cfg.dirTwoPhase = false)

section
variable {s : State} (hs : s.SoleWriter)
include hs

/-- PinSetMode to Output keeps the cells of a line that stays driven. -/
theorem pinSetMode_output_cellsKeptIf (hw : wiringLegal s.cfg.wiring = true) (p : Pin) :
    CellsKeptIf (s.StaysDriven [p] s.cfg.wiring.clk) (s.StaysDriven [p] s.cfg.wiring.le) s
      (pinSetMode s p .output) := by
  rw [pinSetMode_eq_cycles hs]
  cases htwo : s.cfg.dirTwoPhase with
  | false =>
    have hstays : ∀ q, s.Drives q ∧ (dirBitCycle p true s).Drives q ↔ s.StaysDriven [p] q := fun q => by
      simp only [dirBitCycle_drives hs, State.StaysDriven, List.mem_singleton, exists_eq_left, htwo,
        eq_comm (a := true)]
      tauto
    exact (dirBitCycle_cellsKeptIf hs hw).congr (hstays _) (hstays _)
  | true =>
    have hmid := dirBitCycle_soleWriter (p := p) (x := false) hs
    have hfirst := dirBitCycle_cellsKeptIf (p := p) (x := false) hs hw
    have hsecond := dirBitCycle_cellsKeptIf (p := p) (x := true) hmid (by rwa [dirBitCycle_cfg])
    rw [dirBitCycle_cfg] at hsecond
    have hstays : ∀ q, (s.Drives q ∧ (dirBitCycle p false s).Drives q) ∧
        ((dirBitCycle p false s).Drives q ∧ (dirBitCycle p true (dirBitCycle p false s)).Drives q) ↔
          s.StaysDriven [p] q := fun q => by
      simp only [dirBitCycle_drives hmid, dirBitCycle_drives hs, dirBitCycle_cfg, State.StaysDriven,
        List.mem_singleton, exists_eq_left, htwo]
      cases s.cfg.dirDriveValue <;> simp <;> tauto
    exact (hfirst.trans hsecond).congr (hstays _) (hstays _)

/-! ### Pins set to Output one after another -/

theorem pinSetMode_output_drives (p q : Pin) : (pinSetMode s p .output).Drives q ↔
    (IsLine p q.bank q.bit.toNat ∧ true = s.cfg.dirDriveValue) ∨ (¬ IsLine p q.bank q.bit.toNat ∧ s.Drives q) :=
  drives_of_dir_set (bankSetDir_control _ _ _ s).cfg (bankSetDir_dir hs _ _ _) q

theorem staysDriven_cons (p : Pin) (ps : List Pin) (q : Pin) :
    s.StaysDriven [p] q ∧ (pinSetMode s p .output).StaysDriven ps q ↔ s.StaysDriven (p :: ps) q := by
  have hcfg : (pinSetMode s p .output).cfg = s.cfg := (bankSetDir_control _ _ _ s).cfg
  simp only [State.StaysDriven, pinSetMode_output_drives hs, hcfg, List.mem_cons, List.not_mem_nil, or_false,
    exists_eq_left, exists_eq_or_imp, eq_comm (a := true)]
  by_cases h : IsLine p q.bank q.bit.toNat
  · simp only [h]; tauto
  · simp [h]

end

/-- Pins set to Output one after another keep the cells of a line that stays driven. -/
theorem setOutputs_cellsKeptIf (p : Pin) (ps : List Pin) {s : State} (hs : s.SoleWriter)
    (hw : wiringLegal s.cfg.wiring = true) :
    CellsKeptIf (s.StaysDriven (p :: ps) s.cfg.wiring.clk) (s.StaysDriven (p :: ps) s.cfg.wiring.le) s
      (setOutputs (p :: ps) s) := by
  induction ps generalizing p s with
  | nil => exact pinSetMode_output_cellsKeptIf hs hw p
  | cons p' ps ih =>
    have hcfg : (pinSetMode s p .output).cfg = s.cfg := (bankSetDir_control _ _ _ s).cfg
    have hsole : (pinSetMode s p .output).SoleWriter := bankSetDir_soleWriter hs p.bank p.bit .output
    have hrest := ih p' hsole (hcfg ▸ hw)
    rw [hcfg] at hrest
    exact ((pinSetMode_output_cellsKeptIf hs hw p).trans hrest).congr (staysDriven_cons hs p _ _)
      (staysDriven_cons hs p _ _)

end Sys2Proof.Machine
end

section
/-! SUPPORT. What LNEW leaves when its setups succeed (43 R163, R167), from its four PinSetMode and its DriveOE; and the
settled statements about it. -/

namespace Sys2Proof.Machine

open Spec

/-! ### The registers and events of the four PinSetMode -/

theorem setOutputs_out {s : State} (hs : s.SoleWriter) (ps : List Pin) : (setOutputs ps s).out = s.out :=
  ((setOutputs_accessOn (P := fun _ => True) (R := (· = .dir)) ps rfl (fun _ _ => trivial) s).other_kind hs).2 nofun

@[simp] theorem setOutputs_cfg (ps : List Pin) (s : State) : (setOutputs ps s).cfg = s.cfg :=
  (setOutputs_accessOn (P := fun _ => True) (R := fun _ => True) ps trivial (fun _ _ => trivial) s).control.cfg

theorem setOutputs_dirBit (ps : List Pin) {s : State} (hs : s.SoleWriter) (b : BankId) (j : Nat) :
    (setOutputs ps s).dirBit b j = true ↔ (∃ p ∈ ps, IsLine p b j) ∨ s.dirBit b j = true := by
  induction ps generalizing s with
  | nil => simp [setOutputs]
  | cons p ps ih =>
    have hfirst : (bankSetDir p.bank p.bit .output s).dirBit b j = true ↔ IsLine p b j ∨ s.dirBit b j = true := by
      rw [bankSetDir_dirBit hs, IsLine, eq_comm (a := p.bank), eq_comm (b := j)]
      split <;> simp_all [Mode.toBit]
    refine (ih (bankSetDir_soleWriter hs p.bank p.bit .output)).trans ?_
    rw [hfirst, or_left_comm]
    simp only [List.mem_cons, exists_eq_or_imp, or_assoc]

theorem setOutputs_trace_length (ps : List Pin) {s : State} (hs : s.SoleWriter) :
    (setOutputs ps s).trace.length = s.trace.length + ps.length * if s.cfg.dirTwoPhase then 4 else 2 := by
  induction ps generalizing s with
  | nil => simp [setOutputs]
  | cons p ps ih =>
    refine (ih (bankSetDir_soleWriter hs p.bank p.bit .output)).trans ?_
    rw [bankSetDir_trace_length hs, (bankSetDir_control _ _ _ s).cfg, List.length_cons]
    ring

/-- A line set to Output is driven exactly when DIR bit 1 drives it (20 R70). -/
theorem drives_of_dirBit {t : State} {p : Pin} (h : t.dirBit p.bank p.bit.toNat = true) :
    t.Drives p ↔ t.cfg.dirDriveValue = true := by
  change t.dirBit p.bank p.bit.toNat = _ ↔ _
  rw [h]
  exact eq_comm

theorem isLine_driverPins {c : Config} {b : BankId} {j : Nat} :
    (∃ p ∈ driverPins c.wiring, IsLine p b j) ↔ wiredLine c b j := by
  simp only [driverPins, List.mem_cons, List.not_mem_nil, or_false, exists_eq_or_imp, exists_eq_left, wiredLine,
    chainLine]
  tauto

/-! ### The construction of the driver -/

/-- The state after LNEW's four PinSetMode, in which OE still drives its old bit (70 R239). -/
def linesSet (u : State) : State := setOutputs (driverPins u.cfg.wiring) { u with drv := .constructed }

@[simp] theorem linesSet_cfg (u : State) : (linesSet u).cfg = u.cfg := setOutputs_cfg _ _

/-- LNEW's last access pair drives OE High, whatever its inversion flag (43 R163; 90 C7). -/
theorem constructDriver_eq (u : State) : constructDriver u =
    complete (pinWrite u.cfg.wiring.oe (true ^^ u.cfg.wiring.oe.inv) (linesSet u)) := by
  rw [← linesSet_cfg u]
  rfl

theorem constructDriver_accessOn (u : State) : ∃ v, constructDriver u = complete v ∧
    AccessOn (fun _ => True) (fun _ => True) { u with drv := .constructed } v :=
  ⟨_, rfl, (setOutputs_accessOn _ trivial (fun _ _ => trivial) _).trans (driveOE_accessOn trivial true _ trivial)⟩

section
variable {u : State} (hs : u.SoleWriter)
include hs

theorem linesSet_soleWriter : (linesSet u).SoleWriter := (soleWriter_of_cfg (linesSet_cfg u)).mpr hs

theorem linesSet_out : (linesSet u).out = u.out := setOutputs_out (s := { u with drv := .constructed }) hs _

theorem linesSet_dirBit (b : BankId) (j : Nat) :
    (linesSet u).dirBit b j = true ↔ wiredLine u.cfg b j ∨ u.dirBit b j = true := by
  rw [← isLine_driverPins]
  exact setOutputs_dirBit (driverPins u.cfg.wiring) (s := { u with drv := .constructed }) hs b j

theorem constructDriver_dirBit (b : BankId) (j : Nat) :
    (constructDriver u).dirBit b j = true ↔ wiredLine u.cfg b j ∨ u.dirBit b j = true := by
  rw [← linesSet_dirBit hs, constructDriver_eq, State.dirBit, complete_dir, pinWrite,
    bankWriteBit_dir (linesSet_soleWriter hs)]
  rfl

theorem constructDriver_outBit (b : BankId) (j : Nat) :
    (IsLine u.cfg.wiring.oe b j → (constructDriver u).outBit b j = true) ∧
    (¬ IsLine u.cfg.wiring.oe b j → (constructDriver u).outBit b j = u.outBit b j) := by
  rw [constructDriver_eq]
  refine ⟨?_, fun hne => ?_⟩
  · rintro ⟨rfl, rfl⟩
    refine (pinWrite_outBit_self _ _ _).trans ?_
    rw [Bool.xor_assoc, Bool.xor_self, Bool.xor_false]
  · refine (pinWrite_outBit_other (linesSet_soleWriter hs) _ hne).trans ?_
    rw [State.outBit, linesSet_out hs, State.outBit]

/-- The construction makes register accesses only: four PinSetMode and one PinWrite. -/
theorem constructDriver_events : ∃ evs, (constructDriver u).trace = u.trace ++ evs ∧ (∀ e ∈ evs, isAccess e = true) ∧
    evs.length = if u.cfg.dirTwoPhase then 18 else 10 := by
  obtain ⟨v, heq, hacc⟩ := constructDriver_accessOn u
  obtain ⟨evs, htrace, hon, -⟩ := hacc.trace
  have htrace' : (constructDriver u).trace = u.trace ++ evs := heq ▸ htrace
  have hset : (linesSet u).trace.length = u.trace.length + 4 * _ :=
    setOutputs_trace_length (driverPins u.cfg.wiring) (s := { u with drv := .constructed }) hs
  have hlen : (constructDriver u).trace.length = (linesSet u).trace.length + 2 := by
    rw [constructDriver_eq, complete_trace, pinWrite, bankWriteBit_trace (linesSet_soleWriter hs), List.length_append]
    rfl
  refine ⟨evs, htrace', fun e he => (hon e he).elim fun _ hb => hb.2.isAccess, ?_⟩
  rw [htrace', List.length_append, hset] at hlen
  split at hlen <;> simp_all <;> omega

/-- A wired line is driven throughout LNEW when it was driven and stays driven while the four pins are set. -/
theorem staysDriven_driverPins {q : Pin} (hq : q ∈ driverPins u.cfg.wiring) :
    u.StaysDriven (driverPins u.cfg.wiring) q ∧ (linesSet u).Drives q ↔ drivenThroughLnew u q := by
  have hset : (linesSet u).Drives q ↔ u.cfg.dirDriveValue = true := by
    rw [drives_of_dirBit, linesSet_cfg]
    exact (linesSet_dirBit hs _ _).mpr (.inl (isLine_driverPins.mp ⟨q, hq, rfl, rfl⟩))
  have hline : ∃ p ∈ driverPins u.cfg.wiring, IsLine p q.bank q.bit.toNat := ⟨q, hq, rfl, rfl⟩
  simp only [State.StaysDriven, hset, hline, drivenThroughLnew]
  tauto

theorem constructDriver_drives (q : Pin) : (constructDriver u).Drives q ↔ (linesSet u).Drives q := by
  rw [constructDriver_eq]
  exact pinWrite_drives (linesSet_soleWriter hs)

variable (hw : wiringLegal u.cfg.wiring = true)
include hw

theorem linesSet_cellsKeptIf : CellsKeptIf (u.StaysDriven (driverPins u.cfg.wiring) u.cfg.wiring.clk)
    (u.StaysDriven (driverPins u.cfg.wiring) u.cfg.wiring.le) u (linesSet u) := by
  obtain ⟨hcfg, hle, hsr, hlatch⟩ := setOutputs_cellsKeptIf u.cfg.wiring.data
    [u.cfg.wiring.clk, u.cfg.wiring.oe, u.cfg.wiring.le] (s := { u with drv := .constructed }) hs hw
  exact ⟨hcfg, hle, hsr, hlatch⟩

/-- The write of OE's bit is one step of the chain, which leaves the lines of CLK and LE. -/
theorem constructDriver_lastStep : ChainStep (linesSet u) (constructDriver u) := by
  rw [constructDriver_eq]
  obtain ⟨hcfg, hone, hsr, hlatch⟩ := pinWrite_chainStep (linesSet_soleWriter hs) (by rwa [linesSet_cfg])
    u.cfg.wiring.oe (true ^^ u.cfg.wiring.oe.inv)
  exact ⟨hcfg, hone, hsr, hlatch⟩

theorem constructDriver_chainLine_outBit {b : BankId} {j : Nat} (h : chainLine u.cfg b j) :
    (constructDriver u).outBit b j = (linesSet u).outBit b j := by
  rw [(constructDriver_outBit hs b j).2 fun hoe => not_chainLine_oe hw hoe h, State.outBit, State.outBit,
    linesSet_out hs]

/-- What LNEW does to the cells, but for an open transparent latch. -/
theorem constructDriver_cellsKeptIf : CellsKeptIf (drivenThroughLnew u u.cfg.wiring.clk)
    (drivenThroughLnew u u.cfg.wiring.le) u (constructDriver u) := by
  have hlast := (constructDriver_lastStep hs hw).cellsKeptIf
  rw [linesSet_cfg] at hlast
  refine ((linesSet_cellsKeptIf hs hw).trans (hlast
    (constructDriver_chainLine_outBit hs hw (.inr (.inl ⟨rfl, rfl⟩)))
    (constructDriver_chainLine_outBit hs hw (.inr (.inr ⟨rfl, rfl⟩))))).congr ?_ ?_ <;>
    rw [constructDriver_drives hs, and_self]
  · exact staysDriven_driverPins hs (by simp [driverPins])
  · exact staysDriven_driverPins hs (by simp [driverPins])

/-- LNEW ends with an open transparent latch holding SR (20 R76). -/
theorem constructDriver_latch_open (h : latchOpenAfterLnew u) : (constructDriver u).latch = (constructDriver u).sr := by
  obtain ⟨hdrive, hopen⟩ := h
  have hset : (linesSet u).Drives u.cfg.wiring.le := by
    refine (drives_of_dirBit ((linesSet_dirBit hs _ _).mpr (.inl ?_))).mpr (by rwa [linesSet_cfg])
    exact .inl (.inr (.inr ⟨rfl, rfl⟩))
  have hlast := (constructDriver_lastStep hs hw).latch_driven
  rw [linesSet_cfg] at hlast
  refine (hlast (constructDriver_chainLine_outBit hs hw (.inr (.inr ⟨rfl, rfl⟩)))
    ⟨hset, (constructDriver_drives hs _).mpr hset⟩).1 ?_
  exact (linesSet_cellsKeptIf hs hw).latchOpen.mpr hopen

/-- Unless a transparent latch ends open, LATCH is kept if LE was driven throughout (20 R76). -/
theorem constructDriver_latch_keptIf (h : ¬ latchOpenAfterLnew u) :
    KeptIf (drivenThroughLnew u u.cfg.wiring.le) u.latch (constructDriver u).latch := by
  cases hdrive : u.cfg.dirDriveValue with
  | true => exact (constructDriver_cellsKeptIf hs hw).latch fun hopen => h ⟨hdrive, hopen⟩
  | false =>
    refine ⟨fun hd => ?_, fun _ => ?_⟩
    · rw [hd.2.1] at hdrive
      cases hdrive
    · refine (constructDriver_lastStep hs hw).latch_unknown fun hd => ?_
      have hset := (drives_of_dirBit ((linesSet_dirBit hs _ _).mpr (.inl (.inl (.inr (.inr ⟨rfl, rfl⟩)))))).mp
        (linesSet_cfg u ▸ hd.1)
      rw [linesSet_cfg, hdrive] at hset
      cases hset

end

/-! ### LNEW -/

/-- LNEW on a block ready for it acquires the three banks and constructs the driver (43 R163). -/
theorem exec_lnew_of_ready {s : State} {rest : List SetupOutcome} (h : ReadyForLnew s rest) :
    ∃ u, Acquired banks s u ∧ exec .lnew s = .next (constructDriver u) := by
  obtain ⟨u, hacq, -, heq⟩ := acquireBanks_of_ok (encode .lnew) banks [] constructDriver h.setups
  exact ⟨u, hacq, (exec_lnew_of_closed h.ready h.driver h.closed).trans (congrArg _ heq)⟩

theorem drivenThroughLnew_congr {s u : State} (hc : u.cfg = s.cfg) (hd : u.dir = s.dir) (p : Pin) :
    drivenThroughLnew u p ↔ drivenThroughLnew s p := by
  simp only [drivenThroughLnew, State.Drives, hc, hd]

theorem latchOpenAfterLnew_congr {s u : State} (hc : u.cfg = s.cfg) (ho : u.out = s.out) :
    latchOpenAfterLnew u ↔ latchOpenAfterLnew s := by
  simp only [latchOpenAfterLnew, State.outBit, hc, ho]

/-- Settles O41: the banks are acquired without a register access, and then the driver is constructed. -/
theorem lnewConstructsTheDriver : Obligations.LnewConstructsTheDriver := by
  intro s rest h hs
  obtain ⟨u, hacq, hexec⟩ := exec_lnew_of_ready h
  have hcfg := hacq.quiet.cfg
  obtain ⟨hdir, hout, hsr, hlatch⟩ := hacq.quiet.registers hs
  have hus : u.SoleWriter := (soleWriter_of_cfg hcfg).mpr hs
  have hw : wiringLegal u.cfg.wiring = true := hcfg ▸ ((configLegal_iff _).mp h.ready.legal).2.1
  have hdirBit := constructDriver_dirBit hus
  have houtBit := constructDriver_outBit hus
  have hcells := (constructDriver_cellsKeptIf hus hw).sr
  have hopen := constructDriver_latch_open hus hw
  have hkept := constructDriver_latch_keptIf hus hw
  simp only [State.dirBit, State.outBit, hdir, hout, hcfg] at hdirBit houtBit
  simp only [drivenThroughLnew_congr hcfg hdir, latchOpenAfterLnew_congr hcfg hout, hcfg, hsr, hlatch]
    at hcells hopen hkept
  obtain ⟨evs, htrace, haccess, hlen⟩ := constructDriver_events hus
  obtain ⟨v, heq, hacc⟩ := constructDriver_accessOn u
  obtain ⟨hvcfg, hvfd, hvmap, hvdrv, hvphase, hvcommands⟩ := hacc.control
  refine ⟨constructDriver u, hexec, ?_, ?_, ?_, fun b => ?_, ?_, ?_, ?_, fun b j => ⟨fun hb => ?_, fun hb => ?_⟩,
    houtBit, hcells.1, hcells.2, hopen, fun hshut => (hkept hshut).1, fun hshut => (hkept hshut).2, evs, ?_, haccess,
    hcfg ▸ hlen⟩
  · exact heq ▸ congrArg (· + 1) (hacc.pc.trans hacq.quiet.pc)
  · exact heq ▸ hvphase.trans (hacq.phase.trans h.ready.running)
  · exact heq ▸ hvdrv
  · have hbank : b ∈ banks := by cases b <;> decide
    simp [heq, bankOpen, hvfd, hvmap, hacq.fd, hacq.map, hbank]
  · exact heq ▸ hacc.res.trans hacq.quiet.res
  · exact heq ▸ hvcfg.trans hcfg
  · exact heq ▸ hvcommands.trans hacq.quiet.commands
  · exact (hdirBit b j).mpr (.inl hb)
  · exact Bool.eq_iff_iff.mpr ((hdirBit b j).trans (by simp [hb, State.dirBit]))
  · rw [htrace, hacq.trace]
    rfl

/-- Settles O43: LNEW sets the four DIR bits and OE's OUT bit, which gives the four levels. -/
theorem lnewEndsDisabled : Obligations.LnewEndsDisabled := by
  intro s t rest h hs hexec
  obtain ⟨t', hexec', -, -, -, -, -, hcfg, -, hdir, hout, -⟩ := lnewConstructsTheDriver s rest h hs
  obtain rfl : t' = t := Host.Outcome.next.inj (hexec'.symm.trans hexec)
  have hdrives : ∀ p ∈ driverPins s.cfg.wiring, t'.Drives p ↔ s.cfg.dirDriveValue = true := fun p hp => by
    rw [drives_of_dirBit ((hdir _ _).1 (isLine_driverPins.mp ⟨p, hp, rfl, rfl⟩)), hcfg]
  refine ⟨fun hv => ?_, fun hv => ?_⟩
  · have hall : ∀ p ∈ driverPins s.cfg.wiring, t'.Drives p := fun p hp => (hdrives p hp).mpr hv
    have hoe : level t' t'.cfg.wiring.oe = .driven true := by
      rw [hcfg, level_driven (hall _ (by simp [driverPins])), (hout _ _).1 ⟨rfl, rfl⟩]
    refine ⟨displayState_of_driven hoe, ?_, ?_, ?_⟩ <;> rw [hcfg] <;> exact hall _ (by simp [driverPins])
  · have hnone : ∀ p ∈ driverPins s.cfg.wiring, level t' p = .undriven := fun p hp =>
      level_undriven fun hd => by simp [(hdrives p hp).mp hd] at hv
    refine ⟨?_, hnone⟩
    rw [displayState, hcfg, hnone _ (by simp [driverPins])]

end Sys2Proof.Machine
end

section
/-! SUPPORT. LSET as 127 pin writes (43 R166): its events, the bits it leaves, and when it strobes the latch (43 R169);
and the settled statements about them. -/

namespace Sys2Proof.Machine

open Spec

/-! ### The writes of LSET -/

/-- The writes of LSET between its first, LE Low, and its latch pulse: they are of DATA and CLK (43 R166). -/
def lsetBetween (w : Wiring) (bytes : List Byte) : List (Pin × Level) :=
  [(w.data, false), (w.clk, false), (w.data, true)] ++ lsetShift w bytes ++ [(w.clk, false)]

/-- Step 5 of LSET (43 R166). -/
def latchPulse (w : Wiring) : List (Pin × Level) := [(w.le, true), (w.le, false)]

theorem pinWrites_cons (x : Pin × Level) (ws : List (Pin × Level)) (s : State) :
    pinWrites (x :: ws) s = pinWrites ws (pinWrite x.1 x.2 s) := rfl

theorem lsetWrites_eq (w : Wiring) (bytes : List Byte) :
    lsetWrites w bytes = (w.le, false) :: (lsetBetween w bytes ++ latchPulse w) := by
  simp [lsetWrites, lsetBaseline, lsetCommit, lsetBetween, latchPulse]

/-- LSET shifts the 40 bits of its bytes (43 R166 step 3). -/
theorem lsetShift_eq (w : Wiring) (bytes : List Byte) :
    lsetShift w bytes = (bitsOf bytes).flatMap (shiftBitWrites w.data w.clk) := List.flatMap_assoc.symm

theorem length_bitsOf (bytes : List Byte) : (bitsOf bytes).length = 8 * bytes.length := by
  simp [bitsOf, List.length_flatMap, Nat.mul_comm]

theorem length_lsetBetween (w : Wiring) (bytes : List Byte) :
    (lsetBetween w bytes).length = 4 + 24 * bytes.length := by
  simp only [lsetBetween, lsetShift_eq, List.length_append, length_flatMap_shiftBitWrites, length_bitsOf,
    List.length_cons, List.length_nil]
  omega

theorem mem_lsetBetween {w : Wiring} {bytes : List Byte} {x : Pin × Level} (h : x ∈ lsetBetween w bytes) :
    x.1 = w.data ∨ x.1 = w.clk := by
  simp only [lsetBetween, lsetShift, List.mem_append, List.mem_cons, List.not_mem_nil, or_false, List.mem_flatMap] at h
  rcases h with ((rfl | rfl | rfl) | ⟨y, -, hy⟩) | rfl
  case inl.inr => exact mem_shiftOutWrites hy
  all_goals simp

/-- LSET's last three writes: the clock Low, then the latch pulse. -/
theorem lset_end (w : Wiring) (bytes : List Byte) (s : State) : pinWrites (lsetWrites w bytes) s =
    pinWrite w.le false (pinWrite w.le true (pinWrite w.clk false
      (pinWrites (lsetBaseline w ++ lsetShift w bytes) s))) := by
  rw [lsetWrites, pinWrites_append]
  rfl

/-- The last byte of LSET is shifted just before its last three writes. -/
theorem lset_end_byte (w : Wiring) (bytes : List Byte) (x : Byte) (s : State) :
    pinWrites (lsetBaseline w ++ lsetShift w (bytes ++ [x])) s =
      shiftOut w.data w.clk .lsb x (pinWrites (lsetBaseline w ++ lsetShift w bytes) s) := by
  rw [lsetShift, List.flatMap_append, ← List.append_assoc, pinWrites_append]
  simp [shiftOut, lsetShift]

/-! ### LSET, completed -/

/-- LSET with the driver constructed and its banks open is its pin writes (43 R166). -/
theorem exec_lset_of_ready {s : State} (h : ReadyForLset s) (a b c d e : Byte) :
    exec (.lset a b c d e) s = .next (complete (pinWrites (lsetWrites s.cfg.wiring [a, b, c, d, e]) s)) := by
  rw [exec_lset_eq, command_ready h.ready, needDriver_of_constructed h.driver]
  refine congrArg _ ((needOpen_of_open h.data _).trans ((needOpen_of_open h.clk _).trans (needOpen_of_open h.le _)))

section
variable {w : Wiring} {s : State}

theorem lset_le_bit (bytes : List Byte) :
    (pinWrites (lsetWrites w bytes) s).outBit w.le.bank w.le.bit.toNat = w.le.inv := by
  rw [lset_end, pinWrite_outBit_self, Bool.false_xor]

theorem lset_clk_bit (hs : s.SoleWriter) (hcl : pinsApart w.clk w.le = true) (bytes : List Byte) :
    (pinWrites (lsetWrites w bytes) s).outBit w.clk.bank w.clk.bit.toNat = w.clk.inv := by
  have hclk := pinWrite_soleWriter (pinWrites_soleWriter hs (lsetBaseline w ++ lsetShift w bytes)) w.clk false
  have hne := not_isLine_of_pinsApart hcl ⟨rfl, rfl⟩
  rw [lset_end, pinWrite_outBit_other (pinWrite_soleWriter hclk _ _) _ hne, pinWrite_outBit_other hclk _ hne,
    pinWrite_outBit_self, Bool.false_xor]

theorem lset_data_bit (hs : s.SoleWriter) (hdc : pinsApart w.data w.clk = true) (hdl : pinsApart w.data w.le = true)
    (bytes : List Byte) (x : Byte) :
    (pinWrites (lsetWrites w (bytes ++ [x])) s).outBit w.data.bank w.data.bit.toNat = (x.getLsbD 7 ^^ w.data.inv) := by
  have hshift := pinWrites_soleWriter hs (lsetBaseline w ++ lsetShift w (bytes ++ [x]))
  have hclk := pinWrite_soleWriter hshift w.clk false
  have hle := not_isLine_of_pinsApart hdl ⟨rfl, rfl⟩
  have hck := not_isLine_of_pinsApart hdc ⟨rfl, rfl⟩
  rw [lset_end, pinWrite_outBit_other (pinWrite_soleWriter hclk _ _) _ hle, pinWrite_outBit_other hclk _ hle,
    pinWrite_outBit_other hshift _ hck, lset_end_byte, shiftOut_data_bit (pinWrites_soleWriter hs _) hck]
  rfl

end

/-- LSET leaves the OUT bits of lines that are no inputs of the chain. -/
theorem lset_outBit_other {s : State} (hs : s.SoleWriter) (bytes : List Byte) {b : BankId} {j : Nat}
    (h : ¬ chainLine s.cfg b j) : (pinWrites (lsetWrites s.cfg.wiring bytes) s).outBit b j = s.outBit b j := by
  simp only [chainLine, not_or] at h
  obtain ⟨hd, hc, hl⟩ := h
  refine pinWrites_outBit_other hs _ fun x hx => ?_
  rcases mem_lsetWrites hx with h | h | h <;> rw [h] <;> assumption

theorem displayState_congr {s t : State} (hc : t.cfg = s.cfg)
    (h : level t s.cfg.wiring.oe = level s s.cfg.wiring.oe) : displayState t = displayState s := by
  simp only [displayState, hc, h]

/-- Settles O46: the 127 pin writes, completed. -/
theorem lsetDrivesItsThreePins : Obligations.LsetDrivesItsThreePins := by
  intro s a b c d e h hs w
  obtain ⟨-, hw, -, -⟩ := (configLegal_iff _).mp h.ready.legal
  obtain ⟨⟨hdc, -, hdl⟩, ⟨-, hcl⟩, -⟩ := (wiringLegal_iff _).mp hw
  have hexec := exec_lset_of_ready h a b c d e
  have hacc := lset_accessOn (P := fun _ => True) (R := (· = .out)) (w := w) rfl trivial trivial trivial
    [a, b, c, d, e] s
  have hother := fun b' j => lset_outBit_other (b := b') (j := j) hs [a, b, c, d, e]
  have hdata := lset_data_bit hs hdc hdl [a, b, c, d] e
  have hclk := lset_clk_bit hs hcl [a, b, c, d, e]
  have hle := lset_le_bit (w := w) (s := s) [a, b, c, d, e]
  have htrace := pinWrites_trace (lsetWrites w [a, b, c, d, e]) s
  rw [List.cons_append, List.cons_append, List.cons_append, List.cons_append, List.nil_append] at hdata
  generalize pinWrites (lsetWrites w [a, b, c, d, e]) s = t at *
  have hdir : t.dir = s.dir := (hacc.other_kind hs).1 nofun
  refine ⟨complete t, hexec, rfl, hacc.control.complete, hacc.res, congrArg (· + 1) hacc.pc, hdir, ?_, hother, hdata,
    hclk, hle, ?_⟩
  · rw [complete_trace, htrace, List.length_append, pinWritesEvents_length, lsetWrites_eq]
    simp [length_lsetBetween, latchPulse]
  · refine displayState_congr (t := complete t) hacc.control.cfg (level_congr hacc.control.cfg ?_ ?_)
    · exact congrArg (fun r : PerBank Word => (r.get w.oe.bank).getLsbD w.oe.bit.toNat) hdir
    · exact hother _ _ (not_chainLine_oe hw ⟨rfl, rfl⟩)

/-! ### The latch while LSET runs -/

/-- A write of LE commits as the latch mode says of LE's level before it and after it (20 R76). -/
theorem pinWrite_le_latch {s : State} (hs : s.SoleWriter) (hw : wiringLegal s.cfg.wiring = true)
    (hle : s.Drives s.cfg.wiring.le) (y : Level) : (pinWrite s.cfg.wiring.le y s).latch =
      latchRule s.cfg.latchMode (.driven (s.outBit s.cfg.wiring.le.bank s.cfg.wiring.le.bit.toNat))
        (.driven (y ^^ s.cfg.wiring.le.inv)) (pinWrite s.cfg.wiring.le y s).sr s.latch := by
  have hstep := pinWrite_chainStep hs hw s.cfg.wiring.le y
  have hbefore : s.lines.le = .driven _ := level_driven hle
  rw [hstep.latch, chainUpdate_latch s hstep.one, hbefore, hstep.le_level, pinWrite_level_self hs hle, ← hstep.sr]

/-- LSET's first write, LE Low, commits in the cases of 43 R169 only. -/
theorem lset_first_write {s : State} (hs : s.SoleWriter) (hw : wiringLegal s.cfg.wiring = true)
    (hle : s.Drives s.cfg.wiring.le) (hn : ¬ mayCommitEarly s) :
    (pinWrite s.cfg.wiring.le false s).latch = s.latch ∧ (pinWrite s.cfg.wiring.le false s).LatchShut := by
  simp only [mayCommitEarly] at hn
  refine ⟨?_, s.cfg.wiring.le.inv, ?_, fun hm => ?_⟩
  · rw [pinWrite_le_latch hs hw hle, Bool.false_xor]
    revert hn
    cases s.cfg.latchMode <;> cases s.cfg.wiring.le.inv <;>
      cases s.outBit s.cfg.wiring.le.bank s.cfg.wiring.le.bit.toNat <;> simp [latchRule]
  · rw [pinWrite_cfg, pinWrite_level_self hs hle, Bool.false_xor]
  · rw [pinWrite_cfg] at hm
    simpa [hm] using hn

/-- Settles O48: after the first write the latch is shut, and the writes before step 5 are of DATA and CLK. -/
theorem lsetUpdatesTheDisplayOnce : Obligations.LsetUpdatesTheDisplayOnce := by
  intro s bytes hlen hl hd hs
  obtain ⟨-, hw, -, -⟩ := (configLegal_iff _).mp hl
  obtain ⟨⟨-, hdo, hdl⟩, ⟨hco, hcl⟩, -⟩ := (wiringLegal_iff _).mp hw
  refine ⟨fun hn n hle => ?_, fun hcommit => ?_⟩
  · obtain ⟨hlatch, hshut⟩ := lset_first_write hs hw hd.le hn
    cases n with
    | zero => rfl
    | succ n =>
      have hbetween : n ≤ (lsetBetween s.cfg.wiring bytes).length := by rw [length_lsetBetween, hlen]; omega
      rw [lsetWrites_eq, List.take_succ_cons, List.take_append_of_le_length hbetween]
      refine Eq.trans (State.KeepsDisplay.latch ?_) hlatch
      refine pinWrites_keepsDisplay _ (pinWrite_soleWriter hs _ _) (by rwa [pinWrite_cfg]) hshut fun x hx => ?_
      rw [pinWrite_cfg]
      rcases mem_lsetBetween (List.mem_of_mem_take hx) with h | h <;> rw [h]
      exacts [⟨hdl, hdo⟩, ⟨hcl, hco⟩]
  · simp only [mayCommitEarly, pinWrites_cfg, lset_le_bit] at hcommit ⊢
    rcases hcommit with ⟨hinv, -, hhigh⟩ | ⟨hinv, -, hlow⟩ | h
    · rw [hinv] at hhigh; cases hhigh
    · rw [hinv] at hlow; cases hlow
    · exact h

end Sys2Proof.Machine
end

section
/-! SUPPORT. What LSET clocks into the chain and commits (43 R168): the rising clock edges of its writes, the bits that
stay in the chain, the latch pulse; LNEW, LSET and LENABLE one after another (43 R170); and the settled statements. -/

namespace Sys2Proof.Machine

open Spec

/-! ### The clock edges of LSET -/

theorem pinWrites_drives {s : State} (hs : s.SoleWriter) (ws : List (Pin × Level)) {q : Pin} :
    (pinWrites ws s).Drives q ↔ s.Drives q := by
  induction ws generalizing s with
  | nil => rfl
  | cons x ws ih => exact (ih (pinWrite_soleWriter hs _ _)).trans (pinWrite_drives hs)

/-- Iterations of ShiftOut leave a logical Low clock logical Low. -/
theorem iterations_clock_bit {d c : Pin} (bits : List Bool) {s : State} (h : s.outBit c.bank c.bit.toNat = c.inv) :
    (pinWrites (bits.flatMap (shiftBitWrites d c)) s).outBit c.bank c.bit.toNat = c.inv := by
  induction bits generalizing s with
  | nil => exact h
  | cons y bits ih =>
    rw [List.flatMap_cons, pinWrites_append]
    exact ih ((pinWrite_outBit_self c false _).trans (Bool.false_xor _))

theorem pinsApart_comm (p q : Pin) : pinsApart p q = pinsApart q p := by
  simp only [pinsApart, bne_comm]

/-- What the edges of LSET need: nobody else writes, the wiring is legal, DATA and CLK are driven. -/
structure State.ClocksLset (w : Wiring) (s : State) : Prop where
  sole : s.SoleWriter
  wiring : wiringLegal w = true
  data : s.Drives w.data
  clk : s.Drives w.clk

section
variable {w : Wiring} {s : State} (h : s.ClocksLset w)
include h

theorem State.ClocksLset.kept (ws : List (Pin × Level)) : (pinWrites ws s).ClocksLset w :=
  ⟨pinWrites_soleWriter h.sole ws, h.wiring, (pinWrites_drives h.sole ws).mpr h.data,
    (pinWrites_drives h.sole ws).mpr h.clk⟩

theorem State.ClocksLset.apart : pinsApart w.data w.clk = true ∧ pinsApart w.clk w.le = true := by
  obtain ⟨⟨hdc, -, -⟩, ⟨-, hcl⟩, -⟩ := (wiringLegal_iff _).mp h.wiring
  exact ⟨hdc, hcl⟩

/-- The clock is logical Low after LSET's baseline. -/
theorem State.ClocksLset.baseline_clock_bit :
    (pinWrites (lsetBaseline w) s).outBit w.clk.bank w.clk.bit.toNat = w.clk.inv := by
  have hsole := (h.kept [(w.le, false), (w.data, false), (w.clk, false)]).sole
  refine (pinWrite_outBit_other hsole true (not_isLine_of_pinsApart h.apart.1 · ⟨rfl, rfl⟩)).trans ?_
  exact (pinWrite_outBit_self w.clk false _).trans (Bool.false_xor _)

/-- A write of DATA or LE is no clock edge. -/
theorem State.ClocksLset.edges_other {p : Pin} (hp : pinsApart p w.clk = true) (y : Level) :
    edgeLevels w s (pinWrite p y s) = [] :=
  edgeLevels_of_same (pinWrite_level_apart h.sole y (not_isLine_of_pinsApart hp ⟨rfl, rfl⟩))

/-- A write of Low to an uninverted clock, or to a clock that is logical Low already, is no rising edge. -/
theorem State.ClocksLset.edges_clock_low
    (hlow : w.clk.inv = false ∨ s.outBit w.clk.bank w.clk.bit.toNat = w.clk.inv) :
    edgeLevels w s (pinWrite w.clk false s) = [] := by
  have hafter := pinWrite_level_self h.sole h.clk false
  rw [Bool.false_xor] at hafter
  rcases hlow with hinv | hbit
  · exact edgeLevels_of_low (hinv ▸ hafter)
  · exact edgeLevels_of_same (by rw [hafter, level_driven h.clk, hbit])

/-- Of LSET's baseline an inverted clock's write alone can be a rising edge. -/
theorem State.ClocksLset.edges_baseline (hinv : w.clk.inv = false) : pinWritesEdges w (lsetBaseline w) s = [] := by
  obtain ⟨hdc, hcl⟩ := h.apart
  have hfirst := h.kept [(w.le, false)]
  have hsecond := hfirst.kept [(w.data, false)]
  have hthird := hsecond.kept [(w.clk, false)]
  simp only [lsetBaseline, pinWritesEdges, List.append_nil, List.append_eq_nil_iff]
  exact ⟨h.edges_other (pinsApart_comm w.clk w.le ▸ hcl) false, hfirst.edges_other hdc false,
    hsecond.edges_clock_low (.inl hinv), hthird.edges_other hdc true⟩

/-- LSET's last three writes make no rising edge of a clock that is logical Low. -/
theorem State.ClocksLset.edges_commit (hlow : s.outBit w.clk.bank w.clk.bit.toNat = w.clk.inv) :
    pinWritesEdges w (lsetCommit w) s = [] := by
  have hle : pinsApart w.le w.clk = true := pinsApart_comm w.clk w.le ▸ h.apart.2
  have hsecond := h.kept [(w.clk, false)]
  have hthird := hsecond.kept [(w.le, true)]
  simp only [lsetCommit, pinWritesEdges, List.append_nil, List.append_eq_nil_iff]
  exact ⟨h.edges_clock_low (.inr hlow), hsecond.edges_other hle true, hthird.edges_other hle false⟩

/-- The levels at LSET's rising edges: early ones of an inverted clock only, then the 40 bits of the bytes. -/
theorem State.ClocksLset.edges (bytes : List Byte) :
    ∃ early, pinWritesEdges w (lsetWrites w bytes) s =
      early ++ (bitsOf bytes).map (fun y => LineLevel.driven (y ^^ w.data.inv)) ∧ (w.clk.inv = false → early = []) := by
  refine ⟨pinWritesEdges w (lsetBaseline w) s, ?_, h.edges_baseline⟩
  have hbase := h.kept (lsetBaseline w)
  have hlow := h.baseline_clock_bit
  have hclocks : (pinWrites (lsetBaseline w) s).ClocksData w :=
    ⟨hbase.sole, h.apart.1, hbase.data, hbase.clk, fun hinv => by rw [level_driven hbase.clk, hlow, hinv]⟩
  have hcommit := (hbase.kept _).edges_commit (iterations_clock_bit (d := w.data) (bitsOf bytes) hlow)
  rw [lsetWrites, pinWritesEdges_append, pinWritesEdges_append, pinWrites_append, lsetShift_eq, hcommit,
    hclocks.iterations_edges, List.append_nil]

end

/-! ### The chain and the latch after LSET -/

theorem getElem?_bitsOf (bytes : List Byte) {k j : Nat} (hj : j < 8) :
    (bitsOf bytes)[8 * k + j]? = bytes[k]?.map (·.getLsbD j) := by
  induction bytes generalizing k with
  | nil => simp [bitsOf]
  | cons x bytes ih =>
    have hcons : bitsOf (x :: bytes) = (List.range 8).map x.getLsbD ++ bitsOf bytes := List.flatMap_cons
    rw [hcons]
    cases k with
    | zero =>
      rw [List.getElem?_append_left (by simp [hj])]
      simp [hj]
    | succ k =>
      rw [List.getElem?_append_right (by simp; omega), List.length_map, List.length_range,
        show 8 * (k + 1) + j - 8 = 8 * k + j by omega, ih, List.getElem?_cons_succ]

/-- The chain after LSET of five bytes: bit `j` of byte `k` lies in cell `39 - (8k + j)`, through DATA's inversion
(43 R168). -/
theorem lset_sr {s : State} (hs : s.SoleWriter) (hw : wiringLegal s.cfg.wiring = true) (hd : s.ChainDriven)
    (hmet : s.cfg.setupHoldMet = true) {bytes : List Byte} (hlen : bytes.length = 5) {k j : Nat}
    (hk : k < 5) (hj : j < 8) :
    cellAt (pinWrites (lsetWrites s.cfg.wiring bytes) s).sr (39 - (8 * k + j)) =
      .known ((bytes.getD k 0).getLsbD j ^^ s.cfg.wiring.data.inv) := by
  obtain ⟨early, hedges, -⟩ := State.ClocksLset.edges ⟨hs, hw, hd.data, hd.clk⟩ bytes
  let sent := (bitsOf bytes).map (· ^^ s.cfg.wiring.data.inv)
  have hsent : sent.length = 40 := by simp [sent, length_bitsOf, hlen]
  have hbit : sent[8 * k + j]? = some ((bytes.getD k 0).getLsbD j ^^ s.cfg.wiring.data.inv) := by
    simp [sent, getElem?_bitsOf bytes hj, hlen, hk]
  obtain ⟨hi, hval⟩ := List.getElem?_eq_some_iff.mp hbit
  have hsr : (pinWrites (lsetWrites s.cfg.wiring bytes) s).sr = sent.foldl (fun sr x => shiftIn (.known x) sr)
      (early.foldl (fun sr l => shiftIn (sampled s.cfg l) sr) s.sr) := by
    rw [pinWrites_sr _ hs hw hd.clk, hedges, List.foldl_append, List.foldl_map, List.foldl_map]
    simp only [sampled, hmet, if_true]
  rw [hsr, cellAt_shiftIns_getElem sent _ hi (by omega) (by omega), hval]

/-- A write of LE shifts nothing. -/
theorem pinWrite_le_sr {s : State} (hs : s.SoleWriter) (hw : wiringLegal s.cfg.wiring = true)
    (hclk : s.Drives s.cfg.wiring.clk) (y : Level) : (pinWrite s.cfg.wiring.le y s).sr = s.sr := by
  obtain ⟨-, ⟨-, hcl⟩, -⟩ := (wiringLegal_iff _).mp hw
  rw [pinWrite_sr hs hw hclk, edgeLevels_of_same (pinWrite_level_apart hs y (not_isLine_of_pinsApart hcl · ⟨rfl, rfl⟩))]
  rfl

/-- The latch pulse commits SR in every latch mode and for both inversion flags (20 R76). -/
theorem latchPulse_commits {s : State} (hs : s.SoleWriter) (hw : wiringLegal s.cfg.wiring = true) (hd : s.ChainDriven)
    (hlow : s.outBit s.cfg.wiring.le.bank s.cfg.wiring.le.bit.toNat = s.cfg.wiring.le.inv) :
    (pinWrites (latchPulse s.cfg.wiring) s).latch = (pinWrites (latchPulse s.cfg.wiring) s).sr := by
  let v := pinWrite s.cfg.wiring.le true s
  have hvs : v.SoleWriter := pinWrite_soleWriter hs _ _
  have hvc : v.cfg = s.cfg := pinWrite_cfg _ _ _
  have hdrives : ∀ q, s.Drives q → v.Drives q := fun q => (pinWrite_drives hs).mpr
  have hfirst : v.latch = _ := pinWrite_le_latch hs hw hd.le true
  have hsecond := pinWrite_le_latch hvs (hvc ▸ hw) (hvc ▸ hdrives _ hd.le) false
  have hkept := pinWrite_le_sr hvs (hvc ▸ hw) (hvc ▸ hdrives _ hd.clk) false
  have hhigh : v.outBit s.cfg.wiring.le.bank s.cfg.wiring.le.bit.toNat = (true ^^ s.cfg.wiring.le.inv) :=
    pinWrite_outBit_self _ _ _
  rw [hvc] at hsecond hkept
  rw [hkept, hfirst, hlow, hhigh] at hsecond
  change (pinWrite s.cfg.wiring.le false v).latch = (pinWrite s.cfg.wiring.le false v).sr
  rw [hsecond, hkept]
  cases s.cfg.latchMode <;> cases s.cfg.wiring.le.inv <;> rfl

/-- LSET ends with LATCH holding SR. -/
theorem lset_latch {s : State} (hs : s.SoleWriter) (hw : wiringLegal s.cfg.wiring = true) (hd : s.ChainDriven)
    (bytes : List Byte) : (pinWrites (lsetWrites s.cfg.wiring bytes) s).latch =
      (pinWrites (lsetWrites s.cfg.wiring bytes) s).sr := by
  obtain ⟨⟨-, -, hdl⟩, ⟨-, hcl⟩, -⟩ := (wiringLegal_iff _).mp hw
  let ws := (s.cfg.wiring.le, false) :: lsetBetween s.cfg.wiring bytes
  have hcfg : (pinWrites ws s).cfg = s.cfg := pinWrites_cfg _ _
  have hdrives : ∀ q, s.Drives q → (pinWrites ws s).Drives q := fun q => (pinWrites_drives hs ws).mpr
  have hlow : (pinWrites ws s).outBit s.cfg.wiring.le.bank s.cfg.wiring.le.bit.toNat = s.cfg.wiring.le.inv := by
    rw [pinWrites_cons, pinWrites_outBit_other (pinWrite_soleWriter hs _ _) _ fun x hx => ?_, pinWrite_outBit_self,
      Bool.false_xor]
    rcases mem_lsetBetween hx with h | h <;> rw [h]
    exacts [(not_isLine_of_pinsApart hdl · ⟨rfl, rfl⟩), (not_isLine_of_pinsApart hcl · ⟨rfl, rfl⟩)]
  have hpulse := latchPulse_commits (pinWrites_soleWriter hs ws) (hcfg ▸ hw)
    ⟨hcfg ▸ hdrives _ hd.data, hcfg ▸ hdrives _ hd.clk, hcfg ▸ hdrives _ hd.le⟩ (hcfg ▸ hlow)
  rw [hcfg] at hpulse
  rwa [lsetWrites_eq, ← List.cons_append, pinWrites_append]

/-- A byte whose bits lie in LATCH through DATA's inversion is the one displayed (20 R78). -/
theorem dispByte_eq_cellsOfByte {s : State} {k : Fin 5} {x : Byte} (h : ∀ j, j < 8 →
    cellAt s.latch (39 - (8 * k.val + j)) = .known (x.getLsbD j ^^ s.cfg.wiring.data.inv)) :
    dispByte s k = cellsOfByte x := by
  refine congrArg List.ofFn (funext fun j => ?_)
  rw [dispBit, Nat.sub_sub, h j.val j.isLt, Cell.flip, Bool.xor_assoc, Bool.xor_self, Bool.xor_false]

/-- Settles O47: the 40 bits are the last shifted in, and the pulse commits them. -/
theorem lsetEndState : Obligations.LsetEndState := by
  intro s a b c d e h hd hs hmet
  have hw := ((configLegal_iff _).mp h.ready.legal).2.1
  have hlatch := lset_latch hs hw hd [a, b, c, d, e]
  have hcells := fun (k : Fin 5) (j : Nat) (hj : j < 8) =>
    lset_sr hs hw hd hmet (bytes := [a, b, c, d, e]) rfl k.isLt hj
  have hexec := exec_lset_of_ready h a b c d e
  have hcfg := pinWrites_cfg (lsetWrites s.cfg.wiring [a, b, c, d, e]) s
  generalize pinWrites (lsetWrites s.cfg.wiring [a, b, c, d, e]) s = t at *
  refine ⟨complete t, hexec, hlatch, fun k => ⟨hcells k, dispByte_eq_cellsOfByte fun j hj => ?_⟩⟩
  rw [complete_latch, hlatch, complete_cfg, hcfg]
  exact hcells k j hj

/-! ### LNEW, LSET and LENABLE one after another -/

/-- Driven lines over cells that LATCH has taken are at rest (20 R73). -/
theorem chainAtRest_of_latch_eq_sr {s : State} (hd : s.ChainDriven) (h : s.latch = s.sr) : s.ChainAtRest := by
  have hf : Floating s :=
    ⟨fun hc => (nomatch (level_driven hd.clk).symm.trans hc), fun hl => (nomatch (level_driven hd.le).symm.trans hl)⟩
  refine (chainAtRest_iff s).mpr ⟨chainUpdate_self_sr hf, ?_⟩
  rw [chainUpdate_self_latch hf, h, ite_self]

theorem dispByte_congr {s t : State} (hc : t.cfg = s.cfg) (hl : t.latch = s.latch) (k : Fin 5) :
    dispByte t k = dispByte s k :=
  congrArg List.ofFn (funext fun j => by rw [dispBit, dispBit, hc, hl])

theorem drives_oe_of_disabled {s : State} (h : displayState s = .disabled) : s.Drives s.cfg.wiring.oe := by
  by_contra hn
  rw [displayState, level_undriven hn] at h
  cases h

/-- The levels at the last 40 clock edges of LSET's events are the bits of its bytes; with an uninverted clock there are
no others (43 R170). -/
theorem lset_clockedLevels {s : State} (h : s.ClocksLset s.cfg.wiring) {bytes : List Byte} (hlen : bytes.length = 5) :
    let levels := clockedLevels s.cfg (s.dir, s.out)
      ((pinWrites (lsetWrites s.cfg.wiring bytes) s).trace.drop s.trace.length)
    levels.drop (levels.length - 40) = (bitsOf bytes).map (fun y => .driven (y ^^ s.cfg.wiring.data.inv)) ∧
      (s.cfg.wiring.clk.inv = false → levels.length = 40) := by
  obtain ⟨early, hedges, hnone⟩ := h.edges bytes
  have hbits : (bitsOf bytes).length = 40 := by rw [length_bitsOf, hlen]
  intro levels
  have hlevels : levels = early ++ (bitsOf bytes).map (fun y => LineLevel.driven (y ^^ s.cfg.wiring.data.inv)) := by
    rw [← hedges, ← clockedLevels_pinWritesEvents _ h.sole]
    simp only [levels, pinWrites_trace, List.drop_left]
  rw [hlevels, List.length_append, List.length_map, hbits, Nat.add_sub_cancel, List.drop_left]
  exact ⟨rfl, fun hinv => by rw [hnone hinv, List.length_nil]⟩

/-- Settles O49: LNEW leaves a block on which LSET runs with driven lines, and LENABLE keeps what LSET latched. -/
theorem endToEndDisplay : Obligations.EndToEndDisplay := by
  intro s rest h hs hmet hv w bytes
  have hw := ((configLegal_iff _).mp h.ready.legal).2.1
  obtain ⟨s1, hexec1, -, hphase1, hdrv1, hopen1, -, hcfg1, -⟩ := lnewConstructsTheDriver s rest h hs
  obtain ⟨hoff1, hd1⟩ := (lnewEndsDisabled s s1 rest h hs hexec1).1 hv
  have hs1 : s1.SoleWriter := (soleWriter_of_cfg hcfg1).mpr hs
  have hready1 : ReadyForLset s1 :=
    ⟨⟨hcfg1 ▸ h.ready.legal, hphase1⟩, hdrv1, hopen1 _, hopen1 _, hopen1 _⟩
  obtain ⟨s2, hexec2, hlatch2, hshown2⟩ := lsetEndState s1 s.cfg.digits[1] s.cfg.digits[2] s.cfg.digits[3]
    s.cfg.digits[4] 0 hready1 hd1 hs1 (hcfg1 ▸ hmet)
  obtain ⟨t2, hexec2', heq2, hcontrol2, -, -, hdir2, -, -, -, -, -, hoff2⟩ := lsetDrivesItsThreePins s1
    s.cfg.digits[1] s.cfg.digits[2] s.cfg.digits[3] s.cfg.digits[4] 0 hready1 hs1
  obtain rfl : t2 = s2 := Host.Outcome.next.inj (hexec2'.symm.trans hexec2)
  have hcfg2 : t2.cfg = s.cfg := hcontrol2.cfg.trans hcfg1
  have hs2 : t2.SoleWriter := (soleWriter_of_cfg hcfg2).mpr hs
  have hdrives2 : ∀ q, s1.Drives q → t2.Drives q := fun q hq => by
    rwa [State.Drives, hdir2, hcontrol2.cfg]
  have hd2 : t2.ChainDriven := by
    refine ⟨?_, ?_, ?_⟩ <;> rw [hcontrol2.cfg]
    exacts [hdrives2 _ hd1.data, hdrives2 _ hd1.clk, hdrives2 _ hd1.le]
  obtain ⟨s3, hexec3, hcontrol3, -, -, -, -, -, hkept3, hon3⟩ := lenableAndLdisableDriveOutputEnable t2 .lenable false
    ⟨hcfg2 ▸ h.ready.legal, hcontrol2.phase.trans hphase1⟩ hs2 (hcontrol2.drv.trans hdrv1)
    (by rw [bankOpen, hcontrol2.fd, hcontrol2.map]; exact hopen1 _) (.inl ⟨rfl, rfl⟩)
  refine ⟨s1, t2, s3, hexec1, hexec2, hexec3, hon3 (drives_oe_of_disabled (hoff2.trans hoff1)), fun k => ?_, ?_⟩
  · rw [← (hshown2 k).2, dispByte_congr hcontrol3.cfg (hkept3 (chainAtRest_of_latch_eq_sr hd2 hlatch2)).2]
  · have hlevels := lset_clockedLevels (s := s1) ⟨hs1, hcfg1 ▸ hw, hd1.data, hd1.clk⟩ (bytes := bytes) rfl
    rw [heq2, complete_trace]
    rwa [hcfg1] at hlevels ⊢

end Sys2Proof.Machine
end

section
/-! SUPPORT. The end of a run by EXIT (44 R190), and the settled statement about it. -/

namespace Sys2Proof.Machine

/-- The driver's observable state reads nothing but the parameters and the register file. -/
theorem State.KeepsRegisters.displayState {s t : State} (h : s.KeepsRegisters t) (hc : t.cfg = s.cfg) :
    displayState t = displayState s :=
  displayState_congr hc <| level_congr hc (by rw [State.dirBit, h.dir, State.dirBit])
    (by rw [State.outBit, h.out, State.outBit])

theorem exec_exit_eq_endRun {s : State} (hr : s.Ready) :
    exec .exit s = .next (complete { endRun .exit s with phase := .exited }) :=
  command_ready hr _

theorem endRun_closes (last : Event) {s : State} (h : ∀ b, s.map.get b = true → s.fd.get b = true) (b : BankId) :
    (endRun last s).fd.get b = false ∧ (endRun last s).map.get b = false := by
  simp [endRun, releaseAll_unmaps h]

/-- Settles O50: EXIT is the teardown every ended run has, and a teardown makes no register access. -/
theorem exitTearsEverythingDown : Obligations.ExitTearsEverythingDown := by
  intro s hr hmapped
  have hquiet := endRun_quiet .exit s
  have hdrv : (endRun .exit s).drv = .unconstructed := emit_drv _ _
  refine ⟨_, exec_exit_eq_endRun hr, endRun_closes .exit hmapped, hdrv, rfl, congrArg (· + 1) hquiet.pc, hquiet.res,
    hquiet.cfg, hquiet.commands, endRun_trace .exit s, fun hs => ?_⟩
  have hkeep := hquiet.registers hs
  exact ⟨⟨hkeep.dir, hkeep.out, hkeep.sr, hkeep.latch⟩, hkeep.displayState hquiet.cfg⟩

end Sys2Proof.Machine
end

section
/-! SUPPORT. Taking a fault (60 R202, R205): what it is raised in, and what a fault leaves unchanged (60 R204); the
checks of the bank and pin commands (60 R203 check 5); and the settled statements of 60_exceptions.md about them. -/

namespace Sys2Proof.Machine

/-! ### Raising a fault -/

/-- A fault closes every handle and, under the invariant of 10 R22, unmaps every page. -/
theorem raise_closes (w : CmdWord) (c : FaultCode) (info : Option BankId) {s : State}
    (h : ∀ b, s.map.get b = true → s.fd.get b = true) (b : BankId) :
    (raise w c info s).fd.get b = false ∧ (raise w c info s).map.get b = false :=
  endRun_closes (.fault c) h b

/-- Settles O14: a fault is the teardown every ended run has, with its record. -/
theorem raisingAFaultTearsDownAndRecords : Obligations.RaisingAFaultTearsDownAndRecords := by
  intro w code info s hmapped
  have hquiet := raise_quiet w code info s
  exact ⟨raise_phase w code info s, raise_closes w code info hmapped, raise_drv w code info s,
    raise_trace w code info s, hquiet.pc, hquiet.res, hquiet.cfg, hquiet.commands, hquiet.registers⟩

/-! ### What a step raises its fault in -/

/-- `u` is a state in which a command that starts in `s` raises code `c`: setups at most have happened, and none for a
code that no setup draws. -/
structure FaultEntry (c : FaultCode) (s u : State) : Prop where
  quiet : Quiet s u
  trace : ∃ bs : List BankId, u.trace = s.trace ++ bs.map .acq
  mapped_open : (∀ b, s.map.get b = true → s.fd.get b = true) → ∀ b, u.map.get b = true → u.fd.get b = true
  unchanged : isMisuse c = true → u = s

theorem FaultEntry.refl (c : FaultCode) (s : State) : FaultEntry c s s := ⟨.refl s, ⟨[], by simp⟩, id, fun _ => rfl⟩

theorem FaultEntry.of_setupFailed {bs : List BankId} {b : BankId} {c : FaultCode} {s u v : State}
    (hu : Acquired bs s u) (hv : SetupFailed b u c v) : FaultEntry c s v := by
  obtain ⟨htrace, hmap, -, hfd, hcode⟩ := hv.fields
  refine ⟨hu.quiet.trans hv.quiet, ⟨bs, htrace.trans hu.trace⟩, fun hmapped b' hb' => ?_, fun hc => ?_⟩
  · rw [hmap, hu.map, Bool.or_eq_true] at hb'
    have hopen : u.fd.get b' = true := by
      rw [hu.fd, Bool.or_eq_true]
      exact hb'.imp_left (hmapped b')
    rw [hfd, hopen, Bool.true_or]
  · rcases hcode with rfl | rfl <;> cases hc

theorem Completed.not_faulted {i : Instr} {s t : State} (h : Completed i s t) (hs : s.phase = .running)
    (r : FaultRecord) : t.phase ≠ .faulted r := by
  obtain ⟨u, rfl, -, -, hphase⟩ := h.completes
  rw [complete_phase]
  rcases hphase with hp | hp <;> simp [hp, hs]

/-- A command of a Running block that ends Faulted has raised the code and the bank of its record. -/
theorem Result.raised {w : CmdWord} {i : Instr} {s t : State} {r : FaultRecord} (h : Result w i s t)
    (hs : s.phase = .running) (ht : t.phase = .faulted r) :
    ∃ u, FaultEntry r.code s u ∧ t = raise w r.code r.bank u := by
  cases h with
  | misuse c info hc =>
    cases ht
    exact ⟨s, .refl c s, rfl⟩
  | setup bs b c hi hd hsub hu hv =>
    cases ht
    exact ⟨_, .of_setupFailed hu hv, rfl⟩
  | completed hc => exact absurd ht (hc.not_faulted hs r)

/-- A step that takes a word answers what a command of that word can answer (30 R108). -/
theorem step_result_of_word {s t : State} {w : CmdWord} {rest : List CmdWord} (hw : s.commands = w :: rest)
    (h : step s = .next t) : ∃ i, Result w i { s with commands := rest } t := by
  obtain ⟨-, ⟨hempty, -⟩ | ⟨w', rest', hw', hcase⟩⟩ := step_next_result h
  · simp [hw] at hempty
  obtain ⟨rfl, rfl⟩ : w' = w ∧ rest' = rest := by simpa [hw] using hw'.symm
  obtain ⟨i, hd, hexec⟩ | ⟨-, c, hc, rfl⟩ := hcase
  · exact ⟨i, encode_of_decode hd ▸ (exec_next_result hexec).2⟩
  · exact ⟨.exit, .misuse c none hc⟩

/-- The events of a fault and of the setups before it are no accesses (60 R204). -/
theorem FaultEntry.raise_events {c : FaultCode} {s u : State} (h : FaultEntry c s u) (w : CmdWord)
    (info : Option BankId) :
    ∃ evs, (raise w c info u).trace = s.trace ++ evs ∧ ∀ e ∈ evs, isAccess e = false := by
  obtain ⟨bs, hbs⟩ := h.trace
  obtain ⟨before, hev⟩ := raise_stepEvents h.quiet hbs w c info
  exact ⟨before, by simpa using hev.trace, hev.before_quiet⟩

theorem isMisuse_of_not_setup {c : FaultCode} (hd : c ≠ .deviceOpenFailed) (hm : c ≠ .mapFailed) :
    isMisuse c = true := by
  cases c with
  | deviceOpenFailed => exact absurd rfl hd
  | mapFailed => exact absurd rfl hm
  | _ => rfl

/-- Settles O18: the state a fault is raised in differs from the step's start by setups at most, and raising keeps
the registers. -/
theorem faultsArePrecise : Obligations.FaultsArePrecise := by
  intro s t w rest r hr hw hstep ht
  obtain ⟨i, hres⟩ := step_result_of_word hw hstep
  obtain ⟨u, hentry, rfl⟩ := hres.raised hr.running ht
  have hquiet := hentry.quiet.trans (raise_quiet w r.code r.bank u)
  refine ⟨fun hs => ?_, hquiet.res, hentry.raise_events w r.bank, fun hd hm => ?_, fun b => ?_,
    fun hmapped b => (raise_closes w r.code r.bank (hentry.mapped_open hmapped) b).2⟩
  · obtain ⟨hdir, hout, hsr, hlatch⟩ := hquiet.registers hs
    exact ⟨hdir, hout, hsr, hlatch⟩
  · rw [hentry.unchanged (isMisuse_of_not_setup hd hm)]
  · rw [raise_fd, perBank_get_const]

/-! ### The checks of the bank and pin commands -/

theorem pinOfOp_of_bank {p : PinOp} {b : BankId} (h : bankOfField p.bank = some b) :
    pinOfOp p = some ⟨b, p.bit, p.inv⟩ := by
  simp [pinOfOp, h]

section
variable {s : State} (hr : s.Ready)
include hr

/-- A command of one bank that is closed raises BANK_NOT_OPEN, whatever its effect (60 R203 check 5). -/
theorem bankCommand_of_closed {f : BankField} {b : BankId} (hf : bankOfField f = some b) (hc : bankOpen s b = false)
    (w : CmdWord) (after : BankId → State) :
    command s (withBank w f s fun b => needOpen w b s (after b)) = .next (raise w .bankNotOpen (some b) s) := by
  rw [command_ready hr, withBank_of_some hf, needOpen_of_closed hc]

/-- A command of one pin whose bank is closed raises BANK_NOT_OPEN, whatever its effect (60 R203 check 5). -/
theorem pinCommand_of_closed {p : PinOp} {b : BankId} (hp : bankOfField p.bank = some b) (hc : bankOpen s b = false)
    (w : CmdWord) (after : Pin → State) :
    command s (withPin w p s fun q => needOpen w q.bank s (after q)) = .next (raise w .bankNotOpen (some b) s) := by
  rw [command_ready hr, withPin_of_some (pinOfOp_of_bank hp), needOpen_of_closed hc]

/-- SHIFTOUT is the checks of its two pins' banks, the data pin's first, then ShiftOut (42 R151). -/
theorem exec_shiftout_eq {dp cp : PinOp} {d c : Pin} (hd : pinOfOp dp = some d) (hc : pinOfOp cp = some c)
    (o : BitOrder) (x : Byte) :
    exec (.shiftout dp cp o x) s = .next (needPins (encode (.shiftout dp cp o x)) [d, c] s
      (complete (shiftOut d c o x s))) := by
  refine (command_ready hr _).trans ?_
  rw [withPin_of_some hd, withPin_of_some hc]
  rfl

end

/-- Settles O15: each command is one of one bank or of one pin; SHIFTOUT names the first closed bank of its two. -/
theorem bankCommandsNeedTheirBankOpen : Obligations.BankCommandsNeedTheirBankOpen := by
  refine ⟨fun s b f p k m x hr hf hp hc => ?_, fun s dp cp bd bc o x hr hd hc => ?_⟩
  · have hbank := bankCommand_of_closed hr hf hc
    have hpin := pinCommand_of_closed hr hp hc
    simp only [List.forall_mem_cons]
    exact ⟨hbank _ _, hbank _ _, hbank _ _, hbank _ _, hpin _ _, hpin _ _, hpin _ _, List.forall_mem_nil _⟩
  · have hexec := exec_shiftout_eq hr (pinOfOp_of_bank hd) (pinOfOp_of_bank hc) o x
    refine ⟨fun hdc => ?_, fun hdo hcc => ?_⟩
    · rw [hexec, needPins_of_first_closed (List.find?_cons_of_pos (by simp [hdc]))]
    · rw [hexec, needPins_of_first_closed (p := ⟨bc, cp.bit, cp.inv⟩) (by simp [hdo, hcc])]

end Sys2Proof.Machine
end

section
/-! SUPPORT. How a run ends (70 R244): a step raises a fault after setups at most, or was EXIT, and both end with the
one teardown `endRun`; and the settled statement about it. -/

namespace Sys2Proof.Machine

/-- On the way from `s` to `u` the only events were the acquisitions of `bs`, and the handles open in `s` and those of
`bs` are open in `u`. -/
structure HoldsAfterSetups (bs : List BankId) (s u : State) : Prop where
  trace : u.trace = s.trace ++ bs.map .acq
  opened : ∀ b, s.fd.get b = true ∨ b ∈ bs → u.fd.get b = true

theorem HoldsAfterSetups.refl (s : State) : HoldsAfterSetups [] s s := ⟨by simp, fun b hb => by simpa using hb⟩

theorem HoldsAfterSetups.of_setupFailed {bs : List BankId} {b : BankId} {c : FaultCode} {s u v : State}
    (hu : Acquired bs s u) (hv : SetupFailed b u c v) : HoldsAfterSetups bs s v := by
  obtain ⟨htrace, -, -, hfd, -⟩ := hv.fields
  refine ⟨htrace.trans hu.trace, fun b' hb' => ?_⟩
  have hopen : u.fd.get b' = true := by simpa [hu.fd] using hb'
  rw [hfd, hopen, Bool.true_or]

/-- The teardown after setups releases what was open or acquired, in ascending order, just before the last event. -/
theorem HoldsAfterSetups.endRun_events {bs : List BankId} {s u : State} (h : HoldsAfterSetups bs s u) (last : Event) :
    ∃ rels : List BankId, (endRun last u).trace = s.trace ++ bs.map .acq ++ rels.map .rel ++ [last] ∧
      rels.Sublist banks ∧ ∀ b, s.fd.get b = true ∨ b ∈ bs → b ∈ rels := by
  refine ⟨banks.filter fun b => u.fd.get b, by rw [endRun_trace, h.trace], List.filter_sublist, fun b hb => ?_⟩
  exact List.mem_filter.mpr ⟨by cases b <;> decide, h.opened b hb⟩

/-- A command raises its fault after setups at most, or completes. -/
theorem Result.raised_after_setups {w : CmdWord} {i : Instr} {s t : State} (h : Result w i s t) :
    (∃ c info bs u, HoldsAfterSetups bs s u ∧ t = raise w c info u) ∨ Completed i s t := by
  cases h with
  | misuse c info hc => exact .inl ⟨c, info, [], s, .refl s, rfl⟩
  | setup bs b c hi hd hs hu hv => exact .inl ⟨c, some b, bs, _, .of_setupFailed hu hv, rfl⟩
  | completed h => exact .inr h

/-- A step that ends the run raised a fault after setups at most, or was EXIT (44 R191). -/
theorem step_ended_cases {s t : State} (hr : s.Ready) (h : step s = .next t) (he : t.Ended) :
    ∃ rest, let s' := { s with commands := rest }
      (∃ w c info bs u, HoldsAfterSetups bs s' u ∧ t = raise w c info u) ∨
      (s.commands.head?.map decode = some (.cmd .exit) ∧ t = complete { endRun .exit s' with phase := .exited }) := by
  obtain ⟨-, ⟨-, rfl⟩ | ⟨w, rest, hw, ⟨i, hd, hexec⟩ | ⟨-, c, -, rfl⟩⟩⟩ := step_next_result h
  · exact absurd hr.running he
  · refine ⟨rest, ?_⟩
    obtain ⟨hr', hres⟩ := exec_next_result hexec
    obtain ⟨c, info, bs, u, hu, rfl⟩ | hc := hres.raised_after_setups
    · exact .inl ⟨_, c, info, bs, u, hu, rfl⟩
    · have hi : i = .exit := by_contra fun hi => he ((hc.phase hi).trans hr'.running)
      subst hi
      exact .inr ⟨by simp [hw, hd], Host.Outcome.next.inj (hexec.symm.trans (exec_exit_eq_endRun hr'))⟩
  · exact ⟨rest, .inl ⟨w, c, none, [], _, .refl _, rfl⟩⟩

/-- Settles O19: an ended block that meets the invariant holds no bank, and a fault and EXIT share their teardown. -/
theorem everyEndReleasesTheBanksInOrder : Obligations.EveryEndReleasesTheBanksInOrder := by
  intro s t hinv hr hstep he
  have hinv' := stepKeepsTheInvariant s t hinv hstep
  have hclosed := (hinv'.ended_released he).1
  refine ⟨fun b => ⟨hclosed b, Bool.eq_false_iff.mpr fun hm => ?_⟩, ?_⟩
  · exact absurd (hinv'.mapped_open b hm) (by rw [hclosed b]; nofun)
  obtain ⟨rest, ⟨w, c, info, bs, u, hu, rfl⟩ | ⟨hexit, rfl⟩⟩ := step_ended_cases hr hstep he
  · obtain ⟨rels, htrace, hsub, hall⟩ := hu.endRun_events (.fault c)
    exact ⟨bs, rels, .fault c, htrace, hsub, hall, .inr ⟨_, rfl, rfl⟩⟩
  · obtain ⟨rels, htrace, hsub, hall⟩ := (HoldsAfterSetups.refl { s with commands := rest }).endRun_events .exit
    exact ⟨[], rels, .exit, htrace, hsub, hall, .inl ⟨rfl, rfl, hexit⟩⟩

end Sys2Proof.Machine
end

section
/-! SUPPORT. The startup window of LNEW (70 R239): a line's level after any number of events, the events of LNEW's four
PinSetMode and its DriveOE, and the settled statement about OE's level among them. -/

namespace Sys2Proof.Machine

open Spec

/-! ### A line's level after some events -/

theorem applyEvent_cases (e : Event) :
    (∃ b, ∃ r : OutReg, ∃ v, e = .wr b r.toReg v) ∨ ∀ regs, applyEvent regs e = regs := by
  cases e with
  | wr b r v =>
    cases r with
    | dir => exact .inl ⟨b, .dir, v, rfl⟩
    | out => exact .inl ⟨b, .out, v, rfl⟩
    | inp => exact .inr fun _ => rfl
  | _ => exact .inr fun _ => rfl

/-- The registers of one kind. -/
def regsOf (regs : PerBank Word × PerBank Word) : OutReg → PerBank Word
  | .dir => regs.1
  | .out => regs.2

theorem regsOf_applyEvent_wr (regs : PerBank Word × PerBank Word) (b : BankId) (r r' : OutReg) (v : Word) :
    regsOf (applyEvent regs (.wr b r.toReg v)) r' = if r' = r then (regsOf regs r').set b v else regsOf regs r' := by
  cases r <;> cases r' <;> rfl

/-- Every event that writes register `r` of pin `p`'s bank writes `x` to the pin's bit. -/
def WritesBit (p : Pin) (r : OutReg) (x : Bool) (evs : List Event) : Prop :=
  ∀ v, .wr p.bank r.toReg v ∈ evs → v.getLsbD p.bit.toNat = x

theorem WritesBit.append {p : Pin} {r : OutReg} {x : Bool} {evs evs' : List Event} (h : WritesBit p r x evs)
    (h' : WritesBit p r x evs') : WritesBit p r x (evs ++ evs') :=
  fun v hv => (List.mem_append.mp hv).elim (h v) (h' v)

theorem writesBit_rd (p : Pin) (r : OutReg) (x : Bool) (b : BankId) (r' : Reg) (v : Word) :
    WritesBit p r x [.rd b r' v] := fun _ hv => nomatch List.mem_singleton.mp hv

theorem WritesBit.take {p : Pin} {r : OutReg} {x : Bool} {evs : List Event} (h : WritesBit p r x evs) (n : Nat) :
    WritesBit p r x (evs.take n) := fun v hv => h v (List.mem_of_mem_take hv)

/-- A bit that no event writes with another value keeps its value through all of them. -/
theorem WritesBit.foldl {p : Pin} {r : OutReg} {x : Bool} {evs : List Event} (h : WritesBit p r x evs)
    {regs : PerBank Word × PerBank Word} (hx : ((regsOf regs r).get p.bank).getLsbD p.bit.toNat = x) :
    ((regsOf (evs.foldl applyEvent regs) r).get p.bank).getLsbD p.bit.toNat = x := by
  induction evs generalizing regs with
  | nil => exact hx
  | cons e evs ih =>
    refine ih (fun v hv => h v (List.mem_cons_of_mem e hv)) ?_
    obtain ⟨b, r', v, rfl⟩ | hkeep := applyEvent_cases e
    · rw [regsOf_applyEvent_wr, apply_ite (PerBank.get · p.bank), perBank_get_set]
      split_ifs with hr hb
      · exact h v (by simp [hr, hb])
      · exact hx
      · exact hx
    · rwa [hkeep]

/-- The level of pin `p`'s line when the events `evs` have happened to the registers `regs`. -/
def levelAfter (c : Config) (regs : PerBank Word × PerBank Word) (evs : List Event) (p : Pin) : LineLevel :=
  lineLevel c (evs.foldl applyEvent regs).1 (evs.foldl applyEvent regs).2 p

theorem levelAfter_append (c : Config) (regs : PerBank Word × PerBank Word) (evs evs' : List Event) (p : Pin) :
    levelAfter c regs (evs ++ evs') p = levelAfter c (evs.foldl applyEvent regs) evs' p := by
  rw [levelAfter, levelAfter, List.foldl_append]

theorem lineLevel_eq_driven_iff {c : Config} {dir out : PerBank Word} {p : Pin} {x : Level} :
    lineLevel c dir out p = .driven x ↔
      (dir.get p.bank).getLsbD p.bit.toNat = c.dirDriveValue ∧ (out.get p.bank).getLsbD p.bit.toNat = x := by
  unfold lineLevel
  split
  case isTrue h => simp [beq_iff_eq.mp h]
  case isFalse h => simpa using fun hd _ => h (beq_iff_eq.mpr hd)

/-- A driven line keeps its level through events that write its two bits as they are. -/
theorem levelAfter_of_driven {c : Config} {regs : PerBank Word × PerBank Word} {evs : List Event} {p : Pin} {x : Level}
    (h : lineLevel c regs.1 regs.2 p = .driven x) (hdir : WritesBit p .dir c.dirDriveValue evs)
    (hout : WritesBit p .out x evs) : levelAfter c regs evs p = .driven x := by
  obtain ⟨hd, ho⟩ := lineLevel_eq_driven_iff.mp h
  exact lineLevel_eq_driven_iff.mpr ⟨hdir.foldl hd, hout.foldl ho⟩

/-! ### The events of PinSetMode -/

/-- How many events a PinSetMode makes (40 R122). -/
def setModeCount (c : Config) : Nat := if c.dirTwoPhase then 4 else 2

/-- The events of a PinSetMode of `p` to Output, when nobody else writes (40 R122, 41 R140). -/
def setOutputEvents (p : Pin) (s : State) : List Event :=
  let b := p.bank
  let v := s.dir.get b
  if s.cfg.dirTwoPhase then
    [.rd b .dir v, .wr b .dir (withBit v p.bit false),
      .rd b .dir (withBit v p.bit false), .wr b .dir (withBit v p.bit true)]
  else [.rd b .dir v, .wr b .dir (withBit v p.bit true)]

theorem pinSetMode_output_trace {s : State} (hs : s.SoleWriter) (p : Pin) :
    (pinSetMode s p .output).trace = s.trace ++ setOutputEvents p s := by
  unfold setOutputEvents
  split
  case isTrue h => exact bankSetDir_trace_two_cycles hs h p.bank p.bit .output
  case isFalse h => exact bankSetDir_trace_one_cycle hs (Bool.eq_false_iff.mpr h) p.bank p.bit .output

theorem setOutputEvents_length (p : Pin) (s : State) : (setOutputEvents p s).length = setModeCount s.cfg := by
  unfold setOutputEvents setModeCount
  split <;> rfl

/-- A PinSetMode ends with a write of the pin's DIR. -/
theorem setOutputEvents_getLast (p : Pin) (s : State) :
    ∃ v, (setOutputEvents p s).getLast? = some (.wr p.bank .dir v) := by
  unfold setOutputEvents
  split <;> exact ⟨_, rfl⟩

theorem mem_setOutputEvents {p : Pin} {s : State} {e : Event} (h : e ∈ setOutputEvents p s) :
    (∃ v, e = .rd p.bank .dir v) ∨ ∃ x, e = .wr p.bank .dir (withBit (s.dir.get p.bank) p.bit x) := by
  unfold setOutputEvents at h
  split at h
  all_goals simp only [List.mem_cons, List.not_mem_nil, or_false] at h
  case isTrue =>
    obtain rfl | rfl | rfl | rfl := h
    exacts [.inl ⟨_, rfl⟩, .inr ⟨_, rfl⟩, .inl ⟨_, rfl⟩, .inr ⟨_, rfl⟩]
  case isFalse =>
    obtain rfl | rfl := h
    exacts [.inl ⟨_, rfl⟩, .inr ⟨_, rfl⟩]

/-- PinSetMode writes no OUT. -/
theorem setOutputEvents_writesOut (p q : Pin) (s : State) (x : Bool) : WritesBit q .out x (setOutputEvents p s) := by
  intro v hv
  obtain ⟨_, h⟩ | ⟨_, h⟩ := mem_setOutputEvents hv
  · cases h
  · exact nomatch (Event.wr.inj h).2.1

/-- PinSetMode writes the DIR bit of every other line as it is. -/
theorem setOutputEvents_writesDir {p q : Pin} (h : pinsApart q p = true) (s : State) :
    WritesBit q .dir (s.dirBit q.bank q.bit.toNat) (setOutputEvents p s) := by
  intro v hv
  obtain ⟨_, he⟩ | ⟨x, he⟩ := mem_setOutputEvents hv
  · cases he
  · obtain ⟨hb, -, rfl⟩ := Event.wr.inj he
    rw [getLsbD_withBit, if_neg fun hbit => (pinsApart_iff q p).mp h ⟨hb, hbit⟩, State.dirBit, hb]

theorem foldl_setOutputEvents {s : State} (hs : s.SoleWriter) (p : Pin) :
    (setOutputEvents p s).foldl applyEvent (s.dir, s.out) =
      ((pinSetMode s p .output).dir, (pinSetMode s p .output).out) := by
  rw [pinSetMode, bankSetDir_dir hs, bankSetDir_out hs]
  unfold setOutputEvents
  split
  · simp [applyEvent, Mode.toBit]
  · simp [applyEvent, Mode.toBit]

/-- The events of PinSetMode of each listed pin to Output, in order. -/
def setOutputsEvents : List Pin → State → List Event
  | [], _ => []
  | p :: ps, s => setOutputEvents p s ++ setOutputsEvents ps (pinSetMode s p .output)

theorem setOutputsEvents_append (ps ps' : List Pin) (s : State) :
    setOutputsEvents (ps ++ ps') s = setOutputsEvents ps s ++ setOutputsEvents ps' (setOutputs ps s) := by
  induction ps generalizing s with
  | nil => rfl
  | cons p ps ih =>
    rw [List.cons_append, setOutputsEvents, ih, ← List.append_assoc]
    rfl

theorem setOutputs_trace (ps : List Pin) {s : State} (hs : s.SoleWriter) :
    (setOutputs ps s).trace = s.trace ++ setOutputsEvents ps s := by
  induction ps generalizing s with
  | nil => exact (List.append_nil _).symm
  | cons p ps ih =>
    calc (setOutputs ps (pinSetMode s p .output)).trace
        = (pinSetMode s p .output).trace ++ setOutputsEvents ps (pinSetMode s p .output) :=
          ih (bankSetDir_soleWriter hs p.bank p.bit .output)
      _ = s.trace ++ setOutputsEvents (p :: ps) s := by
        rw [pinSetMode_output_trace hs, List.append_assoc]
        rfl

theorem setOutputsEvents_length (ps : List Pin) {s : State} (hs : s.SoleWriter) :
    (setOutputsEvents ps s).length = ps.length * setModeCount s.cfg := by
  have hlen := setOutputs_trace_length ps hs
  rw [setOutputs_trace ps hs, List.length_append] at hlen
  exact Nat.add_left_cancel hlen

theorem setOutputsEvents_writesOut (ps : List Pin) (q : Pin) (s : State) (x : Bool) :
    WritesBit q .out x (setOutputsEvents ps s) := by
  induction ps generalizing s with
  | nil => exact fun v hv => absurd hv List.not_mem_nil
  | cons p ps ih => exact (setOutputEvents_writesOut p q s x).append (ih _)

theorem foldl_setOutputsEvents (ps : List Pin) {s : State} (hs : s.SoleWriter) :
    (setOutputsEvents ps s).foldl applyEvent (s.dir, s.out) = ((setOutputs ps s).dir, (setOutputs ps s).out) := by
  induction ps generalizing s with
  | nil => rfl
  | cons p ps ih =>
    rw [setOutputsEvents, List.foldl_append, foldl_setOutputEvents hs]
    exact ih (bankSetDir_soleWriter hs p.bank p.bit .output)

theorem setOutputsEvents_getLast (ps : List Pin) (p : Pin) (s : State) :
    ∃ v, (setOutputsEvents (ps ++ [p]) s).getLast? = some (.wr p.bank .dir v) := by
  obtain ⟨v, hv⟩ := setOutputEvents_getLast p (setOutputs ps s)
  exact ⟨v, by simp [setOutputsEvents_append, setOutputsEvents, hv]⟩

/-! ### The events of LNEW after its setups -/

/-- The state after LNEW's PinSetMode of DATA, CLK and OE, of which the last opens the startup window. -/
def outputEnableSet (u : State) : State :=
  setOutputs [u.cfg.wiring.data, u.cfg.wiring.clk, u.cfg.wiring.oe] { u with drv := .constructed }

/-- LNEW's events up to the write of OE's DIR: three PinSetMode. -/
def eventsBeforeWindow (u : State) : List Event :=
  setOutputsEvents [u.cfg.wiring.data, u.cfg.wiring.clk, u.cfg.wiring.oe] { u with drv := .constructed }

/-- The events of LE's PinSetMode. -/
def latchEnableEvents (u : State) : List Event := setOutputEvents u.cfg.wiring.le (outputEnableSet u)

/-- LNEW's events while OE drives its old bit: LE's PinSetMode and the read of DriveOE (70 R239). -/
def windowEvents (u : State) : List Event :=
  latchEnableEvents u ++ [.rd u.cfg.wiring.oe.bank .out (u.out.get u.cfg.wiring.oe.bank)]

/-- LNEW's last event, the write of DriveOE, which closes the window. -/
def driveHighEvent (u : State) : Event :=
  .wr u.cfg.wiring.oe.bank .out (withBit (u.out.get u.cfg.wiring.oe.bank) u.cfg.wiring.oe.bit true)

/-- LNEW's events after its setups (43 R163). -/
def startupEvents (u : State) : List Event := eventsBeforeWindow u ++ (windowEvents u ++ [driveHighEvent u])

theorem linesSet_eq (u : State) : linesSet u = pinSetMode (outputEnableSet u) u.cfg.wiring.le .output := rfl

@[simp] theorem outputEnableSet_cfg (u : State) : (outputEnableSet u).cfg = u.cfg := setOutputs_cfg _ _

theorem latchEnableEvents_length (u : State) : (latchEnableEvents u).length = setModeCount u.cfg := by
  rw [latchEnableEvents, setOutputEvents_length, outputEnableSet_cfg]

theorem windowEvents_length (u : State) : (windowEvents u).length = setModeCount u.cfg + 1 := by
  rw [windowEvents, List.length_append, latchEnableEvents_length, List.length_singleton]

theorem windowEvents_writesOut (u : State) (p : Pin) (x : Bool) : WritesBit p .out x (windowEvents u) :=
  (setOutputEvents_writesOut _ _ _ _).append (writesBit_rd _ _ _ _ _ _)

/-- LNEW writes OE's OUT bit 1 only (43 R163). -/
theorem startupEvents_writesOut (u : State) : WritesBit u.cfg.wiring.oe .out true (startupEvents u) := by
  refine (setOutputsEvents_writesOut _ _ _ _).append ((windowEvents_writesOut u _ _).append fun v hv => ?_)
  obtain ⟨-, -, rfl⟩ := Event.wr.inj (List.mem_singleton.mp hv)
  rw [getLsbD_withBit, if_pos rfl]

/-- With OE's old OUT bit 1, no event of LNEW drives OE Low (70 R239). -/
theorem startup_never_low {u : State} (h : u.outBit u.cfg.wiring.oe.bank u.cfg.wiring.oe.bit.toNat = true) (n : Nat) :
    levelAfter u.cfg (u.dir, u.out) ((startupEvents u).take n) u.cfg.wiring.oe ≠ .driven false := fun hlow => by
  have hbit := ((startupEvents_writesOut u).take n).foldl (regs := (u.dir, u.out)) h
  exact Bool.false_ne_true ((lineLevel_eq_driven_iff.mp hlow).2.symm.trans hbit)

section
variable {u : State} (hs : u.SoleWriter)
include hs

theorem outputEnableSet_soleWriter : (outputEnableSet u).SoleWriter :=
  (soleWriter_of_cfg (outputEnableSet_cfg u)).mpr hs

theorem eventsBeforeWindow_length : (eventsBeforeWindow u).length = 3 * setModeCount u.cfg :=
  setOutputsEvents_length _ (s := { u with drv := .constructed }) hs

theorem startupEvents_length : (startupEvents u).length = 4 * setModeCount u.cfg + 2 := by
  simp only [startupEvents, List.length_append, eventsBeforeWindow_length hs, windowEvents_length,
    List.length_singleton]
  omega

/-- The construction makes the startup events and no others. -/
theorem constructDriver_trace : (constructDriver u).trace = u.trace ++ startupEvents u := by
  have hbefore : (outputEnableSet u).trace = u.trace ++ eventsBeforeWindow u :=
    setOutputs_trace _ (s := { u with drv := .constructed }) hs
  rw [constructDriver_eq, complete_trace, pinWrite, bankWriteBit_trace (linesSet_soleWriter hs), linesSet_out hs,
    linesSet_eq, pinSetMode_output_trace (outputEnableSet_soleWriter hs), hbefore, Bool.xor_assoc, Bool.xor_self,
    Bool.xor_false]
  simp only [startupEvents, windowEvents, List.append_assoc]
  rfl

/-- OE is driven at its old OUT bit when the window opens, if DIR bit 1 drives it. -/
theorem outputEnableSet_level (hv : u.cfg.dirDriveValue = true) : level (outputEnableSet u) u.cfg.wiring.oe =
    .driven (u.outBit u.cfg.wiring.oe.bank u.cfg.wiring.oe.bit.toNat) := by
  have hdir : (outputEnableSet u).dirBit u.cfg.wiring.oe.bank u.cfg.wiring.oe.bit.toNat = true :=
    (setOutputs_dirBit _ (s := { u with drv := .constructed }) hs _ _).mpr
      (.inl ⟨u.cfg.wiring.oe, by simp, rfl, rfl⟩)
  have hout : (outputEnableSet u).out = u.out := setOutputs_out (s := { u with drv := .constructed }) hs _
  rw [level_driven ((drives_of_dirBit hdir).mpr (by rwa [outputEnableSet_cfg])), State.outBit, hout, State.outBit]

theorem eventsBeforeWindow_foldl : (eventsBeforeWindow u).foldl applyEvent (u.dir, u.out) =
    ((outputEnableSet u).dir, (outputEnableSet u).out) :=
  foldl_setOutputsEvents _ (s := { u with drv := .constructed }) hs

/-- From the write of OE's DIR until that of its OUT, OE stays at its old OUT bit (70 R239). -/
theorem startup_window (hw : wiringLegal u.cfg.wiring = true) (hv : u.cfg.dirDriveValue = true) {n : Nat}
    (hlo : 3 * setModeCount u.cfg ≤ n) (hhi : n ≤ 4 * setModeCount u.cfg + 1) :
    levelAfter u.cfg (u.dir, u.out) ((startupEvents u).take n) u.cfg.wiring.oe =
      .driven (u.outBit u.cfg.wiring.oe.bank u.cfg.wiring.oe.bit.toNat) := by
  obtain ⟨k, rfl⟩ := Nat.exists_eq_add_of_le hlo
  have hk : k ≤ (windowEvents u).length := by rw [windowEvents_length]; omega
  have hlevel := outputEnableSet_level hs hv
  rw [level, outputEnableSet_cfg] at hlevel
  have hdir := setOutputEvents_writesDir ((wiringLegal_iff _).mp hw).2.2 (outputEnableSet u)
  rw [State.dirBit, (lineLevel_eq_driven_iff.mp hlevel).1] at hdir
  rw [startupEvents, ← eventsBeforeWindow_length hs, List.take_length_add_append, levelAfter_append,
    eventsBeforeWindow_foldl hs, List.take_append_of_le_length hk]
  exact levelAfter_of_driven hlevel ((hdir.append (writesBit_rd _ _ _ _ _ _)).take k)
    ((windowEvents_writesOut u _ _).take k)

/-- After the write of DriveOE, OE is driven High (43 R163). -/
theorem startup_ends_high (hv : u.cfg.dirDriveValue = true) {n : Nat} (hn : 4 * setModeCount u.cfg + 2 ≤ n) :
    levelAfter u.cfg (u.dir, u.out) ((startupEvents u).take n) u.cfg.wiring.oe = .driven true := by
  have hdir : (linesSet u).dirBit u.cfg.wiring.oe.bank u.cfg.wiring.oe.bit.toNat = true :=
    (linesSet_dirBit hs _ _).mpr (.inl (.inr ⟨rfl, rfl⟩))
  have hle : (latchEnableEvents u).foldl applyEvent ((outputEnableSet u).dir, (outputEnableSet u).out) =
      ((linesSet u).dir, (linesSet u).out) := foldl_setOutputEvents (outputEnableSet_soleWriter hs) _
  rw [List.take_of_length_le ((startupEvents_length hs).trans_le hn), startupEvents, windowEvents, List.append_assoc,
    levelAfter_append, eventsBeforeWindow_foldl hs, levelAfter_append, hle]
  refine lineLevel_eq_driven_iff.mpr ⟨hdir.trans hv.symm, ?_⟩
  simp [driveHighEvent, applyEvent, getLsbD_withBit]

/-- The last event before the window is the write of OE's DIR. -/
theorem startupEvents_opening :
    ∃ v, (startupEvents u)[3 * setModeCount u.cfg - 1]? = some (.wr u.cfg.wiring.oe.bank .dir v) := by
  obtain ⟨v, hv⟩ := setOutputsEvents_getLast [u.cfg.wiring.data, u.cfg.wiring.clk] u.cfg.wiring.oe
    { u with drv := .constructed }
  have hlast : (eventsBeforeWindow u)[(eventsBeforeWindow u).length - 1]? = some (.wr u.cfg.wiring.oe.bank .dir v) :=
    List.getLast?_eq_getElem?.symm.trans hv
  have hlt := (List.getElem?_eq_some_iff.mp hlast).1
  exact ⟨v, by rw [← eventsBeforeWindow_length hs, startupEvents, List.getElem?_append_left hlt, hlast]⟩

theorem startupEvents_drop :
    (startupEvents u).drop (3 * setModeCount u.cfg) = windowEvents u ++ [driveHighEvent u] := by
  rw [← eventsBeforeWindow_length hs, startupEvents, List.drop_left]

theorem startupEvents_latchEnable :
    ((startupEvents u).drop (3 * setModeCount u.cfg)).take (setModeCount u.cfg) = latchEnableEvents u := by
  rw [startupEvents_drop hs, windowEvents, List.append_assoc, ← latchEnableEvents_length, List.take_left]

theorem startupEvents_drive : (startupEvents u).drop (4 * setModeCount u.cfg) =
    [.rd u.cfg.wiring.oe.bank .out (u.out.get u.cfg.wiring.oe.bank), driveHighEvent u] := by
  have hdrop : (startupEvents u).drop (4 * setModeCount u.cfg) =
      ((startupEvents u).drop (3 * setModeCount u.cfg)).drop (setModeCount u.cfg) := by
    rw [List.drop_drop]
    congr 1
    omega
  rw [hdrop, startupEvents_drop hs, windowEvents, List.append_assoc, ← latchEnableEvents_length, List.drop_left]
  rfl

end

/-- Settles O44: after the setups come the startup events, and OE's level follows its two register bits through them. -/
theorem startupWindow : Obligations.StartupWindow := by
  intro s t rest h hs hv hexec w evs c oeAfter
  obtain ⟨u, hacq, hexec'⟩ := exec_lnew_of_ready h
  obtain rfl : constructDriver u = t := Host.Outcome.next.inj (hexec'.symm.trans hexec)
  have hcfg := hacq.quiet.cfg
  obtain ⟨hdir, hout, -, -⟩ := hacq.quiet.registers hs
  have hus : u.SoleWriter := (soleWriter_of_cfg hcfg).mpr hs
  have hw : wiringLegal u.cfg.wiring = true := hcfg ▸ ((configLegal_iff _).mp h.ready.legal).2.1
  have hevs : evs = startupEvents u := by
    have hlen : s.trace.length + 3 = u.trace.length := by rw [hacq.trace, List.length_append]; rfl
    simp only [evs, hlen, constructDriver_trace hus, List.drop_left]
  have hlevel : ∀ n,
      oeAfter n = levelAfter u.cfg (u.dir, u.out) ((startupEvents u).take n) u.cfg.wiring.oe := fun n => by
    rw [hcfg, hdir, hout, ← hevs]
    rfl
  have hc : c = setModeCount u.cfg := by rw [hcfg]; rfl
  have hbit : s.outBit w.oe.bank w.oe.bit.toNat = u.outBit u.cfg.wiring.oe.bank u.cfg.wiring.oe.bit.toNat := by
    rw [State.outBit, State.outBit, hout, hcfg]
  have hpins : w = u.cfg.wiring := by rw [hcfg]
  rw [← hcfg] at hv
  simp only [hlevel, hevs, hc, hbit]
  rw [hpins]
  refine ⟨fun hlow => ⟨fun n hlo hhi => ?_, fun n hn => startup_ends_high hus hv hn, startupEvents_opening hus,
    fun e he => ?_, _, _, startupEvents_drive hus⟩, startup_never_low⟩
  · rw [startup_window hus hw hv hlo hhi, hlow]
  · rw [startupEvents_latchEnable hus] at he
    obtain ⟨v, he⟩ | ⟨x, he⟩ := mem_setOutputEvents he
    exacts [⟨v, .inl he⟩, ⟨_, .inr he⟩]

end Sys2Proof.Machine
end

section
/-! SUPPORT. The words spec/95_test_vectors.md writes out (sections 1 and 2): each is its command's own word, so the
round trip decodes it; the two rejected words fall to the check of the reserved bits and of the bank fields. -/

namespace Sys2Proof

/-- The word of a well-formed command decodes to it, whatever way the word is written (30 R103). -/
theorem decode_of_encode {w : CmdWord} {i : Instr} (hw : encode i = w) (hwf : i.wf = true) : decode w = .cmd i :=
  hw ▸ encodedCommandDecodesToItself i hwf

/-- A 1 in a bit the word's opcode reserves makes the word illegal (30 R101). -/
theorem decode_of_reserved_bit {w : CmdWord} {op : Opcode} (hc : byteAt w 56 = op.code)
    (hm : w &&& op.reservedMask ≠ 0) : decode w = .illegal :=
  (decode_of_code hc).trans (if_pos hm)

/-- Settles O4: fourteen words are the encodings of their commands; OPEN's word has a 1 in bit 2, and SHIFTOUT's
names bank 3 in its clock pin. -/
theorem specWordsDecode : Obligations.SpecWordsDecode := by
  refine ⟨?openBank, ?closeBank, ?setdir, ?wrbit, ?rdbit, ?pmode, ?pwrite, ?pread, ?shiftout, ?lnew, ?lenable,
    ?ldisable, ?lset, ?exit, ?reservedBit, ?bankThree⟩
  case reservedBit => exact decode_of_reserved_bit (op := .openBank) (by decide) (by decide)
  case bankThree => exact decode_of_bank_three (op := .shiftout) (by decide) (by decide) (by decide)
  all_goals exact decode_of_encode (by decide) (by decide)

end Sys2Proof
end
